-- ==== Sys2Proof/Word.lean ====
section
/-! DEFINITION. The word types of the block and the plainest arithmetic on them (spec/00_scope.md R9, R10). -/

namespace Sys2Proof

/-- A byte: 8 bits, 0 to 255 (R9). -/
abbrev Byte := BitVec 8

/-- A 32-bit register or command word (R41, R42, R43, R80). -/
abbrev Word := BitVec 32

/-- A 64-bit length register (R44, R45). -/
abbrev Len := BitVec 64

/-- A bit sequence, first bit first (R10). -/
abbrev Bits := List Bool

/-- `ceil8(n)`, the number of bytes that hold `n` bits (R9). -/
def ceil8 (n : Nat) : Nat := (n + 7) / 8

/-- `s32(v)`: the signed reading of a 32-bit field (R11, R87). -/
def s32 (v : Nat) : Int := if v < 2 ^ 31 then (v : Int) else (v : Int) - 2 ^ 32

end Sys2Proof
end

