-- ==== Sys2Proof/Config.lean ====
section
/-! DEFINITION. What an implementation fixes (R7, R8) and the free values, which the spec leaves open
("any value", a draw: R340, R350, R29, R25). A free value is an opaque constant: nothing can be proved of it. -/

namespace Sys2Proof

/-- `NSYM`: the symbol alphabet (R7). -/
abbrev nsym : Nat := 256

/-- `LZ77_WINDOW`: the back-window bound in bytes (R7, R241). -/
abbrev lz77Window : Nat := 255

/-- `LZ77_MAXLEN`: the longest match the encoder emits (R7, R241). -/
abbrev lz77MaxLen : Nat := 15

/-- `LZW_MAX`: the ceiling of the LZW dictionary (R7, R37). -/
abbrev lzwMax : Nat := 4096

/-- `CNT_W`: the width of a frequency counter (R8, R28). -/
abbrev cntW : Nat := 64

/-- `SF_HALF`: how the Shannon-Fano threshold is rounded (R8, R196). -/
inductive SfHalf where
  | ceil
  | floor
  deriving DecidableEq, Repr

/-- The parameters that the source leaves to the implementation, with the values the spec takes (R8). -/
structure Params where
  inCap : Nat := 2 ^ 24
  outCap : Nat := 2 ^ 24
  hdecTableMax : Nat := 256
  sfdecTableMax : Nat := 256
  sfdecCodeMax : Nat := 255
  sfHalf : SfHalf := .ceil
  deriving DecidableEq, Repr

/-- The parameters of the machine whose steps `exec` and `step` are: the defaults of R8.
DESIGN CHOICE (notes/assumptions/11): R8 lets an implementation override them; every operation takes them as an argument. -/
def params : Params := {}

/-- A byte of a memory cell that holds an unspecified value: draw number `n`, cell `a`
(R340, R25, R304; notes/assumptions/4 and 18). -/
opaque Config.freeByte : Nat → Nat → Byte

/-- A frequency counter that holds an unspecified value: draw number `n`, symbol `s` (R29, R340). -/
opaque Config.freeCount : Nat → Nat → BitVec cntW

/-- The value of a host read that returns an unspecified value (R350, U6): draw number `n`. -/
opaque Config.freeData : Nat → BitVec 64

/-- How an operation ends whose input the host disturbed (R350, U9): draw number `n`; 0 is `DONE`, any other
number stands for an error code. -/
opaque Config.freeEnd : Nat → Nat

/-- The output length of such an operation, before the bound `OUT_CAP` is put on it (R350, U9): draw number `n`. -/
opaque Config.freeLength : Nat → Nat

end Sys2Proof
end

