-- ==== Sys2Proof/Syntax.lean ====
section
/-! DEFINITION. The instructions of the block: its nine operations (R3, R81), one constructor per row of
spec/opcode_table.json. A command has no operands (R80). -/

namespace Sys2Proof

/-- The nine operations, in the order of their codes 0x1 to 0x9 (R81). -/
inductive Instr where
  | freqCount
  | huffEnc
  | huffDec
  | sfEnc
  | sfDec
  | lz77Enc
  | lz77Dec
  | lzwEnc
  | lzwDec
  deriving DecidableEq, Repr

end Sys2Proof
end

