-- ==== Sys2Proof/WellFormed.lean ====
section
/-! DEFINITION. What is well formed. An instruction has no operand that could be out of range (R80), so every
instruction is; the parameters have the constraints of R8. -/

namespace Sys2Proof

/-- The operation code of an instruction (R81). -/
def Instr.opCode : Instr → BitVec 4
  | .freqCount => 1
  | .huffEnc => 2
  | .huffDec => 3
  | .sfEnc => 4
  | .sfDec => 5
  | .lz77Enc => 6
  | .lz77Dec => 7
  | .lzwEnc => 8
  | .lzwDec => 9

/-- A legal value of the field `OP`: 0x1 to 0x9; 0x0 and 0xA to 0xF are reserved (R82). -/
def legalOp (op : BitVec 4) : Bool := 1 ≤ op.toNat && op.toNat ≤ 9

/-- An instruction is well formed when its operation code is a legal one. -/
def Instr.wf (i : Instr) : Bool := legalOp i.opCode

/-- A legal command word: bits 31:4 are 0 and `OP` is legal (R80, R82). -/
def legalCommand (w : Word) : Bool := w.extractLsb' 4 28 == 0 && legalOp (w.extractLsb' 0 4)

/-- The constraints of R8 on the parameters. -/
def Params.wf (P : Params) : Bool :=
  1 ≤ P.inCap && P.inCap ≤ 2 ^ 31 - 1 && 1 ≤ P.outCap && P.outCap ≤ 2 ^ 63 - 1 && P.inCap < 2 ^ cntW
    && 256 ≤ P.hdecTableMax && 256 ≤ P.sfdecTableMax && 255 ≤ P.sfdecCodeMax

end Sys2Proof
end

