-- ==== Sys2Proof/Decode.lean ====
section
/-! DEFINITION. Decoding and encoding of the command word `CMD32` (R80, R81, R82). The decoder is total on 32-bit words and
says which rule a rejected word breaks. -/

namespace Sys2Proof

/-- Why a word is no command (R82). -/
inductive BadWord where
  | zeroFieldSet                 -- one of bits 31:4 is set
  | reservedOp (op : BitVec 4)   -- `OP` is 0x0 or 0xA to 0xF
  deriving DecidableEq, Repr

/-- The operation that a value of the field `OP` names (R81), `none` for the reserved values. -/
def decodeOp (op : BitVec 4) : Option Instr :=
  match op.toNat with
  | 1 => some .freqCount
  | 2 => some .huffEnc
  | 3 => some .huffDec
  | 4 => some .sfEnc
  | 5 => some .sfDec
  | 6 => some .lz77Enc
  | 7 => some .lz77Dec
  | 8 => some .lzwEnc
  | 9 => some .lzwDec
  | _ => none

/-- The field `ZERO`, bits 31:4 of a command word (R80). -/
def cmdZero (w : Word) : BitVec 28 := w.extractLsb' 4 28

/-- The field `OP`, bits 3:0 of a command word (R80). -/
def cmdOp (w : Word) : BitVec 4 := w.extractLsb' 0 4

/-- The instruction of a command word, or why it is none (R80 to R82). -/
def decode (w : Word) : Except BadWord Instr :=
  if cmdZero w = 0 then
    match decodeOp (cmdOp w) with
    | some i => .ok i
    | none => .error (.reservedOp (cmdOp w))
  else .error .zeroFieldSet

/-- The command word of an instruction (R81): `ZERO` = 0 above `OP`. -/
def encode : Instr → Word
  | .freqCount => 0x00000001
  | .huffEnc => 0x00000002
  | .huffDec => 0x00000003
  | .sfEnc => 0x00000004
  | .sfDec => 0x00000005
  | .lz77Enc => 0x00000006
  | .lz77Dec => 0x00000007
  | .lzwEnc => 0x00000008
  | .lzwDec => 0x00000009

/-- The instruction that the decoder reads from a word numbered as spec/opcode_table.json numbers it. A command is one
32-bit word (R80), so bits above `nbits` are 0 and a word of more than 32 bits is no command. -/
def decodeTableWord (nbits w : Nat) : Option Instr :=
  if nbits ≤ 32 ∧ w < 2 ^ nbits then (decode (BitVec.ofNat 32 w)).toOption else none

end Sys2Proof
end

