-- ==== Sys2Proof/Machine/State.lean ====
section
/-! DEFINITION. The state of the machine as plain data, the moves that can be made on it, and reset
(spec/10_state.md, spec/70_reset_and_hazards.md R340). -/

namespace Sys2Proof.Machine

/-- A byte memory: the cells whose contents are known, in strictly rising address order, and the number of the draw
that gives every unlisted cell its unspecified value (notes/assumptions/18). -/
structure Mem where
  cells : List Host.Cell
  epoch : Nat
  deriving DecidableEq, Repr, Inhabited

/-- The frequency table `FREQ[0..255]` (R28). -/
abbrev FreqTable := Vector (BitVec cntW) nsym

/-- The code table: `CODE_BITS[s]`; `CODE_LEN[s]` is its length, 0 for an absent symbol (R33). -/
abbrev CodeTable := Vector Bits nsym

/-- The phase names of all nine operations (R23; R120, R130, R160, R190, R220, R240, R251, R270, R280). -/
inductive Phase where
  | check | clear | count | build | codegen | header | table | payload | finish
  | walk | sort | bisect | bitcount | scan | tokenize | write | replay | seed | flush | first
  deriving DecidableEq, Repr, Inhabited

/-- A record of the Huffman build arena `NODE` (R31): a leaf or an internal node, with its frequency and its
creation number `ord`. -/
inductive HuffNode where
  | leaf (freq ord : Nat) (sym : Byte)
  | inner (freq ord left right : Nat)
  deriving DecidableEq, Repr

/-- A record of the Huffman decode arena (R34): a leaf, or an internal node whose children may be `NONE`. -/
inductive DecNode where
  | leaf (sym : Byte)
  | inner (child0 child1 : Option Nat)
  deriving DecidableEq, Repr

/-- A token of LZ77: offset, length, next symbol (R241). -/
structure Token where
  offset : Byte
  length : Byte
  symbol : Byte
  deriving DecidableEq, Repr

/-- The working state of the engine and its cursors (R22, R30 to R37). It belongs to one operation and no host
access shows it (R47). -/
structure Work where
  phase : Phase                         -- `PHASE` (R23)
  rp : Nat                              -- input read cursor (R22)
  wp : Nat                              -- output write cursor (R22)
  bitbuf : Byte                         -- bit packer (R89)
  bitcnt : Nat                          -- bit packer (R89)
  base : Nat                            -- first byte of the payload (R91)
  brp : Nat                             -- bit reader (R91)
  nodes : List HuffNode                 -- `NODE` (R31)
  queue : List Nat                      -- priority structure (R32)
  codes : CodeTable                     -- code table (R33)
  tree : List DecNode                   -- decode arena (R34)
  sfList : List (Byte × Nat)            -- Shannon-Fano work list (R35)
  sfStack : List (Nat × Nat × Bits)     -- Shannon-Fano work stack: lo, hi, path (R35)
  sfMap : List (List Byte × Byte)       -- reverse map, at most one entry a key (R36)
  sfAcc : List Byte                     -- accumulator string (R36)
  dict : List (List Byte)               -- LZW dictionary: entry k is a string (R37)
  deriving DecidableEq, Repr

/-- The working state with every cursor 0 and every structure empty, as an operation finds it at its start (R30).
At reset it is a DESIGN CHOICE (notes/assumptions/5). -/
def Work.init : Work :=
  { phase := .finish, rp := 0, wp := 0, bitbuf := 0, bitcnt := 0, base := 0, brp := 0, nodes := [], queue := [],
    codes := Vector.replicate nsym [], tree := [], sfList := [], sfStack := [], sfMap := [], sfAcc := [], dict := [] }

/-- The transactions of the host (R66), and a read of `CMD` (R41). -/
inductive HostTxn where
  | writeIn (a : Nat) (b : Byte)
  | writeInLen (v : Len)
  | writeCmd (w : Word)
  | readStatus
  | readErr
  | readOutLen
  | readOut (a : Nat)
  | readFreq (s : Byte)
  | readIn (a : Nat)
  | readInLen
  | readCmd
  deriving DecidableEq, Repr

/-- Who moves next: the host with a transaction, the reset (R341), or the engine (notes/assumptions/2). -/
inductive Move where
  | host (t : HostTxn)
  | reset
  | engine
  deriving DecidableEq, Repr

/-- The state of the machine. `op` to `work` are the spec's; `draws`, `disturbed`, `hostData` and `agenda` are the
model's own (notes/assumptions/2, 8, 12, 20). -/
structure State where
  op : BitVec 4          -- latched `OP` (R41, R301)
  status : Word          -- `STATUS` (R42)
  err : Word             -- `ERR` (R43)
  inLen : Len            -- `IN_LEN` (R44)
  outLen : Len           -- `OUT_LEN` (R45)
  freq : FreqTable       -- `FREQ[0..255]` (R28)
  inMem : Mem            -- `IN` (R24)
  outMem : Mem           -- `OUT` (R25)
  work : Work            -- cursors and working state (R22, R30 to R37)
  draws : Nat            -- how many free values have been drawn
  disturbed : Bool       -- the host wrote `IN` while `BUSY` (R350)
  hostData : BitVec 64   -- what the last host read returned (R66)
  agenda : List Move     -- the moves to come
  deriving DecidableEq, Repr

/-- Why a step stops the machine. -/
inductive Fault where
  /-- Raised by the host's transactions on `IN`, never by an operation: the address is at or above `IN_CAP`, and
  `IN` has no such cell (R24). Safe: the machine stops where the spec gives no meaning (notes/assumptions/10). -/
  | noSuchInCell (a : Nat)
  /-- Raised by the host's read of `OUT`, never by an operation: the address is at or above `OUT_CAP`, and `OUT` has
  no such cell (R25). Safe (notes/assumptions/10). -/
  | noSuchOutCell (a : Nat)
  deriving DecidableEq, Repr

/-- Why the model gives no meaning. -/
inductive Refusal where
  /-- An arm of `exec` that has no meaning yet; no arm is left so. Safe: the machine stops. -/
  | notModelled (mnemonic : String)
  deriving DecidableEq, Repr

/-- The table of unspecified counters of draw `n` (R29, R340). -/
@[irreducible] def freeFreq (n : Nat) : FreqTable := Vector.ofFn fun s => Config.freeCount n s.val

/-- The state after a reset (R340): the registers 0, nothing latched; `FREQ`, `IN` and `OUT` unspecified, as the draws
`n`, `n + 1` and `n + 2`; the working state as `Work.init` (notes/assumptions/4 and 5). The moves to come and the value
the host last read belong to the host and stay. -/
def State.afterReset (n : Nat) (hostData : BitVec 64) (agenda : List Move) : State :=
  { op := 0, status := 0, err := 0, inLen := 0, outLen := 0, freq := freeFreq n,
    inMem := { cells := [], epoch := n + 1 }, outMem := { cells := [], epoch := n + 2 }, work := Work.init,
    draws := n + 3, disturbed := false, hostData := hostData, agenda := agenda }

/-- The machine right after its first reset, with no move to come: the engine waits for a `CMD` write (R340). -/
def State.reset : State := State.afterReset 0 0 []

end Sys2Proof.Machine
end

