-- ==== Sys2Proof/Machine/Flags.lean ====
section
/-! DEFINITION. The two flags of the block, `STATUS.STATE` and `ERR.CODE` (R46): their fields, their values and the words
of the registers that hold them (R42, R43, R303). -/

namespace Sys2Proof.Machine

/-- The values of `STATUS.STATE` (R42). -/
inductive EngState where
  | idle | busy | done | error
  deriving DecidableEq, Repr

/-- The error kinds that `raise` names (R303). Code 0, `None`, is the absence of an error. -/
inductive ErrKind where
  | emptyInput | invalidContainer | corruptStream | ioRead | ioWrite | badCmd | range
  deriving DecidableEq, Repr

/-- The value of the field `STATE` (R42). -/
def EngState.code : EngState → BitVec 2
  | .idle => 0
  | .busy => 1
  | .done => 2
  | .error => 3

/-- The value of the field `CODE` (R303). -/
def ErrKind.code : ErrKind → BitVec 4
  | .emptyInput => 1
  | .invalidContainer => 2
  | .corruptStream => 3
  | .ioRead => 4
  | .ioWrite => 5
  | .badCmd => 6
  | .range => 7

/-- The word of `STATUS` with a state: bits 31:2 read as 0 (R42). -/
def statusWord (e : EngState) : Word := e.code.setWidth 32

/-- The word of `ERR` with an error: bits 31:4 read as 0 (R43). -/
def errWord (e : ErrKind) : Word := e.code.setWidth 32

/-- The word of `ERR` with `CODE` = `None` (R43, R303). -/
def errNone : Word := 0

/-- The field `STATUS.STATE` (R42). -/
def State.stateField (s : State) : BitVec 2 := s.status.extractLsb' 0 2

/-- The field `ERR.CODE` (R43). -/
def State.codeField (s : State) : BitVec 4 := s.err.extractLsb' 0 4

/-- `STATUS.STATE = BUSY` (R42). -/
def State.isBusy (s : State) : Bool := s.stateField == EngState.busy.code

/-- The error kind that a number stands for where the spec says "any error" (R350, U9): none for 0. -/
def errOfNat (n : Nat) : Option ErrKind :=
  match n % 8 with
  | 1 => some .emptyInput
  | 2 => some .invalidContainer
  | 3 => some .corruptStream
  | 4 => some .ioRead
  | 5 => some .ioWrite
  | 6 => some .badCmd
  | 7 => some .range
  | _ => none

end Sys2Proof.Machine
end

