-- ==== Sys2Proof/Machine/Ops.lean ====
section
/-! DEFINITION. The named operations over memory and registers: reading and writing a byte memory, the start of an
operation (R301), its successful end (R302), `raise` (R304, the analogue of taking an exception; there is no return from
one, R308), an illegal command (R82), reset (R340, R341) and the drawn result of a disturbed operation (R350). -/

namespace Sys2Proof.Machine

/-- The byte at an address: the listed one, else the unspecified value of that cell in the memory's draw. -/
def Mem.read (m : Mem) (a : Nat) : Byte :=
  match m.cells.lookup a with
  | some b => b
  | none => Config.freeByte m.epoch a

/-- Put a byte at an address into a list of cells in rising address order. -/
def insertCell (a : Nat) (b : Byte) : List Host.Cell → List Host.Cell
  | [] => [(a, b)]
  | (c, d) :: r => if a < c then (a, b) :: (c, d) :: r else if a = c then (a, b) :: r else (c, d) :: insertCell a b r

/-- Write one byte (R62). -/
def Mem.write (m : Mem) (a : Nat) (b : Byte) : Mem := { m with cells := insertCell a b m.cells }

/-- Every cell at or above `n` takes an unspecified value, that of draw `e` (R25, R304). -/
def Mem.forgetFrom (m : Mem) (n e : Nat) : Mem := { cells := m.cells.filter (fun c => c.1 < n), epoch := e }

/-- The canonical form: the listed addresses rise strictly. (An unlisted address has no known value, so no entry can equal
what it reads as; notes/assumptions/18.) -/
def Mem.wf (m : Mem) : Bool := decide (m.cells.Pairwise (fun c d => c.1 < d.1))

/-- Every listed address lies below a bound. -/
def Mem.below (m : Mem) (n : Nat) : Bool := m.cells.all (fun c => c.1 < n)

/-- Read counter `FREQ[s]` (R28). -/
def countOf (f : FreqTable) (s : Byte) : BitVec cntW := f[s.toNat]'(s.isLt)

/-- The table with all 256 counters 0 (R29). -/
def zeroFreq : FreqTable := Vector.replicate nsym 0

/-- `increment(symbol)`: `FREQ[s] <- FREQ[s] + 1` (R28, R120). -/
def increment (f : FreqTable) (s : Byte) : FreqTable := f.set s.toNat (countOf f s + 1) s.isLt

/-- `total(FREQ)`, the sum of all counters (R122). -/
def total (f : FreqTable) : Nat := (f.toList.map BitVec.toNat).sum

/-- The code of a symbol in the code table (R33). -/
def codeOf (t : CodeTable) (s : Byte) : Bits := t[s.toNat]'(s.isLt)

/-- Give a symbol its code (R33). -/
def setCode (t : CodeTable) (s : Byte) (b : Bits) : CodeTable := t.set s.toNat b s.isLt

/-- `PHASE <- p` (R11, R23). -/
def State.setPhase (p : Phase) (s : State) : State := { s with work := { s.work with phase := p } }

/-- `FREQ` takes unspecified values: the next draw (R29). -/
def State.drawFreq (s : State) : State := { s with freq := freeFreq s.draws, draws := s.draws + 1 }

/-- Every cell of `OUT` at or above `n` takes an unspecified value: the next draw (R25, R304). -/
def State.forgetOut (n : Nat) (s : State) : State :=
  { s with outMem := s.outMem.forgetFrom n s.draws, draws := s.draws + 1 }

/-- The registers at a successful end, as one step (R302). -/
def State.endDone (len : Nat) (s : State) : State :=
  { s with outLen := BitVec.ofNat 64 len, err := errNone, status := statusWord .done }

/-- The registers at an error, as one step (R304). -/
def State.endError (e : ErrKind) (s : State) : State :=
  { s with err := errWord e, outLen := 0, status := statusWord .error }

/-- The last phase of `FREQ.COUNT`: `OUT_LEN` is 0 (R120, R302), so every cell of `OUT` is unspecified (R25, R65;
notes/assumptions/7). -/
def State.finishCount (s : State) : State := ((s.setPhase .finish).forgetOut 0).endDone 0

/-- The last phase of the other operations: `OUT_LEN <- wp` (R302); `OUT` at and above `OUT_LEN` is unspecified
(R25); `FREQ` is kept by the counting encoders and unspecified after the others (R29). -/
def State.finishCoded (keepFreq : Bool) (s : State) : State :=
  let t := ((s.setPhase .finish).forgetOut s.work.wp).endDone s.work.wp
  if keepFreq then t else t.drawFreq

/-- `raise e` (R304): the error code, `OUT_LEN` 0, `STATE` `ERROR`; all of `OUT` is unspecified; `FREQ` is all 0 after
`EmptyInput` (R131 has cleared it) and unspecified after every other error (R29). -/
def State.raiseError (e : ErrKind) (s : State) : State :=
  let t := (s.endError e).forgetOut 0
  if e = .emptyInput then t else t.drawFreq

/-- Start of an operation by a legal `CMD` write (R301). -/
def State.start (op : BitVec 4) (s : State) : State :=
  { s with op := op, status := statusWord .busy, err := errNone, outLen := 0, disturbed := false,
           work := { s.work with rp := 0, wp := 0 } }

/-- An illegal command while not `BUSY`: it starts nothing and ends at once with `BadCmd`; `OUT`, `FREQ`, `IN` are not
touched (R82, C9). -/
def State.badCommand (s : State) : State :=
  { s with status := statusWord .error, err := errWord .badCmd, outLen := 0, disturbed := false }

/-- Reset in any state (R340, R341): the operation in progress is abandoned. -/
def State.resetMove (s : State) : State := State.afterReset s.draws s.hostData s.agenda

/-- The end of an operation whose input the host wrote while it ran: any `OUT`, any `OUT_LEN ≤ OUT_CAP`, `DONE` or any
error, but it ends (R350, U9; notes/assumptions/8). -/
def State.drawnResult (P : Params) (s : State) : State :=
  let n := s.draws
  let t := ({ s with draws := n + 1 }.forgetOut 0).drawFreq
  let len := BitVec.ofNat 64 (Config.freeLength n % (P.outCap + 1))
  match errOfNat (Config.freeEnd n) with
  | none => { t with outLen := len, err := errNone, status := statusWord .done }
  | some e => { t with outLen := len, err := errWord e, status := statusWord .error }

/-- A computation of the engine: it moves the state on and may `raise` an error (R11). -/
abbrev Eng := EStateM ErrKind State

/-- Run the phases of an operation and end it: with its last phase `fin`, or by the error it raised (R302, R304). -/
def runOp (fin : State → State) (m : Eng Unit) (s : State) : Host.Outcome State Fault Refusal :=
  match m s with
  | .ok _ t => .next (fin t)
  | .error e t => .next (t.raiseError e)

end Sys2Proof.Machine
end

