-- ==== Sys2Proof/Machine/Operands.lean ====
section
/-! DEFINITION. The operand forms (R11, R80): the input byte string, the fields of the containers, their reading and writing
at the cursors, and the bit packer and bit reader (R86 to R91). -/

namespace Sys2Proof.Machine

/-- The input of an operation, `IN[0 .. IN_LEN-1]` (R24). -/
def State.inBytes (s : State) : List Byte := (List.range s.inLen.toNat).map s.inMem.read

/-- The output of the last operation, `OUT[0 .. OUT_LEN-1]` (R25). -/
def State.outBytes (s : State) : List Byte := (List.range s.outLen.toNat).map s.outMem.read

/-- `BE(n, v)`: the `n` bytes of `v`, most significant first (R86). -/
def bigEndian (n v : Nat) : List Byte := (List.range n).map fun i => BitVec.ofNat 8 (v / 2 ^ (8 * (n - 1 - i)))

/-- `MemRead(m, a, n)`: the unsigned big-endian number in `n` bytes (R11, R86). -/
def memRead (m : Mem) (a n : Nat) : Nat :=
  ((List.range n).map fun i => (m.read (a + i)).toNat * 2 ^ (8 * (n - 1 - i))).sum

/-- Byte `j` of `Pack(b)`: the sum of `b[8j+i]·2^(7-i)` over the bits that exist (R88). -/
def packByte (b : Bits) (j : Nat) : Byte :=
  BitVec.ofNat 8 (((List.range 8).map fun i => if b[8 * j + i]? = some true then 2 ^ (7 - i) else 0).sum)

/-- `Pack(b)`: a bit sequence in bytes, first bit in bit 7, zero bits at the end (R88). -/
def pack (b : Bits) : List Byte := (List.range (ceil8 b.length)).map (packByte b)

/-- Bit `k` of packed bytes: bit `7 - (k mod 8)` of byte `k div 8` (R88, R163). -/
def packedBit (bytes : List Byte) (k : Nat) : Bool := (bytes[k / 8]?.getD 0).getLsbD (7 - k % 8)

/-- The first `n` bits of packed bytes, the inverse of `pack` (R163, R165). -/
def unpack (n : Nat) (bytes : List Byte) : Bits := (List.range n).map (packedBit bytes)

/-- `raise e` inside a rule (R11). -/
def raise {α : Type} (e : ErrKind) : Eng α := fun s => .error e s

/-- Apply a change to the state. -/
def change (f : State → State) : Eng Unit := fun s => .ok () (f s)

/-- Apply a change to the working state. -/
def changeWork (f : Work → Work) : Eng Unit := fun s => .ok () { s with work := f s.work }

/-- The working state. -/
def getWork : Eng Work := fun s => .ok s.work s

/-- `PHASE <- p` (R11). -/
def phase (p : Phase) : Eng Unit := change (State.setPhase p)

/-- What every operation does first: it initialises the working state and the cursors (R22, R30). -/
def beginOp : Eng Unit := changeWork fun _ => Work.init

/-- The check that every operation makes first: `IN_LEN > IN_CAP` raises `Range` (R306). -/
def checkRange (P : Params) : Eng Unit := fun s => if P.inCap < s.inLen.toNat then .error .range s else .ok () s

/-- `InByte()` (R11). -/
def inByte : Eng Byte := fun s =>
  if s.work.rp < s.inLen.toNat then .ok (s.inMem.read s.work.rp) { s with work := { s.work with rp := s.work.rp + 1 } }
  else .error .ioRead s

/-- `InU(n)` (R11): all `n` bytes or `IoRead`. -/
def inU (n : Nat) : Eng Nat := fun s =>
  if s.work.rp + n ≤ s.inLen.toNat then
    .ok (memRead s.inMem s.work.rp n) { s with work := { s.work with rp := s.work.rp + n } }
  else .error .ioRead s

/-- The next `n` bytes of the input (R163, R223). -/
def inBytesN : Nat → Eng (List Byte)
  | 0 => pure []
  | n + 1 => do
    let b ← inByte
    let r ← inBytesN n
    pure (b :: r)

/-- `OutByte(b)` (R11). -/
def outByte (P : Params) (b : Byte) : Eng Unit := fun s =>
  if s.work.wp < P.outCap then
    .ok () { s with outMem := s.outMem.write s.work.wp b, work := { s.work with wp := s.work.wp + 1 } }
  else .error .ioWrite s

/-- `OutByte` for each byte of a string, in order. -/
def outString (P : Params) : List Byte → Eng Unit
  | [] => pure ()
  | b :: r => do
    outByte P b
    outString P r

/-- `OutU(n, v)` (R11): the bytes of `BE(n, v)`, or `IoWrite` if not all of them fit. -/
def outU (P : Params) (n v : Nat) : Eng Unit := fun s =>
  if s.work.wp + n ≤ P.outCap then outString P (bigEndian n v) s else .error .ioWrite s

/-- The bit packer at the start of a payload: `bitbuf = 0`, `bitcnt = 0` (R89). -/
def startBits : Eng Unit := changeWork fun w => { w with bitbuf := 0, bitcnt := 0 }

/-- One bit of `PutBits` (R89). -/
def putBit (P : Params) (b : Bool) : Eng Unit := do
  changeWork fun w => { w with bitbuf := w.bitbuf ||| (BitVec.ofNat 8 b.toNat <<< (7 - w.bitcnt)), bitcnt := w.bitcnt + 1 }
  let w ← getWork
  if w.bitcnt = 8 then do
    outByte P w.bitbuf
    startBits
  else pure ()

/-- `PutBits(c)` (R89). -/
def putBits (P : Params) : Bits → Eng Unit
  | [] => pure ()
  | b :: c => do
    putBit P b
    putBits P c

/-- `FlushBits()` (R90). -/
def flushBits (P : Params) : Eng Unit := do
  let w ← getWork
  if 0 < w.bitcnt then do
    outByte P w.bitbuf
    startBits
  else pure ()

/-- The payload starts at the read cursor: `base = rp`, `brp <- 0` (R91, R168, R226). -/
def startPayload : Eng Unit := changeWork fun w => { w with base := w.rp, brp := 0 }

/-- `GetBit()` (R91). -/
def getBit : Eng Bool := fun s =>
  let a := s.work.base + s.work.brp / 8
  if a < s.inLen.toNat then
    .ok ((s.inMem.read a).getLsbD (7 - s.work.brp % 8)) { s with work := { s.work with brp := s.work.brp + 1 } }
  else .error .ioRead s

/-- The second pass of the coding encoders: `PutBits` of every input byte's code, then `FlushBits` (R141, R203). -/
def putCodes (P : Params) (codes : CodeTable) : List Byte → Eng Unit
  | [] => pure ()
  | b :: r => do
    putBits P (codeOf codes b)
    putCodes P codes r

/-- All byte values in ascending order. -/
def symbols : List Byte := (List.range nsym).map (BitVec.ofNat 8)

/-- `S`: the symbols with a count above 0, in ascending order (R132, R192). -/
def present (f : FreqTable) : List Byte :=
  ((symbols.zip f.toList).filter fun e => 0 < e.2.toNat).map Prod.fst

end Sys2Proof.Machine
end

