-- ==== Sys2Proof/Machine/FreqCount.lean ====
section
/-! DEFINITION. `FREQ.COUNT` (spec/40_frequency.md R120 to R122) and its two phases, which `HUFF.ENC` and `SF.ENC` share (R121). -/

namespace Sys2Proof.Machine

/-- Phase `CLEAR`: all 256 counters 0 (R120). -/
def clearFreq : Eng Unit := change fun s => { s with freq := zeroFreq }

/-- The scan of a byte string: one `increment` a byte (R120). -/
def countBytes (x : List Byte) (f : FreqTable) : FreqTable := x.foldl increment f

/-- Phase `COUNT`: scan `IN[0 .. IN_LEN-1]` once (R120, R132, R192). -/
def countInput : Eng Unit := change fun s => { s with freq := countBytes s.inBytes s.freq }

/-- `FREQ.COUNT` up to its last phase (R120). -/
def freqCount (P : Params) : Eng Unit := do
  beginOp
  checkRange P
  phase .clear
  clearFreq
  phase .count
  countInput

/-- `FREQ.COUNT` with parameters `P` (R120). -/
def freqCountWith (P : Params) (s : State) : Host.Outcome State Fault Refusal := runOp State.finishCount (freqCount P) s

/-- The meaning of `FREQ.COUNT` (R120). -/
def execFreqCount (s : State) : Host.Outcome State Fault Refusal := freqCountWith params s

end Sys2Proof.Machine
end

