-- ==== Sys2Proof/Machine/HuffDec.lean ====
section
/-! DEFINITION. `HUFF.DEC` (spec/42_huffman_decoder.md R160 to R176): header, tree reconstruction, walk. -/

namespace Sys2Proof.Machine

/-- The child of node `v` that bit `d` selects: `child0` for 0, `child1` for 1 (R166, R168). -/
def childOf (tree : List DecNode) (v : Nat) (d : Bool) : Option Nat :=
  match tree[v]? with
  | some (.inner c0 c1) => if d then c1 else c0
  | _ => none

/-- Set child `d` of node `v` (R166). -/
def setChild (tree : List DecNode) (v : Nat) (d : Bool) (w : Nat) : List DecNode :=
  match tree[v]? with
  | some (.inner c0 c1) => tree.set v (if d then .inner c0 (some w) else .inner (some w) c1)
  | _ => tree

/-- `NODE[w].isLeaf` (R34). -/
def isLeafNode (tree : List DecNode) (w : Nat) : Bool :=
  match tree[w]? with
  | some (.leaf _) => true
  | _ => false

/-- The symbol of a leaf (R34). -/
def leafSym (tree : List DecNode) (w : Nat) : Option Byte :=
  match tree[w]? with
  | some (.leaf s) => some s
  | _ => none

/-- Insertion of one bit path below node `v` (R166), `none` for a conflicting entry (R167). -/
def insertPath (tree : List DecNode) (sym : Byte) : Nat → Bits → Option (List DecNode)
  | _, [] => some tree
  | v, [d] =>
    match childOf tree v d with
    | some _ => none
    | none => some (setChild (tree ++ [.leaf sym]) v d tree.length)
  | v, d :: e :: c =>
    match childOf tree v d with
    | none => insertPath (setChild (tree ++ [.inner none none]) v d tree.length) sym tree.length (e :: c)
    | some w => if isLeafNode tree w then none else insertPath tree sym w (e :: c)

/-- Insert a code into the decode arena; a conflict raises `InvalidContainer` (R167). -/
def insertCode (sym : Byte) (c : Bits) : Eng Unit := do
  let w ← getWork
  match insertPath w.tree sym 0 c with
  | some t => changeWork fun w => { w with tree := t }
  | none => raise .invalidContainer

/-- One table entry: `symbol`, then `codeBitLength` (validated at once, R164), then `codeBits`, then insertion (R163, R174). -/
def huffReadEntry : Eng Unit := do
  let sym ← inByte
  let len ← inByte
  if len = 0 then raise .invalidContainer
  else do
    let bytes ← inBytesN (ceil8 len.toNat)
    insertCode sym (unpack len.toNat bytes)

/-- The table entries that are left (R163). -/
def huffReadTable : Nat → Eng Unit
  | 0 => pure ()
  | n + 1 => do
    huffReadEntry
    huffReadTable n

/-- The walk (R168): `left` symbols are still to be emitted, the walk stands at node `v`. Every turn consumes one payload
bit, so a fuel of one more than the bits of the input ends only where the payload has ended, which is `IoRead`
(R172; notes/assumptions/16). -/
def huffWalk (P : Params) : Nat → Nat → Nat → Eng Unit
  | _, 0, _ => pure ()
  | 0, _ + 1, _ => raise .ioRead
  | fuel + 1, left + 1, v => do
    let d ← getBit
    let w ← getWork
    match childOf w.tree v d with
    | none => raise .corruptStream
    | some u =>
      match leafSym w.tree u with
      | some s => do
        outByte P s
        huffWalk P fuel left 0
      | none => huffWalk P fuel (left + 1) u

/-- `HUFF.DEC` up to its last phase (R160 to R172). -/
def huffDec (P : Params) : Eng Unit := do
  beginOp
  phase .header
  checkRange P
  let origLen ← inU 8
  let ts ← inU 4
  if s32 ts ≤ 0 then raise .invalidContainer
  else if P.hdecTableMax < ts then raise .invalidContainer
  else do
    phase .table
    changeWork fun w => { w with tree := [.inner none none] }
    huffReadTable ts
    phase .walk
    startPayload
    let s ← get
    huffWalk P (8 * s.inLen.toNat + 1) origLen 0

/-- `HUFF.DEC` with parameters `P` (R160). -/
def huffDecWith (P : Params) (s : State) : Host.Outcome State Fault Refusal :=
  runOp (State.finishCoded false) (huffDec P) s

/-- The meaning of `HUFF.DEC` (R160). -/
def execHuffDec (s : State) : Host.Outcome State Fault Refusal := huffDecWith params s

end Sys2Proof.Machine
end

