-- ==== Sys2Proof/Machine/HuffEnc.lean ====
section
/-! DEFINITION. `HUFF.ENC` (spec/41_huffman_encoder.md R130 to R146): tree build, code generation, table, payload. -/

namespace Sys2Proof.Machine

/-- The frequency of a build node (R31). -/
def HuffNode.freq : HuffNode → Nat
  | .leaf f _ _ => f
  | .inner f _ _ _ => f

/-- The creation number of a build node (R31, R133). -/
def HuffNode.ord : HuffNode → Nat
  | .leaf _ o _ => o
  | .inner _ o _ _ => o

/-- The priority key (`freq`, `ord`) of a node of the arena (R133). -/
def huffKey (nodes : List HuffNode) (k : Nat) : Nat × Nat :=
  match nodes[k]? with
  | some n => (n.freq, n.ord)
  | none => (0, k)

/-- Keys compare lexicographically (R133). -/
def keyLt (a b : Nat × Nat) : Bool := a.1 < b.1 || (a.1 == b.1 && a.2 < b.2)

/-- `Q.insert(k)`, the queue being kept in ascending key order (R32, R134). -/
def enqueue (nodes : List HuffNode) (k : Nat) : List Nat → List Nat
  | [] => [k]
  | j :: q => if keyLt (huffKey nodes k) (huffKey nodes j) then k :: j :: q else j :: enqueue nodes k q

/-- The leaves, in ascending symbol order, with `ord` counting from `k` (R133, R134). -/
def huffLeaves (f : FreqTable) : Nat → List Byte → List HuffNode
  | _, [] => []
  | k, s :: r => .leaf (countOf f s).toNat k s :: huffLeaves f (k + 1) r

/-- The queue after the insertion of nodes `0 .. n-1`, one by one (R134). -/
def huffQueue (nodes : List HuffNode) (n : Nat) : List Nat := (List.range n).foldl (fun q k => enqueue nodes k q) []

/-- The merge loop (R134): while more than one node is queued, the two of smallest key become the children of a new node,
the first extracted the left one (R135). The fuel is the number of leaves; each turn shortens the queue by one. -/
def huffMerge : Nat → List HuffNode → List Nat → List HuffNode × List Nat
  | 0, nodes, q => (nodes, q)
  | _ + 1, nodes, [] => (nodes, [])
  | _ + 1, nodes, [a] => (nodes, [a])
  | fuel + 1, nodes, a :: b :: q =>
    let k := nodes.length
    let nodes' := nodes ++ [.inner ((huffKey nodes a).1 + (huffKey nodes b).1) k a b]
    huffMerge fuel nodes' (enqueue nodes' k q)

/-- Phase `BUILD` on a frequency table: the arena and the queue, whose one element is the root (R133 to R135). -/
def huffBuild (f : FreqTable) : List HuffNode × List Nat :=
  let leaves := huffLeaves f 0 (present f)
  huffMerge leaves.length leaves (huffQueue leaves leaves.length)

/-- The leaves below node `v` with their paths: `0` for a left edge, `1` for a right edge (R136). The fuel bounds the
depth, which is less than the number of nodes (R138). -/
def huffPaths (nodes : List HuffNode) : Nat → Nat → Bits → List (Byte × Bits)
  | 0, _, _ => []
  | fuel + 1, v, path =>
    match nodes[v]? with
    | some (.leaf _ _ s) => [(s, path)]
    | some (.inner _ _ l r) => huffPaths nodes fuel l (path ++ [false]) ++ huffPaths nodes fuel r (path ++ [true])
    | none => []

/-- The code of a leaf: its path, the empty root path forced to `"0"` (R136, R137). -/
def forceCode (path : Bits) : Bits := if path = [] then [false] else path

/-- Fill the code table from paths; a symbol without one has the empty code, length 0 (R136). -/
def tableOfPaths (ps : List (Byte × Bits)) : CodeTable :=
  ps.foldl (fun t p => setCode t p.1 (forceCode p.2)) (Vector.replicate nsym [])

/-- The Huffman code table of a frequency table, a function of `FREQ` alone (R138 d). -/
def huffCodes (f : FreqTable) : CodeTable :=
  let b := huffBuild f
  match b.2 with
  | root :: _ => tableOfPaths (huffPaths b.1 b.1.length root [])
  | [] => tableOfPaths []

/-- Phase `CHECK` (R131). -/
def huffCheck (P : Params) : Eng Unit := do
  phase .check
  checkRange P
  clearFreq
  let s ← get
  if s.inLen = 0 then raise .emptyInput else pure ()

/-- Phase `BUILD` (R133 to R135). -/
def huffBuildPhase : Eng Unit := do
  phase .build
  change fun s =>
    let b := huffBuild s.freq
    { s with work := { s.work with nodes := b.1, queue := b.2 } }

/-- Phase `CODEGEN` (R136, R137): walk the arena of phase `BUILD` from its root. -/
def huffCodegenPhase : Eng Unit := do
  phase .codegen
  changeWork fun w =>
    match w.queue with
    | root :: _ => { w with codes := tableOfPaths (huffPaths w.nodes w.nodes.length root []) }
    | [] => { w with codes := tableOfPaths [] }

/-- Phase `HEADER` (R139). -/
def huffHeader (P : Params) : Eng Unit := do
  phase .header
  let s ← get
  outU P 8 s.inLen.toNat
  outU P 4 (present s.freq).length

/-- The entries of the table for the symbols given (R93, R140). -/
def huffEntries (P : Params) (codes : CodeTable) : List Byte → Eng Unit
  | [] => pure ()
  | s :: r => do
    outByte P s
    outByte P (BitVec.ofNat 8 (codeOf codes s).length)
    outString P (pack (codeOf codes s))
    huffEntries P codes r

/-- Phase `TABLE`: one entry a symbol, in ascending order (R140). -/
def huffTable (P : Params) : Eng Unit := do
  phase .table
  let s ← get
  huffEntries P s.work.codes (present s.freq)

/-- Phase `PAYLOAD` of both coding encoders (R141, R203). -/
def codedPayload (P : Params) : Eng Unit := do
  phase .payload
  startBits
  let s ← get
  putCodes P s.work.codes s.inBytes
  flushBits P

/-- `HUFF.ENC` up to its last phase (R130). -/
def huffEnc (P : Params) : Eng Unit := do
  beginOp
  huffCheck P
  phase .count
  countInput
  huffBuildPhase
  huffCodegenPhase
  huffHeader P
  huffTable P
  codedPayload P

/-- `HUFF.ENC` with parameters `P` (R130). -/
def huffEncWith (P : Params) (s : State) : Host.Outcome State Fault Refusal :=
  runOp (State.finishCoded true) (huffEnc P) s

/-- The meaning of `HUFF.ENC` (R130). -/
def execHuffEnc (s : State) : Host.Outcome State Fault Refusal := huffEncWith params s

end Sys2Proof.Machine
end

