-- ==== Sys2Proof/Machine/Lz77.lean ====
section
/-! DEFINITION. `LZ77.ENC` and `LZ77.DEC` (spec/45_lz77.md R240 to R259). -/

namespace Sys2Proof.Machine

/-- How far the input at `c` equals the input at `p`, from `k` on and up to `fuel` more bytes (R244, R245). -/
def matchLength (x : Array Byte) (c p : Nat) : Nat → Nat → Nat
  | 0, k => k
  | fuel + 1, k => if x[c + k]? = x[p + k]? then matchLength x c p fuel (k + 1) else k

/-- The candidate loop of `Match(p)` (R244): `d` is the distance `p - c` of the candidate, `fuel` the number of candidates
left, `best` the offset and length kept so far. -/
def searchMatch (x : Array Byte) (p maxLen : Nat) : Nat → Nat → Nat × Nat → Nat × Nat
  | 0, _, best => best
  | fuel + 1, d, best =>
    let k := matchLength x (p - d) p maxLen 0
    if best.2 < k then
      if k = maxLen then (d, k) else searchMatch x p maxLen fuel (d + 1) (d, k)
    else searchMatch x p maxLen fuel (d + 1) best

/-- `Match(p)` (R244): the offset and length of the longest match in the window `max(0, p-255) .. p-1`, nearest first. -/
def findMatch (x : Array Byte) (p : Nat) : Nat × Nat :=
  searchMatch x p (min lz77MaxLen (x.size - p - 1)) (min p lz77Window) 1 (0, 0)

/-- The main loop (R242) at cursor `p`. The cursor advances by at least 1 a turn, so a fuel of `x.size` suffices. -/
def tokensFrom (x : Array Byte) : Nat → Nat → List Token
  | 0, _ => []
  | fuel + 1, p =>
    if p < x.size then
      if p = x.size - 1 then [{ offset := 0, length := 0, symbol := x.getD p 0 }]
      else
        let m := findMatch x p
        { offset := BitVec.ofNat 8 m.1, length := BitVec.ofNat 8 m.2, symbol := x.getD (p + m.2) 0 }
          :: tokensFrom x fuel (p + m.2 + 1)
    else []

/-- The tokens of an input (R242 to R246). -/
def lz77Tokens (x : List Byte) : List Token := tokensFrom x.toArray x.length 0

/-- The tokens in order, three bytes each (R247). -/
def outTokens (P : Params) : List Token → Eng Unit
  | [] => pure ()
  | t :: r => do
    outByte P t.offset
    outByte P t.length
    outByte P t.symbol
    outTokens P r

/-- `LZ77.ENC` up to its last phase (R240 to R248). -/
def lz77Enc (P : Params) : Eng Unit := do
  beginOp
  phase .check
  checkRange P
  phase .tokenize
  let s ← get
  phase .write
  outU P 4 (lz77Tokens s.inBytes).length
  outTokens P (lz77Tokens s.inBytes)

/-- `LZ77.ENC` with parameters `P` (R240). -/
def lz77EncWith (P : Params) (s : State) : Host.Outcome State Fault Refusal :=
  runOp (State.finishCoded false) (lz77Enc P) s

/-- The meaning of `LZ77.ENC` (R240). -/
def execLz77Enc (s : State) : Host.Outcome State Fault Refusal := lz77EncWith params s

/-- The copy loop (R254, R354): byte by byte in ascending order, each read after all earlier writes; `a` is `start + k`. -/
def copyBack (P : Params) : Nat → Nat → Eng Unit
  | 0, _ => pure ()
  | n + 1, a => do
    let s ← get
    outByte P (s.outMem.read a)
    copyBack P n (a + 1)

/-- One token of the replay: read whole, validated, copied, and its symbol appended (R253 to R255). -/
def replayToken (P : Params) : Eng Unit := do
  let off ← inByte
  let len ← inByte
  let sym ← inByte
  let w ← getWork
  if w.wp < off.toNat ∨ (off = 0 ∧ len ≠ 0) then raise .corruptStream
  else do
    copyBack P len.toNat (w.wp - off.toNat)
    outByte P sym

/-- The tokens that are left (R253). -/
def replayTokens (P : Params) : Nat → Eng Unit
  | 0 => pure ()
  | n + 1 => do
    replayToken P
    replayTokens P n

/-- `LZ77.DEC` up to its last phase (R251 to R255). -/
def lz77Dec (P : Params) : Eng Unit := do
  beginOp
  phase .header
  checkRange P
  let tc ← inU 4
  if s32 tc ≤ 0 then raise .invalidContainer
  else do
    phase .replay
    replayTokens P tc

/-- `LZ77.DEC` with parameters `P` (R251). -/
def lz77DecWith (P : Params) (s : State) : Host.Outcome State Fault Refusal :=
  runOp (State.finishCoded false) (lz77Dec P) s

/-- The meaning of `LZ77.DEC` (R251). -/
def execLz77Dec (s : State) : Host.Outcome State Fault Refusal := lz77DecWith params s

end Sys2Proof.Machine
end

