-- ==== Sys2Proof/Machine/Lzw.lean ====
section
/-! DEFINITION. `LZW.ENC` and `LZW.DEC` (spec/46_lzw.md R270 to R289). -/

namespace Sys2Proof.Machine

/-- The seeded dictionary: entry `b` is the one-byte string `[b]` (R271, R282). -/
def lzwSeed : List (List Byte) := symbols.map fun b => [b]

/-- Add an entry with the next unused index, if the dictionary has less than 4096 (R272, R276, R286). -/
def lzwAdd (d : List (List Byte)) (w : List Byte) : List (List Byte) := if d.length < lzwMax then d ++ [w] else d

/-- `D[w]`, the code of a string of the dictionary: its index (R271). -/
def lzwCode (d : List (List Byte)) (w : List Byte) : Nat := d.idxOf w

/-- Phase `SCAN` from dictionary `d` and string `w` (R272): the codes emitted, the dictionary and the string that are left. -/
def lzwScan : List Byte → List (List Byte) → List Byte → List Nat × List (List Byte) × List Byte
  | [], d, w => ([], d, w)
  | b :: x, d, w =>
    if w ++ [b] ∈ d then lzwScan x d (w ++ [b])
    else
      let r := lzwScan x (lzwAdd d (w ++ [b])) [b]
      (lzwCode d w :: r.1, r.2)

/-- Phase `FLUSH`: the code of the last string, if it is not empty (R273). -/
def lzwFlush (r : List Nat × List (List Byte) × List Byte) : List Nat :=
  if r.2.2 = [] then r.1 else r.1 ++ [lzwCode r.2.1 r.2.2]

/-- The codes of an input (R271 to R273). -/
def lzwCodes (x : List Byte) : List Nat := lzwFlush (lzwScan x lzwSeed [])

/-- The codes in order, two bytes each (R274). -/
def outCodes (P : Params) : List Nat → Eng Unit
  | [] => pure ()
  | c :: r => do
    outU P 2 c
    outCodes P r

/-- `LZW.ENC` up to its last phase (R270 to R275). -/
def lzwEnc (P : Params) : Eng Unit := do
  beginOp
  phase .check
  checkRange P
  phase .seed
  changeWork fun w => { w with dict := lzwSeed }
  phase .scan
  let s ← get
  let r := lzwScan s.inBytes s.work.dict []
  changeWork fun w => { w with dict := r.2.1 }
  phase .flush
  let codes := lzwFlush r
  phase .write
  outU P 4 codes.length
  outCodes P codes

/-- `LZW.ENC` with parameters `P` (R270). -/
def lzwEncWith (P : Params) (s : State) : Host.Outcome State Fault Refusal :=
  runOp (State.finishCoded false) (lzwEnc P) s

/-- The meaning of `LZW.ENC` (R270). -/
def execLzwEnc (s : State) : Host.Outcome State Fault Refusal := lzwEncWith params s

/-- The string of a code after the first: an entry, or the self-reference `prev ++ [prev[0]]` for the next index
(R283, R284), which is still so when the dictionary is full (R286); `none` for an invalid code (R285). -/
def lzwString (d : List (List Byte)) (prev : List Byte) (c : Nat) : Option (List Byte) :=
  if c < d.length then d[c]? else if c = d.length then some (prev ++ prev.take 1) else none

/-- The codes that are left, the string before being `prev` (R283). -/
def lzwReplay (P : Params) : Nat → List Byte → Eng Unit
  | 0, _ => pure ()
  | n + 1, prev => do
    let c ← inU 2
    let w ← getWork
    match lzwString w.dict prev c with
    | none => raise .corruptStream
    | some cur => do
      outString P cur
      changeWork fun w => { w with dict := lzwAdd w.dict (prev ++ cur.take 1) }
      lzwReplay P n cur

/-- `LZW.DEC` up to its last phase (R280 to R286). -/
def lzwDec (P : Params) : Eng Unit := do
  beginOp
  phase .header
  checkRange P
  let cc ← inU 4
  if s32 cc ≤ 0 then raise .invalidContainer
  else do
    phase .seed
    changeWork fun w => { w with dict := lzwSeed }
    phase .first
    let c0 ← inU 2
    if 256 ≤ c0 then raise .corruptStream
    else do
      let first := [BitVec.ofNat 8 c0]
      outString P first
      phase .replay
      lzwReplay P (cc - 1) first

/-- `LZW.DEC` with parameters `P` (R280). -/
def lzwDecWith (P : Params) (s : State) : Host.Outcome State Fault Refusal :=
  runOp (State.finishCoded false) (lzwDec P) s

/-- The meaning of `LZW.DEC` (R280). -/
def execLzwDec (s : State) : Host.Outcome State Fault Refusal := lzwDecWith params s

end Sys2Proof.Machine
end

