-- ==== Sys2Proof/Machine/SfDec.lean ====
section
/-! DEFINITION. `SF.DEC` (spec/44_shannon_fano_decoder.md R220 to R233): reverse map, scan. -/

namespace Sys2Proof.Machine

/-- `M[key] <- sym`: a later entry with the same key replaces the earlier one (R224). -/
def mapPut (key : List Byte) (sym : Byte) : List (List Byte × Byte) → List (List Byte × Byte)
  | [] => [(key, sym)]
  | (k, v) :: m => if k = key then (key, sym) :: m else (k, v) :: mapPut key sym m

/-- One table entry: `symbol`, length prefix (validated at once), string bytes (R223, R230). -/
def sfReadEntry (P : Params) : Eng Unit := do
  let sym ← inByte
  let len ← inU 2
  if P.sfdecCodeMax < len then raise .invalidContainer
  else do
    let str ← inBytesN len
    changeWork fun w => { w with sfMap := mapPut str sym w.sfMap }

/-- The table entries that are left (R223). -/
def sfReadTable (P : Params) : Nat → Eng Unit
  | 0 => pure ()
  | n + 1 => do
    sfReadEntry P
    sfReadTable P n

/-- One bit of the scan (R226): append its character, look the accumulator up, emit on a match. -/
def sfScanBit (P : Params) : Eng Unit := do
  let d ← getBit
  changeWork fun w => { w with sfAcc := w.sfAcc ++ [0x30 + BitVec.ofNat 8 d.toNat] }
  let w ← getWork
  match w.sfMap.lookup w.sfAcc with
  | some s => do
    outByte P s
    changeWork fun w => { w with sfAcc := [] }
  | none => pure ()

/-- The scan of the bits that are left (R226). -/
def sfScan (P : Params) : Nat → Eng Unit
  | 0 => pure ()
  | n + 1 => do
    sfScanBit P
    sfScan P n

/-- `SF.DEC` after a positive `tableSize` (R222 to R227). -/
def sfDecTable (P : Params) (ts : Nat) : Eng Unit :=
  if P.sfdecTableMax < ts then raise .invalidContainer
  else do
    phase .table
    changeWork fun w => { w with sfMap := [] }
    sfReadTable P ts
    phase .bitcount
    let tb ← inU 4
    phase .scan
    startPayload
    changeWork fun w => { w with sfAcc := [] }
    sfScan P (s32 tb).toNat

/-- `SF.DEC` up to its last phase (R220 to R227). A `tableSize` that is not positive ends the operation at once, with success and
empty output (R221). -/
def sfDec (P : Params) : Eng Unit := do
  beginOp
  phase .header
  checkRange P
  let ts ← inU 4
  if s32 ts ≤ 0 then pure () else sfDecTable P ts

/-- `SF.DEC` with parameters `P` (R220). -/
def sfDecWith (P : Params) (s : State) : Host.Outcome State Fault Refusal :=
  runOp (State.finishCoded false) (sfDec P) s

/-- The meaning of `SF.DEC` (R220). -/
def execSfDec (s : State) : Host.Outcome State Fault Refusal := sfDecWith params s

end Sys2Proof.Machine
end

