-- ==== Sys2Proof/Machine/SfEnc.lean ====
section
/-! DEFINITION. `SF.ENC` (spec/43_shannon_fano_encoder.md R190 to R207): sort, bisection, table, bit count, payload. -/

namespace Sys2Proof.Machine

/-- The order of the work list: descending frequency, ties by ascending symbol (R193). -/
def sfBefore (a b : Byte × Nat) : Bool := b.2 < a.2 || (a.2 == b.2 && a.1.toNat < b.1.toNat)

/-- Insert into the sorted work list (R193). -/
def sfInsert (a : Byte × Nat) : List (Byte × Nat) → List (Byte × Nat)
  | [] => [a]
  | b :: l => if sfBefore a b then a :: b :: l else b :: sfInsert a l

/-- The work list `L`: the symbols with a count above 0, sorted (R193). -/
def sfSorted (f : FreqTable) : List (Byte × Nat) :=
  (present f).foldr (fun s l => sfInsert (s, (countOf f s).toNat) l) []

/-- The threshold of a sub-list with this total (R196). -/
def sfHalf (P : Params) (tot : Nat) : Nat :=
  match P.sfHalf with
  | .ceil => (tot + 1) / 2
  | .floor => tot / 2

/-- How many elements go left: up to and including the first at which the running sum reaches `half` (R194, R197). -/
def sfSplit (half : Nat) : Nat → List Nat → Nat
  | _, [] => 0
  | acc, f :: r => if half ≤ acc + f then 1 else 1 + sfSplit half (acc + f) r

/-- One call of `Assign` (R194), on the top of the work stack: a sub-list of one symbol gets its code (R195), a longer one is
split and its two parts take its place, the left one on top. -/
def sfAssignTop (P : Params) (w : Work) : Work :=
  match w.sfStack with
  | [] => w
  | (lo, hi, path) :: rest =>
    let sub := (w.sfList.drop lo).take (hi - lo)
    match sub with
    | [] => { w with sfStack := rest }
    | [a] => { w with sfStack := rest, codes := setCode w.codes a.1 (forceCode path) }
    | _ =>
      let half := sfHalf P (sub.map Prod.snd).sum
      let mid := lo + sfSplit half 0 (sub.map Prod.snd)
      { w with sfStack := (lo, mid, path ++ [false]) :: (mid, hi, path ++ [true]) :: rest }

/-- The bisection, run with the explicit work stack (R35, R199 e). A list of `n` symbols takes `n` calls that assign and
`n - 1` that split, so a fuel of `2n` empties the stack (R198). -/
def sfAssign (P : Params) : Nat → Work → Work
  | 0, w => w
  | fuel + 1, w => if w.sfStack = [] then w else sfAssign P fuel (sfAssignTop P w)

/-- Phase `CHECK` (R191): an empty input is no error. -/
def sfCheck (P : Params) : Eng Unit := do
  phase .check
  checkRange P

/-- Phase `SORT` (R193). -/
def sfSortPhase : Eng Unit := do
  phase .sort
  change fun s => { s with work := { s.work with sfList := sfSorted s.freq } }

/-- Phase `BISECT` (R194): `Assign(0, n, "")` when `n ≥ 1`. -/
def sfBisectPhase (P : Params) : Eng Unit := do
  phase .bisect
  changeWork fun w => { w with codes := Vector.replicate nsym [], sfStack := if w.sfList = [] then [] else [(0, w.sfList.length, [])] }
  changeWork fun w => sfAssign P (2 * w.sfList.length) w

/-- The character of a code bit: `0x30` or `0x31` (R96). -/
def bitChar (b : Bool) : Byte := if b then 0x31 else 0x30

/-- The entries of the table for the symbols given (R96, R200). -/
def sfEntries (P : Params) (codes : CodeTable) : List Byte → Eng Unit
  | [] => pure ()
  | s :: r => do
    outByte P s
    outU P 2 (codeOf codes s).length
    outString P ((codeOf codes s).map bitChar)
    sfEntries P codes r

/-- Phase `TABLE` (R200, R201). -/
def sfTable (P : Params) : Eng Unit := do
  phase .table
  let s ← get
  outU P 4 (present s.freq).length
  sfEntries P s.work.codes (present s.freq)

/-- `Σ FREQ[s]·|code(s)|` over the symbols present, computed exactly (R143, R202). -/
def bitTotal (f : FreqTable) (codes : CodeTable) : Nat :=
  ((present f).map fun s => (countOf f s).toNat * (codeOf codes s).length).sum

/-- Phase `BITCOUNT` (R202): a count of `2^31` or more raises `Range`. -/
def sfBitCount (P : Params) : Eng Unit := do
  phase .bitcount
  let s ← get
  if 2 ^ 31 ≤ bitTotal s.freq s.work.codes then raise .range
  else outU P 4 (bitTotal s.freq s.work.codes)

/-- `SF.ENC` up to its last phase (R190). -/
def sfEnc (P : Params) : Eng Unit := do
  beginOp
  sfCheck P
  phase .count
  clearFreq
  countInput
  sfSortPhase
  sfBisectPhase P
  sfTable P
  sfBitCount P
  codedPayload P

/-- `SF.ENC` with parameters `P` (R190). -/
def sfEncWith (P : Params) (s : State) : Host.Outcome State Fault Refusal :=
  runOp (State.finishCoded true) (sfEnc P) s

/-- The meaning of `SF.ENC` (R190). -/
def execSfEnc (s : State) : Host.Outcome State Fault Refusal := sfEncWith params s

end Sys2Proof.Machine
end

