-- ==== Sys2Proof/Machine/HostPort.lean ====
section
/-! DEFINITION. The host's transactions (spec/20_memory.md R66) and the host's program lines (spec/30_encoding.md R83). -/

namespace Sys2Proof.Machine

/-- The host has read a value. -/
def State.hostGets (v : BitVec 64) (s : State) : State := { s with hostData := v }

/-- A host read of a value that `BUSY` makes unspecified: outside `BUSY` the value, while `BUSY` the low `n` bits of the next
draw (R350, U6; notes/assumptions/9). -/
def State.hostReads (n : Nat) (v : BitVec 64) (s : State) : State :=
  if s.isBusy then { s with draws := s.draws + 1 }.hostGets (((Config.freeData s.draws).setWidth n).setWidth 64)
  else s.hostGets v

/-- A host write of `CMD` (R301): ignored while `BUSY` (R41); a legal word starts its operation, any other ends at once with
`BadCmd` (R82). -/
def State.writeCmd (w : Word) (s : State) : State :=
  if s.isBusy then s
  else
    match decode w with
    | .ok _ => s.start (cmdOp w)
    | .error _ => s.badCommand

/-- A host write of `IN_LEN`: any value; ignored while `BUSY` (R44). -/
def State.writeInLen (v : Len) (s : State) : State := if s.isBusy then s else { s with inLen := v }

/-- A host write of `IN[a]` (R24). While `BUSY` it is forbidden, and makes the result of the operation unspecified (R350);
what the cell then holds is not stated and is a free value (notes/assumptions/8). -/
def State.writeIn (a : Nat) (b : Byte) (s : State) : State :=
  if s.isBusy then
    { s with inMem := s.inMem.write a (Config.freeByte s.draws a), draws := s.draws + 1, disturbed := true }
  else { s with inMem := s.inMem.write a b }

/-- One transaction of the host (R66). Reads change nothing but what the host has read (R64). -/
def hostMove (P : Params) (t : HostTxn) (s : State) : Host.Outcome State Fault Refusal :=
  match t with
  | .writeIn a b => if a < P.inCap then .next (s.writeIn a b) else .fault (.noSuchInCell a)
  | .writeInLen v => .next (s.writeInLen v)
  | .writeCmd w => .next (s.writeCmd w)
  | .readStatus => .next (s.hostGets (s.status.setWidth 64))
  | .readErr => .next (s.hostReads 32 (s.err.setWidth 64))
  | .readOutLen => .next (s.hostReads 64 s.outLen)
  | .readOut a => if a < P.outCap then .next (s.hostReads 8 ((s.outMem.read a).setWidth 64)) else .fault (.noSuchOutCell a)
  | .readFreq c => .next (s.hostReads 64 ((countOf s.freq c).setWidth 64))
  | .readIn a => if a < P.inCap then .next (s.hostReads 8 ((s.inMem.read a).setWidth 64)) else .fault (.noSuchInCell a)
  | .readInLen => .next (s.hostGets s.inLen)
  | .readCmd => .next (s.hostGets 0)

/-- `IN <- <bytes>`: a `HostWriteIn` for each byte, from address `a` on (R83). -/
def writeInFrom : Nat → List Byte → List Move
  | _, [] => []
  | a, b :: r => .host (.writeIn a b) :: writeInFrom (a + 1) r

/-- The program line `IN <- <bytes>` (R83). -/
def loadIn (x : List Byte) : List Move := writeInFrom 0 x ++ [.host (.writeInLen (BitVec.ofNat 64 x.length))]

/-- The program line `<MNEMONIC>` (R83). -/
def command (i : Instr) : Move := .host (.writeCmd (encode i))

/-- The program line `WAIT` (R83): the engine is given its turn, and the host reads `STATUS`. -/
def wait : List Move := [.engine, .host .readStatus]

/-- The program line `IN <- OUT` (R83, R352): the moves that copy the output of this state to `IN`. -/
def copyOutToIn (s : State) : List Move := loadIn s.outBytes

end Sys2Proof.Machine
end

