-- ==== Sys2Proof/Machine/Engine.lean ====
section
/-! DEFINITION. The engine's turn, and placing a command for it. -/

namespace Sys2Proof.Machine

/-- The engine's turn: while `BUSY` it runs the latched operation to its end (R300, R301; big-step, R12), whose result is
a draw if the host disturbed its input (R350). A reserved value in the latch, which no `CMD` write puts there, is an
illegal command (R82; notes/assumptions/15). Otherwise the engine waits for a `CMD` write (R340). -/
def engineMove (s : State) : Host.Outcome State Fault Refusal :=
  if s.isBusy then
    if s.disturbed then .next (s.drawnResult params)
    else
      match decodeOp s.op with
      | some i => exec i s
      | none => .next s.badCommand
  else .next s

/-- One move (notes/assumptions/2). -/
def moveStep (m : Move) (s : State) : Host.Outcome State Fault Refusal :=
  match m with
  | .host t => hostMove params t s
  | .reset => .next s.resetMove
  | .engine => engineMove s

/-- A command given to the engine as a `CMD` write gives it while not `BUSY` (R301, R82): `none` is an illegal word. -/
def State.giveCommand (c : Option Instr) (s : State) : State :=
  match c with
  | some i => s.start i.opCode
  | none => s.badCommand

end Sys2Proof.Machine
end

