-- ==== Sys2Proof/Machine/Step.lean ====
section
/-! DEFINITION. The step: the next move of the agenda, or, when there is none, the engine's turn. -/

namespace Sys2Proof.Machine

/-- One step. -/
def step (s : State) : Host.Outcome State Fault Refusal :=
  match s.agenda with
  | [] => engineMove s
  | m :: rest => moveStep m { s with agenda := rest }

/-- The state in which the very next step runs the instruction of a table word: the command is latched as a write of `CMD`
latches it (R301), and no other move comes first (notes/assumptions/3). -/
def State.withFetchWord (s : State) (nbits w : Nat) : State :=
  { s.giveCommand (decodeTableWord nbits w) with agenda := [] }

end Sys2Proof.Machine
end

