-- ==== Sys2Proof/Machine/Entropy.lean ====
section
/-! DEFINITION. The entropy utility (spec/40_frequency.md R124): a real-valued function of `FREQ`, not an operation of the
engine. No step uses it (notes/assumptions/17). -/

namespace Sys2Proof.Machine

/-- The summand of a counter with value `c` in a table of total `t`: `-p·log2(p)` with `p = c/t`, 0 for a counter of 0 (R124). -/
noncomputable def entropyTerm (t c : Nat) : ℝ :=
  if c = 0 then 0 else -((c : ℝ) / t * Real.logb 2 ((c : ℝ) / t))

/-- `entropy(FrequencyTable)` as a real number: 0 for an all-zero table, else the sum over the counters above 0 (R124). -/
noncomputable def entropy (f : FreqTable) : ℝ :=
  if total f = 0 then 0 else (f.toList.map fun c => entropyTerm (total f) c.toNat).sum

end Sys2Proof.Machine
end

