-- ==== Sys2Proof/Safety.lean ====
section
/-! DEFINITION. What counts as a good run, in the terms the claims use: how an operation ends, the invariant of the
architectural state, the bounds of the working state (R31 to R37), and the spec's functions on byte strings (the
containers of R92 to R99, the code trees, the replay of tokens and codes), written without the machine. -/

namespace Sys2Proof.Machine

/-! ## How an operation ends -/

/-- The operation succeeded and its output is `x` (R25, R302). -/
def DoneWith (t : State) (x : List Byte) : Prop :=
  t.status = statusWord .done ∧ t.err = errNone ∧ t.outLen.toNat = x.length ∧ t.outBytes = x

/-- The operation failed with error `e` (R304). -/
def FailedWith (t : State) (e : ErrKind) : Prop :=
  t.status = statusWord .error ∧ t.err = errWord e ∧ t.outLen = 0

/-- The error kinds that an operation can raise (R307). -/
def mayRaise : Instr → List ErrKind
  | .freqCount => [.range]
  | .huffEnc => [.emptyInput, .ioWrite, .range]
  | .huffDec => [.invalidContainer, .corruptStream, .ioRead, .ioWrite, .range]
  | .sfEnc => [.ioWrite, .range]
  | .sfDec => [.invalidContainer, .ioRead, .ioWrite, .range]
  | .lz77Enc => [.ioWrite, .range]
  | .lz77Dec => [.invalidContainer, .corruptStream, .ioRead, .ioWrite, .range]
  | .lzwEnc => [.ioWrite, .range]
  | .lzwDec => [.invalidContainer, .corruptStream, .ioRead, .ioWrite, .range]

/-- The operations that leave the histogram of their input in `FREQ` (R29). -/
def countsInput : Instr → Bool
  | .freqCount => true
  | .huffEnc => true
  | .huffDec => false
  | .sfEnc => true
  | .sfDec => false
  | .lz77Enc => false
  | .lz77Dec => false
  | .lzwEnc => false
  | .lzwDec => false

/-- Host transactions that read (R64). -/
def isRead : HostTxn → Bool
  | .writeIn _ _ => false
  | .writeInLen _ => false
  | .writeCmd _ => false
  | .readStatus => true
  | .readErr => true
  | .readOutLen => true
  | .readOut _ => true
  | .readFreq _ => true
  | .readIn _ => true
  | .readInLen => true
  | .readCmd => true

/-- It is the engine's turn: the next move is the engine's, or there is none. -/
def State.engineTurn (s : State) : Bool :=
  match s.agenda with
  | [] => true
  | m :: _ => m = .engine

/-- The state without the move that is being made. -/
def State.popped (s : State) : State := { s with agenda := s.agenda.tail }

/-- Make the moves of a list one after the other. -/
def runMoves : List Move → State → Host.Outcome State Fault Refusal
  | [], s => .next s
  | m :: r, s =>
    match moveStep m s with
    | .next t => runMoves r t
    | .fault e => .fault e
    | .refused e => .refused e

/-! ## Invariants -/

/-- An address of a memory is listed: its content is known. -/
def Mem.listed (m : Mem) (a : Nat) : Prop := ∃ b, (a, b) ∈ m.cells

/-- The invariant of the architectural state: `STATUS` and `ERR` hold one of their values, reserved bits 0 (R42, R43), and agree
(R43); `OUT_LEN` is within `OUT_CAP`, and 0 where R45 says so; `BUSY` has a legal operation latched (R301); after `DONE`
every byte of the output is known (R25); both memories are in canonical form and within their capacities (R24, R25); no
draw is used twice. The clauses that R350 suspends hold where the host kept R350. -/
structure State.Inv (s : State) : Prop where
  status_legal : ∃ e : EngState, s.status = statusWord e
  err_legal : s.err = errNone ∨ ∃ e : ErrKind, s.err = errWord e
  err_iff : s.status = statusWord .error ↔ s.err ≠ errNone
  busy_legal : s.status = statusWord .busy → legalOp s.op = true ∧ s.outLen = 0
  idle_clear : s.status = statusWord .idle → s.op = 0 ∧ s.outLen = 0
  error_len : s.status = statusWord .error → s.disturbed = false → s.outLen = 0
  len_cap : s.outLen.toNat ≤ params.outCap
  done_known : s.status = statusWord .done → s.disturbed = false → ∀ a < s.outLen.toNat, s.outMem.listed a
  in_wf : s.inMem.wf = true
  out_wf : s.outMem.wf = true
  in_cap : s.inMem.below params.inCap = true
  out_cap : s.outMem.below params.outCap = true
  in_fresh : s.inMem.epoch < s.draws
  out_fresh : s.outMem.epoch < s.draws

/-- The bounds of the working state that an implementation must provide (R22, R31 to R37), for parameters `P`. -/
structure Work.Bounded (P : Params) (w : Work) : Prop where
  rp_cap : w.rp ≤ P.inCap
  wp_cap : w.wp ≤ P.outCap
  bitcnt_le : w.bitcnt ≤ 8
  nodes_le : w.nodes.length ≤ 511
  queue_le : w.queue.length ≤ 256
  code_le : ∀ s : Byte, (codeOf w.codes s).length ≤ 255
  tree_le : w.tree.length ≤ 1 + P.hdecTableMax * 255
  sfList_le : w.sfList.length ≤ 256
  sfStack_le : w.sfStack.length ≤ 256
  sfMap_le : w.sfMap.length ≤ P.sfdecTableMax
  sfKey_le : ∀ e ∈ w.sfMap, e.1.length ≤ P.sfdecCodeMax
  dict_le : w.dict.length ≤ 4096
  dict_string : ∀ e ∈ w.dict, 1 ≤ e.length ∧ e.length ≤ 3841

/-! ## The spec's functions on byte strings -/

/-- The histogram of a byte string (R29). -/
def histogram (x : List Byte) : FreqTable := countBytes x zeroFreq

/-- No bit sequence of the list is a prefix of another one (R138 b). -/
def PrefixFree (cs : List Bits) : Prop := cs.Pairwise fun a b => ¬ a <+: b ∧ ¬ b <+: a

/-- The codes of the symbols present, in ascending symbol order. -/
def codesPresent (f : FreqTable) (t : CodeTable) : List Bits := (present f).map (codeOf t)

/-- The bits of a payload: the codes of the bytes, one after the other (R94, R97). -/
def payloadBits (t : CodeTable) (x : List Byte) : Bits := x.flatMap (codeOf t)

/-- The bytes of a Huffman table (R93, R140). -/
def huffTableBytes (f : FreqTable) (t : CodeTable) : List Byte :=
  (present f).flatMap fun s => s :: BitVec.ofNat 8 (codeOf t s).length :: pack (codeOf t s)

/-- The Huffman container of a byte string (R92 to R94). -/
def huffContainer (x : List Byte) : List Byte :=
  let f := histogram x
  let t := huffCodes f
  bigEndian 8 x.length ++ bigEndian 4 (present f).length ++ huffTableBytes f t ++ pack (payloadBits t x)

/-- A code tree: a leaf with a symbol, or an internal node with two children (R13, R136). -/
inductive CodeTree where
  | leaf (s : Byte)
  | node (l r : CodeTree)
  deriving DecidableEq, Repr

/-- The leaves of a code tree with their paths below `path` (R136). -/
def CodeTree.paths : CodeTree → Bits → List (Byte × Bits)
  | .leaf s, path => [(s, path)]
  | .node l r, path => l.paths (path ++ [false]) ++ r.paths (path ++ [true])

/-- A tree of the forest that the merge works on: frequency, creation number, tree (R133). -/
abbrev WeightedTree := Nat × Nat × CodeTree

/-- The smaller key of two trees (R133). -/
def lighter (a b : WeightedTree) : Bool := keyLt (a.1, a.2.1) (b.1, b.2.1)

/-- Take the tree of smallest key out of a forest that holds `a` and the trees of the list (R134, `extractMin`). -/
def popLightest (a : WeightedTree) : List WeightedTree → WeightedTree × List WeightedTree
  | [] => (a, [])
  | b :: l =>
    if lighter a b then
      let r := popLightest a l
      (r.1, b :: r.2)
    else
      let r := popLightest b l
      (r.1, a :: r.2)

/-- The merge of a forest into one tree (R134, R135), `ord` being the next creation number. -/
def mergeForest : Nat → Nat → List WeightedTree → List WeightedTree
  | 0, _, l => l
  | fuel + 1, ord, l =>
    match l with
    | [] => []
    | a :: l1 =>
      let p := popLightest a l1
      match p.2 with
      | [] => [p.1]
      | b :: l2 =>
        let q := popLightest b l2
        mergeForest fuel (ord + 1) ((p.1.1 + q.1.1, ord, .node p.1.2.2 q.1.2.2) :: q.2)

/-- The leaves of the forest: the symbols present in ascending order, numbered from 0 (R133). -/
def leafForest (f : FreqTable) : List WeightedTree :=
  (present f).zipIdx.map fun e => ((countOf f e.1).toNat, e.2, .leaf e.1)

/-- The code table that the rules R133 to R137 define, by trees. -/
def treeCodes (f : FreqTable) : CodeTable :=
  match mergeForest (present f).length (present f).length (leafForest f) with
  | [t] => tableOfPaths (t.2.2.paths [])
  | _ => tableOfPaths []

/-- An entry of a Huffman table as it stands in a container: symbol, `codeBitLength`, `codeBits` (R93). -/
structure HuffEntry where
  sym : Byte
  len : Byte
  bits : List Byte
  deriving DecidableEq, Repr

/-- The code of an entry: the first `codeBitLength` bits, pad bits not examined (R163, R165). -/
def HuffEntry.code (e : HuffEntry) : Bits := unpack e.len.toNat e.bits

/-- An entry with a legal length and all its bytes (R93). -/
def HuffEntry.wf (e : HuffEntry) : Bool := e.len ≠ 0 && e.bits.length == ceil8 e.len.toNat

/-- The bytes of an entry (R93). -/
def HuffEntry.bytes (e : HuffEntry) : List Byte := e.sym :: e.len :: e.bits

/-- `Assign` of R194 as a recursion on the sub-list; the fuel bounds the depth, which is less than its length (R198). -/
def sfRecursion (P : Params) : Nat → List (Byte × Nat) → Bits → List (Byte × Bits)
  | 0, _, _ => []
  | _ + 1, [], _ => []
  | _ + 1, [a], path => [(a.1, path)]
  | fuel + 1, a :: b :: l, path =>
    let fs := (a :: b :: l).map Prod.snd
    let k := sfSplit (sfHalf P fs.sum) 0 fs
    sfRecursion P fuel ((a :: b :: l).take k) (path ++ [false]) ++ sfRecursion P fuel ((a :: b :: l).drop k) (path ++ [true])

/-- The code table of the phases `SORT` and `BISECT` of the machine, started from the initial working state (R199 d). -/
def sfCodes (P : Params) (f : FreqTable) : CodeTable :=
  let l := sfSorted f
  (sfAssign P (2 * l.length) { Work.init with sfList := l, sfStack := if l = [] then [] else [(0, l.length, [])] }).codes

/-- The bytes of a Shannon-Fano table (R96, R200). -/
def sfTableBytes (f : FreqTable) (t : CodeTable) : List Byte :=
  (present f).flatMap fun s => s :: (bigEndian 2 (codeOf t s).length ++ (codeOf t s).map bitChar)

/-- The Shannon-Fano container of a byte string (R95 to R97). -/
def sfContainer (P : Params) (x : List Byte) : List Byte :=
  let f := histogram x
  let t := sfCodes P f
  bigEndian 4 (present f).length ++ sfTableBytes f t ++ bigEndian 4 (bitTotal f t) ++ pack (payloadBits t x)

/-- An entry of a Shannon-Fano table: symbol and key (R223). -/
abbrev SfEntry := Byte × List Byte

/-- The bytes of an entry (R96). -/
def sfEntryBytes (e : SfEntry) : List Byte := e.1 :: (bigEndian 2 e.2.length ++ e.2)

/-- The symbol of a key: of the entries with that key the last one counts (R224). -/
def sfLookup (es : List SfEntry) (key : List Byte) : Option Byte := (es.reverse.find? fun e => e.2 = key).map Prod.fst

/-- The scan of R226 on a list of bits, `acc` being the accumulator; bits left over are dropped (R227). -/
def sfDecodeBits (es : List SfEntry) : List Byte → Bits → List Byte
  | _, [] => []
  | acc, b :: r =>
    match sfLookup es (acc ++ [bitChar b]) with
    | some s => s :: sfDecodeBits es [] r
    | none => sfDecodeBits es (acc ++ [bitChar b]) r

/-- The bytes of a token (R98). -/
def tokenBytes (t : Token) : List Byte := [t.offset, t.length, t.symbol]

/-- The LZ77 container of a byte string (R98). -/
def lz77Container (x : List Byte) : List Byte :=
  bigEndian 4 (lz77Tokens x).length ++ (lz77Tokens x).flatMap tokenBytes

/-- `n` bytes copied from `off` before the end of the output, one by one (R254). -/
def copyBytes (off : Nat) : Nat → List Byte → List Byte
  | 0, out => out
  | n + 1, out => copyBytes off n (out ++ [out.getD (out.length - off) 0])

/-- A token that the decoder accepts after `n` bytes of output (R253). -/
def tokenLegal (n : Nat) (t : Token) : Bool := t.offset.toNat ≤ n && (t.offset ≠ 0 || t.length = 0)

/-- The replay of tokens after the output `out`, `none` where a token is not legal (R253 to R255). -/
def replayBytes : List Byte → List Token → Option (List Byte)
  | out, [] => some out
  | out, t :: r =>
    if tokenLegal out.length t then replayBytes (copyBytes t.offset.toNat t.length.toNat out ++ [t.symbol]) r else none

/-- The LZW container of a byte string (R99). -/
def lzwContainer (x : List Byte) : List Byte :=
  bigEndian 4 (lzwCodes x).length ++ (lzwCodes x).flatMap (bigEndian 2)

/-- The strings of the codes after the first, with dictionary `d` and the string before `prev`, `none` for an invalid code
(R283 to R286). -/
def lzwStrings : List (List Byte) → List Byte → List Nat → Option (List Byte)
  | _, _, [] => some []
  | d, prev, c :: r =>
    match lzwString d prev c with
    | none => none
    | some cur => (lzwStrings (lzwAdd d (prev ++ cur.take 1)) cur r).map (cur ++ ·)

/-- The byte string of a code sequence (R282, R283). -/
def lzwDecoded : List Nat → Option (List Byte)
  | [] => none
  | c :: r => if c < 256 then (lzwStrings lzwSeed [BitVec.ofNat 8 c] r).map (BitVec.ofNat 8 c :: ·) else none

end Sys2Proof.Machine
end

