-- ==== Sys2Proof/Certificates/Slice0/Obligations.lean ====
section
/-! DEFINITION. The statements for the provers. Each docstring names the rule of spec/ it formalises. -/

open Sys2Proof Sys2Proof.Machine

/-! ## The command word -/

/-- R81: a word decodes to an operation exactly when it is that operation's row of the table. -/
def Obligations.CommandWordsDecode : Prop :=
  ∀ (w : Word) (i : Instr), decode w = .ok i ↔
    (w, i) ∈ [((0x00000001 : Word), Instr.freqCount), (0x00000002, .huffEnc), (0x00000003, .huffDec),
      (0x00000004, .sfEnc), (0x00000005, .sfDec), (0x00000006, .lz77Enc), (0x00000007, .lz77Dec),
      (0x00000008, .lzwEnc), (0x00000009, .lzwDec)]

/-- Decode and encode agree, for every well-formed instruction, also through the table's numbering of bits (R80, R81). -/
def Obligations.DecodeEncodeAgree : Prop :=
  ∀ i : Instr, i.wf = true → decode (encode i) = .ok i ∧ decodeTableWord 32 (encode i).toNat = some i ∧
    legalCommand (encode i) = true

/-! ## The host's transactions and the life cycle -/

/-- R82: an illegal command starts nothing and ends at once with `BadCmd`; nothing else of the machine changes. (Nothing is
said of the model's mark of a disturbed input, notes/assumptions/8.)
R82 names `OUT`, `FREQ` and `IN`; that the latched `OP` and the cursors are unchanged too is the model's choice (entry 14). -/
def Obligations.IllegalCommandIsBadCmd : Prop :=
  ∀ (s : State) (w : Word) (rest : List Move), s.agenda = .host (.writeCmd w) :: rest → s.isBusy = false →
    (w.extractLsb' 4 28 ≠ 0 ∨ w.extractLsb' 0 4 = 0 ∨ 0xA ≤ (w.extractLsb' 0 4).toNat) →
    ∃ d, step s = .next { s with status := 3, err := 6, outLen := 0, disturbed := d, agenda := rest }

/-- R301: a legal command latches `OP` and starts the operation with the `IN` and `IN_LEN` the host left; a `CMD` write while
`BUSY` is ignored. (Nothing is said of the model's mark of a disturbed input, notes/assumptions/8.) -/
def Obligations.CommandWriteStartsOrIsIgnored : Prop :=
  ∀ (s : State) (w : Word) (rest : List Move), s.agenda = .host (.writeCmd w) :: rest →
    (s.isBusy = true → step s = .next { s with agenda := rest }) ∧
    (s.isBusy = false → 1 ≤ w.toNat → w.toNat ≤ 9 →
      ∃ d, step s = .next { s with op := w.extractLsb' 0 4, status := 1, err := 0, outLen := 0, disturbed := d,
                                   work := { s.work with rp := 0, wp := 0 }, agenda := rest })

/-- R44: `IN_LEN` takes any value, reads back as written, is not written while `BUSY`, is 0 after reset, and a value above
`IN_CAP` makes every operation end with `Range`. -/
def Obligations.InLenRegister : Prop :=
  (∀ (s : State) (v : Len) (rest : List Move), s.agenda = .host (.writeInLen v) :: rest →
    (s.isBusy = true → step s = .next { s with agenda := rest }) ∧
    (s.isBusy = false → step s = .next { s with inLen := v, agenda := rest })) ∧
  (∀ (s : State) (rest : List Move), s.agenda = .host .readInLen :: rest →
    step s = .next { s with hostData := s.inLen, agenda := rest }) ∧
  (∀ (i : Instr) (s : State), params.inCap < s.inLen.toNat → ∃ t, exec i s = .next t ∧ FailedWith t .range) ∧
  State.reset.inLen = 0

/-- Host reads outside `BUSY` return the register or cell, `CMD` reads 0, `STATUS` is readable at all times
(R41 to R45, R64, R350).
The field that holds what was read is the model's (entry 12). -/
def Obligations.HostReadsReturnTheRegister : Prop :=
  ∀ (s : State) (rest : List Move),
    (s.agenda = .host .readStatus :: rest → step s = .next { s with hostData := s.status.setWidth 64, agenda := rest }) ∧
    (s.agenda = .host .readCmd :: rest → step s = .next { s with hostData := 0, agenda := rest }) ∧
    (s.isBusy = false →
      (s.agenda = .host .readErr :: rest → step s = .next { s with hostData := s.err.setWidth 64, agenda := rest }) ∧
      (s.agenda = .host .readOutLen :: rest → step s = .next { s with hostData := s.outLen, agenda := rest }) ∧
      (∀ c, s.agenda = .host (.readFreq c) :: rest →
        step s = .next { s with hostData := countOf s.freq c, agenda := rest }) ∧
      (∀ a, a < params.outCap → s.agenda = .host (.readOut a) :: rest →
        step s = .next { s with hostData := (s.outMem.read a).setWidth 64, agenda := rest }) ∧
      (∀ a, a < params.inCap → s.agenda = .host (.readIn a) :: rest →
        step s = .next { s with hostData := (s.inMem.read a).setWidth 64, agenda := rest }))

/-- R64, R350: no read disturbs anything: whatever the state, a read changes only what the host has read (and the number of
draws made).
That a read makes draws while `BUSY` is the model's form of "any value" (entries 9, 20). -/
def Obligations.HostReadsDisturbNothing : Prop :=
  ∀ (s t : State) (r : HostTxn) (rest : List Move), s.agenda = .host r :: rest → isRead r = true → step s = .next t →
    t = { s with hostData := t.hostData, draws := t.draws, agenda := rest } ∧ s.draws ≤ t.draws

/-- R300: `STATUS.STATE` moves only as listed: a legal command takes it to `BUSY`, an illegal one to `ERROR`, the engine's turn takes
`BUSY` to `DONE` or `ERROR`, reset takes it to `IDLE`; and each of these moves is always made. -/
def Obligations.StatusMovesOnlyAsListed : Prop :=
  (∀ s t : State, step s = .next t →
    t.stateField = s.stateField ∨
    (s.isBusy = false ∧ t.stateField = 1 ∧ ∃ w, s.agenda.head? = some (.host (.writeCmd w)) ∧ legalCommand w = true) ∨
    (s.isBusy = false ∧ t.stateField = 3 ∧ ∃ w, s.agenda.head? = some (.host (.writeCmd w)) ∧ legalCommand w = false) ∨
    (s.isBusy = true ∧ s.engineTurn = true ∧ (t.stateField = 2 ∨ t.stateField = 3)) ∨
    (t.stateField = 0 ∧ s.agenda.head? = some .reset)) ∧
  (∀ s : State, s.isBusy = true → s.engineTurn = true →
    ∃ t, step s = .next t ∧ (t.stateField = 2 ∨ t.stateField = 3)) ∧
  (∀ (s : State) (w : Word) (rest : List Move), s.agenda = .host (.writeCmd w) :: rest → s.isBusy = false →
    ∃ t, step s = .next t ∧ t.stateField = if legalCommand w then 1 else 3) ∧
  (∀ (s : State) (rest : List Move), s.agenda = .reset :: rest → ∃ t, step s = .next t ∧ t.stateField = 0)

/-- A step runs the latched operation: while `BUSY`, with input the host has left alone, the engine's turn is `exec` of the
operation that the latch names (R12, R22, R300).
Whose turn it is and the flag that the host wrote `IN` are the model's (entries 2, 8). -/
def Obligations.StepRunsLatchedOperation : Prop :=
  ∀ (s : State) (i : Instr), s.isBusy = true → s.disturbed = false → decodeOp s.op = some i → s.engineTurn = true →
    step s = exec i s.popped

/-- The step after `withFetchWord` runs exactly the instruction of the word (R81, R301).
`withFetchWord` is the model's way to hand a command over (entry 3). -/
def Obligations.FetchWordStepRunsIt : Prop :=
  ∀ (s : State) (i : Instr) (nbits w : Nat), decodeTableWord nbits w = some i →
    step (s.withFetchWord nbits w) = exec i (s.withFetchWord nbits w) ∧
    (s.withFetchWord nbits w).inMem = s.inMem ∧ (s.withFetchWord nbits w).inLen = s.inLen

/-- R48: what reset leaves in the registers, after power-on and in any state. (What it leaves in `IN`, `OUT` and
`FREQ` is unspecified, and nothing is said of it.) -/
def Obligations.ResetLeavesRegistersZero : Prop :=
  (State.reset.status = 0 ∧ State.reset.err = 0 ∧ State.reset.op = 0 ∧ State.reset.inLen = 0 ∧ State.reset.outLen = 0) ∧
  ∀ (s : State) (rest : List Move), s.agenda = .reset :: rest →
    ∃ t, step s = .next t ∧ t.status = 0 ∧ t.err = 0 ∧ t.op = 0 ∧ t.inLen = 0 ∧ t.outLen = 0 ∧
      t.agenda = rest

/-- R350: a host write of `IN` while `BUSY`, and then the engine's turn: the operation still ends, in `DONE` with no error or in
`ERROR` with one, and `OUT_LEN` is at most `OUT_CAP`.
That the operation ends, and within these bounds, is the model's reading of R350 (entry 8). -/
def Obligations.DisturbedOperationStillEnds : Prop :=
  ∀ (s : State) (a : Nat) (b : Byte), s.isBusy = true → a < params.inCap →
    s.agenda = [.host (.writeIn a b), .engine] →
    ∃ t u, step s = .next t ∧ t.isBusy = true ∧ step t = .next u ∧
      ((u.status = 2 ∧ u.err = 0) ∨ (u.status = 3 ∧ ∃ e : ErrKind, u.err = errWord e)) ∧
      u.outLen.toNat ≤ params.outCap

/-- R83, R352: the program line `IN <- OUT` makes the output of the last operation the input of the next, and leaves every
cell of `IN` at and above `OUT_LEN`; R24: a host write of `IN[a]` outside `BUSY` writes that cell and nothing else. -/
def Obligations.HostCopyMakesOutputTheInput : Prop :=
  (∀ s : State, s.isBusy = false → s.outLen.toNat ≤ params.inCap →
    ∃ t, runMoves (copyOutToIn s) s = .next t ∧ t.inBytes = s.outBytes ∧ t.inLen = s.outLen ∧
      (∀ a, s.outLen.toNat ≤ a → t.inMem.read a = s.inMem.read a) ∧
      t = { s with inMem := t.inMem, inLen := s.outLen }) ∧
  (∀ (s : State) (a : Nat) (b : Byte) (rest : List Move), s.agenda = .host (.writeIn a b) :: rest → s.isBusy = false →
    a < params.inCap →
    ∃ t, step s = .next t ∧ t.inMem.read a = b ∧ (∀ c, c ≠ a → t.inMem.read c = s.inMem.read c) ∧
      t = { s with inMem := t.inMem, agenda := rest })

/-! ## All nine operations -/

/-- R353, R302, R304, R307: every operation ends on every input, in `DONE` with no error, or in `ERROR` with `OUT_LEN` 0 and an
error of its row. -/
def Obligations.EveryOperationEnds : Prop :=
  ∀ (i : Instr) (s : State), ∃ t, exec i s = .next t ∧
    ((t.status = 2 ∧ t.err = 0) ∨ (t.status = 3 ∧ t.outLen = 0 ∧ ∃ e ∈ mayRaise i, t.err = errWord e))

/-- R302: at a successful end `OUT_LEN` is the write cursor, 0 for `FREQ.COUNT`, and `ERR` is 0.
The working state still holds the final write cursor after the end (entry 6). -/
def Obligations.SuccessfulEndRegisters : Prop :=
  ∀ (i : Instr) (s t : State), exec i s = .next t → t.status = 2 →
    t.err = 0 ∧ (i = .freqCount → t.outLen = 0) ∧ (i ≠ .freqCount → t.outLen.toNat = t.work.wp)

/-- The frame of all nine operations: `IN` (every byte), `IN_LEN`, the latch, what the host has read and what it will do stay as
they were, on success and on error (R24, R145 g, R304); no phase of `FREQ.COUNT` writes `OUT`, for any parameters, whether it
goes on or raises (R120). Nothing is said of `OUT` at and above `OUT_LEN` after the end, for `FREQ.COUNT` all of `OUT`, nor of
`FREQ` after the operations that do not count: R25, R29 and R304 leave them unspecified, and they are draws (entries 7, 20).
The moves to come and what the host has read are fields of the model (entries 2, 12). -/
def Obligations.OperationsKeepTheirInput : Prop :=
  (∀ (i : Instr) (s t : State), exec i s = .next t →
    (∀ a, t.inMem.read a = s.inMem.read a) ∧ t.inMem = s.inMem ∧ t.inLen = s.inLen ∧ t.op = s.op ∧
    t.hostData = s.hostData ∧ t.agenda = s.agenda ∧ t.disturbed = s.disturbed) ∧
  (∀ (P : Params) (s u : State), (freqCount P s = .ok () u ∨ ∃ e, freqCount P s = .error e u) →
    ∀ a, u.outMem.read a = s.outMem.read a)

/-- R29: after a counting operation that succeeds, `FREQ` is the histogram of the input; after `EmptyInput` all counters are 0. -/
def Obligations.FreqIsTheHistogram : Prop :=
  ∀ (i : Instr) (s t : State), countsInput i = true → exec i s = .next t →
    (t.status = 2 → ∀ c : Byte, (countOf t.freq c).toNat = s.inBytes.count c) ∧
    (t.err = errWord .emptyInput → ∀ c : Byte, countOf t.freq c = 0)

/-- R47, R305: the end of an operation is a function of `IN[0 .. IN_LEN-1]` and `IN_LEN` alone: two states that agree on these,
and differ in anything else (an earlier operation's working state, `OUT`, `FREQ`, `IN` above `IN_LEN`), end alike. -/
def Obligations.ResultDependsOnInputAlone : Prop :=
  ∀ (i : Instr) (s1 s2 : State), s1.inLen = s2.inLen → (∀ a < s1.inLen.toNat, s1.inMem.read a = s2.inMem.read a) →
    ∃ t1 t2, exec i s1 = .next t1 ∧ exec i s2 = .next t2 ∧ t1.status = t2.status ∧ t1.err = t2.err ∧
      t1.outLen = t2.outLen ∧ t1.outBytes = t2.outBytes ∧
      (countsInput i = true → t1.status = 2 ∨ t1.err = errWord .emptyInput → t1.freq = t2.freq)

/-- The invariant of the architectural state holds after reset, and the working state (whose values there are the model's choice,
notes/assumptions/5) is within its bounds. -/
def Obligations.InvariantsHoldAtReset : Prop := State.reset.Inv ∧ State.reset.work.Bounded params

/-- Every step keeps the invariant of the architectural state (R24, R25, R42, R43, R45, R301, R304, R340). -/
def Obligations.InvKeptByStep : Prop := ∀ s t : State, s.Inv → step s = .next t → t.Inv

/-- Every step keeps the working state within the bounds of R31 to R37, on every input. -/
def Obligations.WorkBoundsKeptByStep : Prop :=
  ∀ s t : State, s.work.Bounded params → step s = .next t → t.work.Bounded params

/-- An encoder whose container does not fit raises `IoWrite` (R144, R205, R240, R270), for all legal parameters. -/
def Obligations.OutputTooLongIsIoWrite : Prop :=
  ∀ (P : Params) (s : State), P.wf = true → s.inLen.toNat ≤ P.inCap →
    (s.inBytes ≠ [] → P.outCap < (huffContainer s.inBytes).length →
      ∃ t, huffEncWith P s = .next t ∧ FailedWith t .ioWrite) ∧
    (bitTotal (histogram s.inBytes) (sfCodes P (histogram s.inBytes)) < 2 ^ 31 →
      P.outCap < (sfContainer P s.inBytes).length → ∃ t, sfEncWith P s = .next t ∧ FailedWith t .ioWrite) ∧
    (P.outCap < (lz77Container s.inBytes).length → ∃ t, lz77EncWith P s = .next t ∧ FailedWith t .ioWrite) ∧
    (P.outCap < (lzwContainer s.inBytes).length → ∃ t, lzwEncWith P s = .next t ∧ FailedWith t .ioWrite)

/-! ## Fields and bits -/

/-- R86: reading `n` bytes that hold `BE(n, v)` gives `v`. -/
def Obligations.FieldReadsBack : Prop :=
  ∀ (m : Mem) (a n v : Nat), v < 2 ^ (8 * n) →
    (∀ i < n, some (m.read (a + i)) = (bigEndian n v)[i]?) → memRead m a n = v

/-- R90: after `PutBits` of codes and `FlushBits`, the bytes written are exactly `Pack` of the codes one after the other, and
nothing below them has changed. -/
def Obligations.PackerWritesPack : Prop :=
  ∀ (P : Params) (codes : CodeTable) (x : List Byte) (s : State), s.work.bitbuf = 0 → s.work.bitcnt = 0 →
    s.work.wp + (pack (payloadBits codes x)).length ≤ P.outCap →
    ∃ t, (do putCodes P codes x; flushBits P : Eng Unit) s = .ok () t ∧
      t.work.wp = s.work.wp + (pack (payloadBits codes x)).length ∧ t.work.bitcnt = 0 ∧
      (∀ i, i < (pack (payloadBits codes x)).length →
        some (t.outMem.read (s.work.wp + i)) = (pack (payloadBits codes x))[i]?) ∧
      (∀ a < s.work.wp, t.outMem.read a = s.outMem.read a)

/-- R88: `Pack` has `ceil8` bytes, its bits are the sequence's, and the bits after them are 0. -/
def Obligations.PackHoldsTheBits : Prop :=
  ∀ b : Bits, (pack b).length = ceil8 b.length ∧ unpack b.length (pack b) = b ∧
    ∀ k, b.length ≤ k → packedBit (pack b) k = false

/-! ## FREQ.COUNT and entropy -/

/-- R120, R121: `FREQ.COUNT` completes whenever `IN_LEN ≤ IN_CAP`; each counter is the count of its symbol, the sum is `IN_LEN`,
`OUT_LEN` is 0, and its phases, up to the state `u` before the last one, write no cell of `OUT`. (After the end all of `OUT` is
above `OUT_LEN`, so R25 leaves it unspecified: entry 7.) -/
def Obligations.FreqCountCompletes : Prop :=
  ∀ s : State, s.inLen.toNat ≤ params.inCap →
    ∃ t u, exec .freqCount s = .next t ∧ DoneWith t [] ∧
      (∀ c : Byte, (countOf t.freq c).toNat = s.inBytes.count c) ∧ total t.freq = s.inLen.toNat ∧
      freqCount params s = .ok () u ∧ t = u.finishCount ∧ ∀ a, u.outMem.read a = s.outMem.read a

/-- R124: the entropy is 0 for an all-zero table and lies between 0 and 8. -/
def Obligations.EntropyBounds : Prop :=
  ∀ f : FreqTable, (total f = 0 → entropy f = 0) ∧ 0 ≤ entropy f ∧ entropy f ≤ 8

/-! ## HUFF.ENC -/

/-- R139 to R142: `HUFF.ENC` completes on every input that is not empty and within the capacities, with the Huffman
container as its output and the histogram in `FREQ`. -/
def Obligations.HuffEncWritesContainer : Prop :=
  ∀ s : State, s.inLen.toNat ≤ params.inCap → s.inBytes ≠ [] → (huffContainer s.inBytes).length ≤ params.outCap →
    ∃ t, exec .huffEnc s = .next t ∧ DoneWith t (huffContainer s.inBytes) ∧ t.freq = histogram s.inBytes

/-- R131: `Range` above `IN_CAP`; `EmptyInput` for an empty input, with `FREQ` all 0. -/
def Obligations.HuffEncChecksItsInput : Prop :=
  ∀ s : State,
    (params.inCap < s.inLen.toNat → ∃ t, exec .huffEnc s = .next t ∧ FailedWith t .range) ∧
    (s.inLen = 0 → ∃ t, exec .huffEnc s = .next t ∧ FailedWith t .emptyInput ∧ t.freq = zeroFreq)

/-- R138 (a) to (c): every symbol present has a code of 1 to 255 bits, every other symbol none (R136); no code is a prefix of
another one; the sum of `2^(-|code|)` is 1 for two or more symbols, and 1/2 for one. -/
def Obligations.HuffCodesAreFullPrefixCode : Prop :=
  ∀ f : FreqTable,
    (∀ s : Byte, countOf f s = 0 → codeOf (huffCodes f) s = []) ∧
    (∀ s : Byte, countOf f s ≠ 0 → 1 ≤ (codeOf (huffCodes f) s).length ∧ (codeOf (huffCodes f) s).length ≤ 255) ∧
    PrefixFree (codesPresent f (huffCodes f)) ∧
    (2 ≤ (present f).length → ((codesPresent f (huffCodes f)).map fun c => (1 / 2 : ℚ) ^ c.length).sum = 1) ∧
    ((present f).length = 1 → ((codesPresent f (huffCodes f)).map fun c => (1 / 2 : ℚ) ^ c.length).sum = 1 / 2)

/-- R133 to R137: the code table that the arena and the queue give is the one of the merge of trees. -/
def Obligations.HuffArenaMatchesTrees : Prop := ∀ f : FreqTable, huffCodes f = treeCodes f

/-- R138 (e): a symbol that is more frequent has no longer code.
The spec marks it as a remark from general knowledge; here it is a claim about the pseudocode of R134 and R138. -/
def Obligations.HuffFrequentSymbolsAreNotLonger : Prop :=
  ∀ (f : FreqTable) (s t : Byte), countOf f t ≠ 0 → (countOf f t).toNat < (countOf f s).toNat →
    (codeOf (huffCodes f) s).length ≤ (codeOf (huffCodes f) t).length

/-- R137, R145 (b): `n` copies of one symbol: the code is `"0"`, and the payload is `ceil8(n)` bytes of 0. -/
def Obligations.HuffSingleSymbol : Prop :=
  ∀ (s : State) (c : Byte) (n : Nat), 1 ≤ n → n ≤ params.inCap → s.inBytes = List.replicate n c →
    codeOf (huffCodes (histogram s.inBytes)) c = [false] ∧
    ∃ t, exec .huffEnc s = .next t ∧
      DoneWith t (bigEndian 8 n ++ [0, 0, 0, 1, c, 1, 0] ++ List.replicate (ceil8 n) 0)

/-- R143: the output length of `HUFF.ENC`; the payload has at most `255·IN_LEN` bits. -/
def Obligations.HuffEncOutputLength : Prop :=
  ∀ s t : State, exec .huffEnc s = .next t → t.status = 2 →
    t.outLen.toNat = 12 + ((present t.freq).map fun c => 2 + ceil8 (codeOf (huffCodes t.freq) c).length).sum +
      ceil8 (bitTotal t.freq (huffCodes t.freq)) ∧
    bitTotal t.freq (huffCodes t.freq) ≤ 255 * s.inLen.toNat

/-! ## HUFF.DEC -/

/-- R161, R162: the header is read and checked. R172, R174: a container cut short is `IoRead`: in the header; in an entry, of
which a proper part is there; in the payload, which ends, when fewer symbols than declared are decoded, before or inside the
code of the next one (`q` is the part of it that is there). -/
def Obligations.HuffDecChecksTheHeader : Prop :=
  ∀ s : State,
    (params.inCap < s.inLen.toNat → ∃ t, exec .huffDec s = .next t ∧ FailedWith t .range) ∧
    (s.inLen.toNat < 12 → ∃ t, exec .huffDec s = .next t ∧ FailedWith t .ioRead) ∧
    (12 ≤ s.inLen.toNat → s.inLen.toNat ≤ params.inCap →
      (s32 (memRead s.inMem 8 4) ≤ 0 ∨ params.hdecTableMax < memRead s.inMem 8 4) →
      ∃ t, exec .huffDec s = .next t ∧ FailedWith t .invalidContainer) ∧
    (∀ (es : List HuffEntry) (e : HuffEntry) (len ts : Nat) (part : List Byte), s.inLen.toNat ≤ params.inCap →
      len < 2 ^ 64 → es.length < ts → ts ≤ 256 → (∀ d ∈ es, d.wf = true) → PrefixFree (es.map HuffEntry.code) →
      e.wf = true → part <+: e.bytes → part.length < e.bytes.length →
      s.inBytes = bigEndian 8 len ++ bigEndian 4 ts ++ es.flatMap HuffEntry.bytes ++ part →
      ∃ t, exec .huffDec s = .next t ∧ FailedWith t .ioRead) ∧
    (∀ (es msg : List HuffEntry) (e : HuffEntry) (payload : List Byte) (len : Nat) (q : Bits), s.inLen.toNat ≤ params.inCap →
      msg.length < len → len < 2 ^ 64 → msg.length ≤ params.outCap →
      es.length ≤ 256 → (∀ d ∈ es, d.wf = true) → PrefixFree (es.map HuffEntry.code) →
      (∀ d ∈ msg, d ∈ es) → e ∈ es → q <+: e.code → q ≠ e.code →
      unpack (8 * payload.length) payload = msg.flatMap HuffEntry.code ++ q →
      s.inBytes = bigEndian 8 len ++ bigEndian 4 es.length ++ es.flatMap HuffEntry.bytes ++ payload →
      ∃ t, exec .huffDec s = .next t ∧ FailedWith t .ioRead)

/-- R163, R165, R166, R168, R170, R101: `HUFF.DEC` completes on every container with a table of 1 to 256 entries whose codes are
prefix-free, in any order and with any pad bits, and a payload that begins with the codes of the message; what follows is not
read. The message is given by its codes, each that of some entry. -/
def Obligations.HuffDecDecodesAnyTable : Prop :=
  ∀ (s : State) (es msg : List HuffEntry) (payload : List Byte) (n : Nat),
    s.inLen.toNat ≤ params.inCap → msg.length ≤ params.outCap →
    1 ≤ es.length → es.length ≤ 256 → (∀ e ∈ es, e.wf = true) → PrefixFree (es.map HuffEntry.code) →
    (∀ e ∈ msg, e ∈ es) → n ≤ 8 * payload.length → unpack n payload = msg.flatMap HuffEntry.code →
    s.inBytes = bigEndian 8 msg.length ++ bigEndian 4 es.length ++ es.flatMap HuffEntry.bytes ++ payload →
    ∃ t, exec .huffDec s = .next t ∧ DoneWith t (msg.map HuffEntry.sym)

/-- R164, R167: the first table entry whose length is 0, or whose code equals, extends or begins an earlier one, ends the
operation with `InvalidContainer`. -/
def Obligations.HuffDecRejectsBadEntries : Prop :=
  ∀ (s : State) (es : List HuffEntry) (len ts : Nat) (rest : List Byte),
    s.inLen.toNat ≤ params.inCap → len < 2 ^ 64 → es.length < ts → ts ≤ 256 →
    (∀ e ∈ es, e.wf = true) → PrefixFree (es.map HuffEntry.code) →
    ((∃ sym : Byte,
        s.inBytes = bigEndian 8 len ++ bigEndian 4 ts ++ es.flatMap HuffEntry.bytes ++ [sym, 0] ++ rest) ∨
      (∃ e d : HuffEntry, e.wf = true ∧ d ∈ es ∧ (d.code <+: e.code ∨ e.code <+: d.code) ∧
        s.inBytes = bigEndian 8 len ++ bigEndian 4 ts ++ es.flatMap HuffEntry.bytes ++ e.bytes ++ rest)) →
    ∃ t, exec .huffDec s = .next t ∧ FailedWith t .invalidContainer

/-- R169: a payload bit that selects an absent child: after the codes of fewer symbols than the header declares, bits that
neither begin nor continue any code of the table. -/
def Obligations.HuffDecAbsentChildIsCorrupt : Prop :=
  ∀ (s : State) (es msg : List HuffEntry) (payload : List Byte) (n len : Nat) (q : Bits),
    s.inLen.toNat ≤ params.inCap → msg.length < len → len < 2 ^ 64 → msg.length ≤ params.outCap →
    1 ≤ es.length → es.length ≤ 256 → (∀ e ∈ es, e.wf = true) → PrefixFree (es.map HuffEntry.code) →
    (∀ e ∈ msg, e ∈ es) → (∀ e ∈ es, ¬ e.code <+: q ∧ ¬ q <+: e.code) →
    n ≤ 8 * payload.length → unpack n payload = msg.flatMap HuffEntry.code ++ q →
    s.inBytes = bigEndian 8 len ++ bigEndian 4 es.length ++ es.flatMap HuffEntry.bytes ++ payload →
    ∃ t, exec .huffDec s = .next t ∧ FailedWith t .corruptStream

/-- R175: the Huffman round trip, for all legal parameters: `HUFF.ENC` succeeds on every input that is not empty and within the
capacities, and `HUFF.DEC`, given what it wrote, gives the input back. -/
def Obligations.HuffRoundTrip : Prop :=
  ∀ (P : Params) (s : State), P.wf = true → s.inLen.toNat ≤ P.inCap → s.inLen.toNat ≤ P.outCap → s.inBytes ≠ [] →
    (huffContainer s.inBytes).length ≤ P.outCap → (huffContainer s.inBytes).length ≤ P.inCap →
    ∃ t, huffEncWith P s = .next t ∧ t.status = statusWord .done ∧
      ∀ r : State, r.inBytes = t.outBytes → ∃ u, huffDecWith P r = .next u ∧ DoneWith u s.inBytes

/-! ## SF.ENC and SF.DEC -/

/-- R191, R200 to R204: `SF.ENC` completes on every input within the capacities, the empty one included, with the Shannon-Fano
container as its output and the histogram in `FREQ`. -/
def Obligations.SfEncWritesContainer : Prop :=
  ∀ s : State, s.inLen.toNat ≤ params.inCap →
    bitTotal (histogram s.inBytes) (sfCodes params (histogram s.inBytes)) < 2 ^ 31 →
    (sfContainer params s.inBytes).length ≤ params.outCap →
    ∃ t, exec .sfEnc s = .next t ∧ DoneWith t (sfContainer params s.inBytes) ∧ t.freq = histogram s.inBytes

/-- R194, R199 (e): the explicit work stack gives the codes of the recursion, under either `SF_HALF`. -/
def Obligations.SfStackMatchesRecursion : Prop :=
  ∀ (P : Params) (f : FreqTable),
    sfCodes P f = tableOfPaths (sfRecursion P (sfSorted f).length (sfSorted f) [])

/-- R199 (a) to (c): under either `SF_HALF` the codes have 1 to 255 bits, none is a prefix of another, and for two or more
symbols the code is full. -/
def Obligations.SfCodesArePrefixFree : Prop :=
  ∀ (P : Params) (f : FreqTable),
    (∀ s : Byte, countOf f s ≠ 0 → 1 ≤ (codeOf (sfCodes P f) s).length ∧ (codeOf (sfCodes P f) s).length ≤ 255) ∧
    PrefixFree (codesPresent f (sfCodes P f)) ∧
    (2 ≤ (present f).length → ((codesPresent f (sfCodes P f)).map fun c => (1 / 2 : ℚ) ^ c.length).sum = 1)

/-- R197, R198: the split is the first index at which the running sum reaches the threshold, and both parts are non-empty,
under either `SF_HALF`. -/
def Obligations.SfSplitIsFirstReachAndProper : Prop :=
  ∀ (P : Params) (l : List Nat), 2 ≤ l.length → l.Pairwise (· ≥ ·) → (∀ f ∈ l, 1 ≤ f) →
    let half := sfHalf P l.sum
    let k := sfSplit half 0 l
    1 ≤ k ∧ k < l.length ∧ half ≤ (l.take k).sum ∧ ∀ j, 1 ≤ j → j < k → (l.take j).sum < half

/-- R202: `BITCOUNT` raises `Range` exactly from `2^31` bits on, else it writes the count. -/
def Obligations.SfBitCountLimit : Prop :=
  ∀ (P : Params) (s : State),
    (2 ^ 31 ≤ bitTotal s.freq s.work.codes → ∃ t, sfBitCount P s = .error .range t ∧ t.outMem = s.outMem) ∧
    (bitTotal s.freq s.work.codes < 2 ^ 31 → s.work.wp + 4 ≤ P.outCap →
      ∃ t, sfBitCount P s = .ok () t ∧ memRead t.outMem s.work.wp 4 = bitTotal s.freq s.work.codes ∧
        t.work.wp = s.work.wp + 4)

/-- R221, R222: a `tableSize` that is not positive is a no-op with empty output; one above the bound is rejected; a container
of less than 4 bytes is cut short; R223, R230: a length prefix above 255 is rejected before the string bytes are read.
R230: a container cut short further on is `IoRead` too: in an entry, of which a proper part is there; in `totalBitCount`; in
the payload, which has fewer bits than that. -/
def Obligations.SfDecChecksHeaderAndKeys : Prop :=
  ∀ s : State,
    (params.inCap < s.inLen.toNat → ∃ t, exec .sfDec s = .next t ∧ FailedWith t .range) ∧
    (s.inLen.toNat < 4 → ∃ t, exec .sfDec s = .next t ∧ FailedWith t .ioRead) ∧
    (4 ≤ s.inLen.toNat → s.inLen.toNat ≤ params.inCap → s32 (memRead s.inMem 0 4) ≤ 0 →
      ∃ t, exec .sfDec s = .next t ∧ DoneWith t []) ∧
    (4 ≤ s.inLen.toNat → s.inLen.toNat ≤ params.inCap → 0 < s32 (memRead s.inMem 0 4) →
      params.sfdecTableMax < memRead s.inMem 0 4 → ∃ t, exec .sfDec s = .next t ∧ FailedWith t .invalidContainer) ∧
    (∀ (es : List SfEntry) (ts len : Nat) (sym : Byte) (rest : List Byte), s.inLen.toNat ≤ params.inCap →
      es.length < ts → ts ≤ 256 →
      (∀ e ∈ es, e.2.length ≤ 255) → 255 < len → len < 2 ^ 16 →
      s.inBytes = bigEndian 4 ts ++ es.flatMap sfEntryBytes ++ [sym] ++ bigEndian 2 len ++ rest →
      ∃ t, exec .sfDec s = .next t ∧ FailedWith t .invalidContainer) ∧
    (∀ (es : List SfEntry) (e : SfEntry) (ts : Nat) (part : List Byte), s.inLen.toNat ≤ params.inCap →
      es.length < ts → ts ≤ 256 → (∀ d ∈ es, d.2.length ≤ 255) → e.2.length ≤ 255 →
      part <+: sfEntryBytes e → part.length < (sfEntryBytes e).length →
      s.inBytes = bigEndian 4 ts ++ es.flatMap sfEntryBytes ++ part →
      ∃ t, exec .sfDec s = .next t ∧ FailedWith t .ioRead) ∧
    (∀ (es : List SfEntry) (part : List Byte), s.inLen.toNat ≤ params.inCap →
      1 ≤ es.length → es.length ≤ 256 → (∀ e ∈ es, e.2.length ≤ 255) → part.length < 4 →
      s.inBytes = bigEndian 4 es.length ++ es.flatMap sfEntryBytes ++ part →
      ∃ t, exec .sfDec s = .next t ∧ FailedWith t .ioRead) ∧
    (∀ (es : List SfEntry) (tb : Nat) (payload : List Byte), s.inLen.toNat ≤ params.inCap →
      1 ≤ es.length → es.length ≤ 256 → (∀ e ∈ es, e.2.length ≤ 255) → tb < 2 ^ 31 → 8 * payload.length < tb →
      (sfDecodeBits es [] (unpack (8 * payload.length) payload)).length ≤ params.outCap →
      s.inBytes = bigEndian 4 es.length ++ es.flatMap sfEntryBytes ++ bigEndian 4 tb ++ payload →
      ∃ t, exec .sfDec s = .next t ∧ FailedWith t .ioRead)

/-- R223 to R227, R101: `SF.DEC` completes on every container with a table of 1 to 256 entries, of any keys up to 255 bytes, and a
payload of at least `totalBitCount` bits: the output is the scan's, duplicate keys and left-over bits included. R225: a
`totalBitCount` that is negative as a signed number gives empty output, whatever follows. -/
def Obligations.SfDecDecodesAnyTable : Prop :=
  ∀ (s : State) (es : List SfEntry) (payload : List Byte) (tb : Nat),
    s.inLen.toNat ≤ params.inCap → 1 ≤ es.length → es.length ≤ 256 → (∀ e ∈ es, e.2.length ≤ 255) →
    s.inBytes = bigEndian 4 es.length ++ es.flatMap sfEntryBytes ++ bigEndian 4 tb ++ payload →
    (tb < 2 ^ 31 → tb ≤ 8 * payload.length → (sfDecodeBits es [] (unpack tb payload)).length ≤ params.outCap →
      ∃ t, exec .sfDec s = .next t ∧ DoneWith t (sfDecodeBits es [] (unpack tb payload))) ∧
    (2 ^ 31 ≤ tb → tb < 2 ^ 32 → ∃ t, exec .sfDec s = .next t ∧ DoneWith t [])

/-- R232: the Shannon-Fano round trip, for all legal parameters, so under either `SF_HALF`; the empty input included. R232
asks only that the container fit; the premise on the bit count is R202's (from `2^31` on `SF.ENC` raises `Range`), and that the
input fit `OUT_CAP` is R230's (`SF.DEC` raises `IoWrite` otherwise). -/
def Obligations.SfRoundTrip : Prop :=
  ∀ (P : Params) (s : State), P.wf = true → s.inLen.toNat ≤ P.inCap → s.inLen.toNat ≤ P.outCap →
    bitTotal (histogram s.inBytes) (sfCodes P (histogram s.inBytes)) < 2 ^ 31 →
    (sfContainer P s.inBytes).length ≤ P.outCap → (sfContainer P s.inBytes).length ≤ P.inCap →
    ∃ t, sfEncWith P s = .next t ∧ t.status = statusWord .done ∧
      ∀ r : State, r.inBytes = t.outBytes → ∃ u, sfDecWith P r = .next u ∧ DoneWith u s.inBytes

/-! ## LZ77 -/

/-- R244: `Match(p)` finds the longest match of at most 15 bytes that leaves one byte of input, in the window of 255 bytes, and of
equally long ones the nearest; no match is (0, 0). -/
def Obligations.Lz77MatchIsLongestNearest : Prop :=
  ∀ (x : Array Byte) (p : Nat), p + 2 ≤ x.size →
    let m := findMatch x p
    let agrees := fun (o l : Nat) => ∀ k < l, x[p - o + k]? = x[p + k]?
    m.2 ≤ min 15 (x.size - p - 1) ∧ (m.2 = 0 → m.1 = 0) ∧
    (1 ≤ m.2 → 1 ≤ m.1 ∧ m.1 ≤ min p 255 ∧ agrees m.1 m.2) ∧
    ∀ o l, 1 ≤ o → o ≤ min p 255 → l ≤ min 15 (x.size - p - 1) → agrees o l →
      l ≤ m.2 ∧ (1 ≤ l → l = m.2 → m.1 ≤ o)

/-- R249: offsets and lengths are in range, the tokens replay to the input, and their number is between `⌈n/16⌉` and `n`. -/
def Obligations.Lz77TokensReplay : Prop :=
  ∀ x : List Byte,
    (∀ t ∈ lz77Tokens x, t.offset.toNat ≤ 255 ∧ t.length.toNat ≤ 15) ∧
    replayBytes [] (lz77Tokens x) = some x ∧
    (x.length + 15) / 16 ≤ (lz77Tokens x).length ∧ (lz77Tokens x).length ≤ x.length

/-- R247, R248: `LZ77.ENC` completes on every input within the capacities with the LZ77 container as its output. -/
def Obligations.Lz77EncWritesContainer : Prop :=
  ∀ s : State, s.inLen.toNat ≤ params.inCap → (lz77Container s.inBytes).length ≤ params.outCap →
    ∃ t, exec .lz77Enc s = .next t ∧ DoneWith t (lz77Container s.inBytes)

/-- R253 to R257: `LZ77.DEC` completes on every container whose tokens are legal, whatever their lengths, and the output is
their replay. -/
def Obligations.Lz77DecReplaysTokens : Prop :=
  ∀ (s : State) (ts : List Token) (rest y : List Byte), s.inLen.toNat ≤ params.inCap →
    1 ≤ ts.length → ts.length < 2 ^ 31 → replayBytes [] ts = some y → y.length ≤ params.outCap →
    s.inBytes = bigEndian 4 ts.length ++ ts.flatMap tokenBytes ++ rest →
    ∃ t, exec .lz77Dec s = .next t ∧ DoneWith t y

/-- R252, R253: a count that is not positive is rejected; the first token whose offset exceeds the output, or is 0 with a length
above 0, ends the operation with `CorruptStream`. R256: a container cut short, in the count or in a token, is `IoRead`. -/
def Obligations.Lz77DecRejects : Prop :=
  ∀ s : State,
    (params.inCap < s.inLen.toNat → ∃ t, exec .lz77Dec s = .next t ∧ FailedWith t .range) ∧
    (s.inLen.toNat < 4 → ∃ t, exec .lz77Dec s = .next t ∧ FailedWith t .ioRead) ∧
    (4 ≤ s.inLen.toNat → s.inLen.toNat ≤ params.inCap → s32 (memRead s.inMem 0 4) ≤ 0 →
      ∃ t, exec .lz77Dec s = .next t ∧ FailedWith t .invalidContainer) ∧
    (∀ (ts : List Token) (bad : Token) (tc : Nat) (rest y : List Byte), s.inLen.toNat ≤ params.inCap →
      ts.length < tc → tc < 2 ^ 31 → replayBytes [] ts = some y → y.length ≤ params.outCap → tokenLegal y.length bad = false →
      s.inBytes = bigEndian 4 tc ++ ts.flatMap tokenBytes ++ tokenBytes bad ++ rest →
      ∃ t, exec .lz77Dec s = .next t ∧ FailedWith t .corruptStream) ∧
    (∀ (ts : List Token) (tc : Nat) (part y : List Byte), s.inLen.toNat ≤ params.inCap →
      ts.length < tc → tc < 2 ^ 31 → replayBytes [] ts = some y → y.length ≤ params.outCap → part.length < 3 →
      s.inBytes = bigEndian 4 tc ++ ts.flatMap tokenBytes ++ part →
      ∃ t, exec .lz77Dec s = .next t ∧ FailedWith t .ioRead)

/-- R258: the LZ77 round trip, for all legal parameters. -/
def Obligations.Lz77RoundTrip : Prop :=
  ∀ (P : Params) (s : State), P.wf = true → s.inLen.toNat ≤ P.inCap → s.inLen.toNat ≤ P.outCap → s.inBytes ≠ [] →
    (lz77Container s.inBytes).length ≤ P.outCap → (lz77Container s.inBytes).length ≤ P.inCap →
    ∃ t, lz77EncWith P s = .next t ∧ t.status = statusWord .done ∧
      ∀ r : State, r.inBytes = t.outBytes → ∃ u, lz77DecWith P r = .next u ∧ DoneWith u s.inBytes

/-! ## LZW -/

/-- R274, R276: every code is below 4096, there are at most as many codes as bytes, and the dictionary never exceeds 4096
entries, a code being an entry's index. -/
def Obligations.LzwCodesAreBounded : Prop :=
  ∀ x : List Byte, (∀ c ∈ lzwCodes x, c < 4096) ∧ (lzwCodes x).length ≤ x.length ∧
    (lzwScan x lzwSeed []).2.1.length ≤ 4096 ∧ 256 ≤ (lzwScan x lzwSeed []).2.1.length

/-- R288: decoding the codes of an input that is not empty gives the input, the self-reference and the full dictionary included. -/
def Obligations.LzwCodesDecode : Prop := ∀ x : List Byte, x ≠ [] → lzwDecoded (lzwCodes x) = some x

/-- R274, R275: `LZW.ENC` completes on every input within the capacities with the LZW container as its output. -/
def Obligations.LzwEncWritesContainer : Prop :=
  ∀ s : State, s.inLen.toNat ≤ params.inCap → (lzwContainer s.inBytes).length ≤ params.outCap →
    ∃ t, exec .lzwEnc s = .next t ∧ DoneWith t (lzwContainer s.inBytes)

/-- R282 to R286: `LZW.DEC` completes on every container whose codes are valid, and the output is the strings of the codes. -/
def Obligations.LzwDecReplaysCodes : Prop :=
  ∀ (s : State) (cs : List Nat) (rest y : List Byte), s.inLen.toNat ≤ params.inCap →
    cs.length < 2 ^ 31 → (∀ c ∈ cs, c < 2 ^ 16) → lzwDecoded cs = some y → y.length ≤ params.outCap →
    s.inBytes = bigEndian 4 cs.length ++ cs.flatMap (bigEndian 2) ++ rest →
    ∃ t, exec .lzwDec s = .next t ∧ DoneWith t y

/-- R281, R282, R285: a count that is not positive is rejected; a first code of 256 or more, and a later code above the size
of the dictionary, end the operation with `CorruptStream`. R287: a container cut short, in the count, in the first code or in a
later one, is `IoRead`. -/
def Obligations.LzwDecRejects : Prop :=
  ∀ s : State,
    (params.inCap < s.inLen.toNat → ∃ t, exec .lzwDec s = .next t ∧ FailedWith t .range) ∧
    (s.inLen.toNat < 4 → ∃ t, exec .lzwDec s = .next t ∧ FailedWith t .ioRead) ∧
    (4 ≤ s.inLen.toNat → s.inLen.toNat ≤ params.inCap → s32 (memRead s.inMem 0 4) ≤ 0 →
      ∃ t, exec .lzwDec s = .next t ∧ FailedWith t .invalidContainer) ∧
    (∀ (c cc : Nat) (rest : List Byte), s.inLen.toNat ≤ params.inCap → 256 ≤ c → c < 2 ^ 16 → 1 ≤ cc → cc < 2 ^ 31 →
      s.inBytes = bigEndian 4 cc ++ bigEndian 2 c ++ rest →
      ∃ t, exec .lzwDec s = .next t ∧ FailedWith t .corruptStream) ∧
    (∀ (cs : List Nat) (c cc : Nat) (rest y : List Byte), s.inLen.toNat ≤ params.inCap →
      cs.length < cc → cc < 2 ^ 31 → (∀ d ∈ cs, d < 2 ^ 16) → lzwDecoded cs = some y → y.length ≤ params.outCap →
      min 4096 (255 + cs.length) < c → c < 2 ^ 16 →
      s.inBytes = bigEndian 4 cc ++ cs.flatMap (bigEndian 2) ++ bigEndian 2 c ++ rest →
      ∃ t, exec .lzwDec s = .next t ∧ FailedWith t .corruptStream) ∧
    (∀ (cs : List Nat) (cc : Nat) (part : List Byte), s.inLen.toNat ≤ params.inCap →
      cs.length < cc → cc < 2 ^ 31 → (∀ d ∈ cs, d < 2 ^ 16) →
      (cs = [] ∨ ∃ y, lzwDecoded cs = some y ∧ y.length ≤ params.outCap) → part.length < 2 →
      s.inBytes = bigEndian 4 cc ++ cs.flatMap (bigEndian 2) ++ part →
      ∃ t, exec .lzwDec s = .next t ∧ FailedWith t .ioRead)

/-- R288: the LZW round trip, for all legal parameters. -/
def Obligations.LzwRoundTrip : Prop :=
  ∀ (P : Params) (s : State), P.wf = true → s.inLen.toNat ≤ P.inCap → s.inLen.toNat ≤ P.outCap → s.inBytes ≠ [] →
    (lzwContainer s.inBytes).length ≤ P.outCap → (lzwContainer s.inBytes).length ≤ P.inCap →
    ∃ t, lzwEncWith P s = .next t ∧ t.status = statusWord .done ∧
      ∀ r : State, r.inBytes = t.outBytes → ∃ u, lzwDecWith P r = .next u ∧ DoneWith u s.inBytes

/-! ## Decoders whose output does not fit -/

/-- R172, R230, R256, R287: a decoder whose output does not fit `OUT` raises `IoWrite`, for all legal parameters, as soon as the
symbols, bits, tokens or codes read so far give more than `OUT_CAP` bytes, whatever the container declares or holds after them. -/
def Obligations.DecodedOutputTooLongIsIoWrite : Prop :=
  ∀ (P : Params) (s : State), P.wf = true → s.inLen.toNat ≤ P.inCap →
    (∀ (es msg : List HuffEntry) (payload : List Byte) (n len : Nat),
      msg.length ≤ len → len < 2 ^ 64 → P.outCap < msg.length →
      es.length ≤ 256 → (∀ e ∈ es, e.wf = true) → PrefixFree (es.map HuffEntry.code) → (∀ e ∈ msg, e ∈ es) →
      n ≤ 8 * payload.length → unpack n payload = msg.flatMap HuffEntry.code →
      s.inBytes = bigEndian 8 len ++ bigEndian 4 es.length ++ es.flatMap HuffEntry.bytes ++ payload →
      ∃ t, huffDecWith P s = .next t ∧ FailedWith t .ioWrite) ∧
    (∀ (es : List SfEntry) (payload : List Byte) (n tb : Nat), 1 ≤ es.length → es.length ≤ 256 →
      (∀ e ∈ es, e.2.length ≤ 255) → n ≤ tb → tb < 2 ^ 31 → n ≤ 8 * payload.length →
      P.outCap < (sfDecodeBits es [] (unpack n payload)).length →
      s.inBytes = bigEndian 4 es.length ++ es.flatMap sfEntryBytes ++ bigEndian 4 tb ++ payload →
      ∃ t, sfDecWith P s = .next t ∧ FailedWith t .ioWrite) ∧
    (∀ (ts : List Token) (tc : Nat) (rest y : List Byte), ts.length ≤ tc → tc < 2 ^ 31 →
      replayBytes [] ts = some y → P.outCap < y.length →
      s.inBytes = bigEndian 4 tc ++ ts.flatMap tokenBytes ++ rest →
      ∃ t, lz77DecWith P s = .next t ∧ FailedWith t .ioWrite) ∧
    (∀ (cs : List Nat) (cc : Nat) (rest y : List Byte), cs.length ≤ cc → cc < 2 ^ 31 → (∀ c ∈ cs, c < 2 ^ 16) →
      lzwDecoded cs = some y → P.outCap < y.length →
      s.inBytes = bigEndian 4 cc ++ cs.flatMap (bigEndian 2) ++ rest →
      ∃ t, lzwDecWith P s = .next t ∧ FailedWith t .ioWrite)
end

