-- ==== Sys2Proof/Laws/State.lean ====
section
/-! SUPPORT. The small lemmas of the named updates of State: one a field, true by definition, so that no later proof unfolds
a record update; and the same for the two ends of an operation. -/

namespace Sys2Proof.Machine

/-! ### `setPhase` -/

@[simp] theorem State.setPhase_op (p : Phase) (s : State) : (s.setPhase p).op = s.op := rfl
@[simp] theorem State.setPhase_status (p : Phase) (s : State) : (s.setPhase p).status = s.status := rfl
@[simp] theorem State.setPhase_err (p : Phase) (s : State) : (s.setPhase p).err = s.err := rfl
@[simp] theorem State.setPhase_inLen (p : Phase) (s : State) : (s.setPhase p).inLen = s.inLen := rfl
@[simp] theorem State.setPhase_outLen (p : Phase) (s : State) : (s.setPhase p).outLen = s.outLen := rfl
@[simp] theorem State.setPhase_freq (p : Phase) (s : State) : (s.setPhase p).freq = s.freq := rfl
@[simp] theorem State.setPhase_inMem (p : Phase) (s : State) : (s.setPhase p).inMem = s.inMem := rfl
@[simp] theorem State.setPhase_outMem (p : Phase) (s : State) : (s.setPhase p).outMem = s.outMem := rfl
@[simp] theorem State.setPhase_work (p : Phase) (s : State) : (s.setPhase p).work = { s.work with phase := p } := rfl
@[simp] theorem State.setPhase_draws (p : Phase) (s : State) : (s.setPhase p).draws = s.draws := rfl
@[simp] theorem State.setPhase_disturbed (p : Phase) (s : State) : (s.setPhase p).disturbed = s.disturbed := rfl
@[simp] theorem State.setPhase_hostData (p : Phase) (s : State) : (s.setPhase p).hostData = s.hostData := rfl
@[simp] theorem State.setPhase_agenda (p : Phase) (s : State) : (s.setPhase p).agenda = s.agenda := rfl

/-! ### `drawFreq` -/

@[simp] theorem State.drawFreq_op (s : State) : s.drawFreq.op = s.op := rfl
@[simp] theorem State.drawFreq_status (s : State) : s.drawFreq.status = s.status := rfl
@[simp] theorem State.drawFreq_err (s : State) : s.drawFreq.err = s.err := rfl
@[simp] theorem State.drawFreq_inLen (s : State) : s.drawFreq.inLen = s.inLen := rfl
@[simp] theorem State.drawFreq_outLen (s : State) : s.drawFreq.outLen = s.outLen := rfl
@[simp] theorem State.drawFreq_freq (s : State) : s.drawFreq.freq = freeFreq s.draws := rfl
@[simp] theorem State.drawFreq_inMem (s : State) : s.drawFreq.inMem = s.inMem := rfl
@[simp] theorem State.drawFreq_outMem (s : State) : s.drawFreq.outMem = s.outMem := rfl
@[simp] theorem State.drawFreq_work (s : State) : s.drawFreq.work = s.work := rfl
@[simp] theorem State.drawFreq_draws (s : State) : s.drawFreq.draws = s.draws + 1 := rfl
@[simp] theorem State.drawFreq_disturbed (s : State) : s.drawFreq.disturbed = s.disturbed := rfl
@[simp] theorem State.drawFreq_hostData (s : State) : s.drawFreq.hostData = s.hostData := rfl
@[simp] theorem State.drawFreq_agenda (s : State) : s.drawFreq.agenda = s.agenda := rfl

/-! ### `forgetOut` -/

@[simp] theorem State.forgetOut_op (n : Nat) (s : State) : (s.forgetOut n).op = s.op := rfl
@[simp] theorem State.forgetOut_status (n : Nat) (s : State) : (s.forgetOut n).status = s.status := rfl
@[simp] theorem State.forgetOut_err (n : Nat) (s : State) : (s.forgetOut n).err = s.err := rfl
@[simp] theorem State.forgetOut_inLen (n : Nat) (s : State) : (s.forgetOut n).inLen = s.inLen := rfl
@[simp] theorem State.forgetOut_outLen (n : Nat) (s : State) : (s.forgetOut n).outLen = s.outLen := rfl
@[simp] theorem State.forgetOut_freq (n : Nat) (s : State) : (s.forgetOut n).freq = s.freq := rfl
@[simp] theorem State.forgetOut_inMem (n : Nat) (s : State) : (s.forgetOut n).inMem = s.inMem := rfl
@[simp] theorem State.forgetOut_outMem (n : Nat) (s : State) : (s.forgetOut n).outMem = s.outMem.forgetFrom n s.draws := rfl
@[simp] theorem State.forgetOut_work (n : Nat) (s : State) : (s.forgetOut n).work = s.work := rfl
@[simp] theorem State.forgetOut_draws (n : Nat) (s : State) : (s.forgetOut n).draws = s.draws + 1 := rfl
@[simp] theorem State.forgetOut_disturbed (n : Nat) (s : State) : (s.forgetOut n).disturbed = s.disturbed := rfl
@[simp] theorem State.forgetOut_hostData (n : Nat) (s : State) : (s.forgetOut n).hostData = s.hostData := rfl
@[simp] theorem State.forgetOut_agenda (n : Nat) (s : State) : (s.forgetOut n).agenda = s.agenda := rfl

/-! ### `endDone` -/

@[simp] theorem State.endDone_op (n : Nat) (s : State) : (s.endDone n).op = s.op := rfl
@[simp] theorem State.endDone_status (n : Nat) (s : State) : (s.endDone n).status = statusWord .done := rfl
@[simp] theorem State.endDone_err (n : Nat) (s : State) : (s.endDone n).err = errNone := rfl
@[simp] theorem State.endDone_inLen (n : Nat) (s : State) : (s.endDone n).inLen = s.inLen := rfl
@[simp] theorem State.endDone_outLen (n : Nat) (s : State) : (s.endDone n).outLen = BitVec.ofNat 64 n := rfl
@[simp] theorem State.endDone_freq (n : Nat) (s : State) : (s.endDone n).freq = s.freq := rfl
@[simp] theorem State.endDone_inMem (n : Nat) (s : State) : (s.endDone n).inMem = s.inMem := rfl
@[simp] theorem State.endDone_outMem (n : Nat) (s : State) : (s.endDone n).outMem = s.outMem := rfl
@[simp] theorem State.endDone_work (n : Nat) (s : State) : (s.endDone n).work = s.work := rfl
@[simp] theorem State.endDone_draws (n : Nat) (s : State) : (s.endDone n).draws = s.draws := rfl
@[simp] theorem State.endDone_disturbed (n : Nat) (s : State) : (s.endDone n).disturbed = s.disturbed := rfl
@[simp] theorem State.endDone_hostData (n : Nat) (s : State) : (s.endDone n).hostData = s.hostData := rfl
@[simp] theorem State.endDone_agenda (n : Nat) (s : State) : (s.endDone n).agenda = s.agenda := rfl

/-! ### `endError` -/

@[simp] theorem State.endError_op (e : ErrKind) (s : State) : (s.endError e).op = s.op := rfl
@[simp] theorem State.endError_status (e : ErrKind) (s : State) : (s.endError e).status = statusWord .error := rfl
@[simp] theorem State.endError_err (e : ErrKind) (s : State) : (s.endError e).err = errWord e := rfl
@[simp] theorem State.endError_inLen (e : ErrKind) (s : State) : (s.endError e).inLen = s.inLen := rfl
@[simp] theorem State.endError_outLen (e : ErrKind) (s : State) : (s.endError e).outLen = 0 := rfl
@[simp] theorem State.endError_freq (e : ErrKind) (s : State) : (s.endError e).freq = s.freq := rfl
@[simp] theorem State.endError_inMem (e : ErrKind) (s : State) : (s.endError e).inMem = s.inMem := rfl
@[simp] theorem State.endError_outMem (e : ErrKind) (s : State) : (s.endError e).outMem = s.outMem := rfl
@[simp] theorem State.endError_work (e : ErrKind) (s : State) : (s.endError e).work = s.work := rfl
@[simp] theorem State.endError_draws (e : ErrKind) (s : State) : (s.endError e).draws = s.draws := rfl
@[simp] theorem State.endError_disturbed (e : ErrKind) (s : State) : (s.endError e).disturbed = s.disturbed := rfl
@[simp] theorem State.endError_hostData (e : ErrKind) (s : State) : (s.endError e).hostData = s.hostData := rfl
@[simp] theorem State.endError_agenda (e : ErrKind) (s : State) : (s.endError e).agenda = s.agenda := rfl

/-! ### `start` -/

@[simp] theorem State.start_op (o : BitVec 4) (s : State) : (s.start o).op = o := rfl
@[simp] theorem State.start_status (o : BitVec 4) (s : State) : (s.start o).status = statusWord .busy := rfl
@[simp] theorem State.start_err (o : BitVec 4) (s : State) : (s.start o).err = errNone := rfl
@[simp] theorem State.start_inLen (o : BitVec 4) (s : State) : (s.start o).inLen = s.inLen := rfl
@[simp] theorem State.start_outLen (o : BitVec 4) (s : State) : (s.start o).outLen = 0 := rfl
@[simp] theorem State.start_freq (o : BitVec 4) (s : State) : (s.start o).freq = s.freq := rfl
@[simp] theorem State.start_inMem (o : BitVec 4) (s : State) : (s.start o).inMem = s.inMem := rfl
@[simp] theorem State.start_outMem (o : BitVec 4) (s : State) : (s.start o).outMem = s.outMem := rfl
@[simp] theorem State.start_work (o : BitVec 4) (s : State) : (s.start o).work = { s.work with rp := 0, wp := 0 } := rfl
@[simp] theorem State.start_draws (o : BitVec 4) (s : State) : (s.start o).draws = s.draws := rfl
@[simp] theorem State.start_disturbed (o : BitVec 4) (s : State) : (s.start o).disturbed = false := rfl
@[simp] theorem State.start_hostData (o : BitVec 4) (s : State) : (s.start o).hostData = s.hostData := rfl
@[simp] theorem State.start_agenda (o : BitVec 4) (s : State) : (s.start o).agenda = s.agenda := rfl

/-! ### `badCommand` -/

@[simp] theorem State.badCommand_op (s : State) : s.badCommand.op = s.op := rfl
@[simp] theorem State.badCommand_status (s : State) : s.badCommand.status = statusWord .error := rfl
@[simp] theorem State.badCommand_err (s : State) : s.badCommand.err = errWord .badCmd := rfl
@[simp] theorem State.badCommand_inLen (s : State) : s.badCommand.inLen = s.inLen := rfl
@[simp] theorem State.badCommand_outLen (s : State) : s.badCommand.outLen = 0 := rfl
@[simp] theorem State.badCommand_freq (s : State) : s.badCommand.freq = s.freq := rfl
@[simp] theorem State.badCommand_inMem (s : State) : s.badCommand.inMem = s.inMem := rfl
@[simp] theorem State.badCommand_outMem (s : State) : s.badCommand.outMem = s.outMem := rfl
@[simp] theorem State.badCommand_work (s : State) : s.badCommand.work = s.work := rfl
@[simp] theorem State.badCommand_draws (s : State) : s.badCommand.draws = s.draws := rfl
@[simp] theorem State.badCommand_disturbed (s : State) : s.badCommand.disturbed = false := rfl
@[simp] theorem State.badCommand_hostData (s : State) : s.badCommand.hostData = s.hostData := rfl
@[simp] theorem State.badCommand_agenda (s : State) : s.badCommand.agenda = s.agenda := rfl

/-! ### `finishCount` -/

@[simp] theorem State.finishCount_op (s : State) : s.finishCount.op = s.op := rfl
@[simp] theorem State.finishCount_status (s : State) : s.finishCount.status = statusWord .done := rfl
@[simp] theorem State.finishCount_err (s : State) : s.finishCount.err = errNone := rfl
@[simp] theorem State.finishCount_inLen (s : State) : s.finishCount.inLen = s.inLen := rfl
@[simp] theorem State.finishCount_outLen (s : State) : s.finishCount.outLen = 0 := rfl
@[simp] theorem State.finishCount_freq (s : State) : s.finishCount.freq = s.freq := rfl
@[simp] theorem State.finishCount_inMem (s : State) : s.finishCount.inMem = s.inMem := rfl
@[simp] theorem State.finishCount_outMem (s : State) : s.finishCount.outMem = s.outMem.forgetFrom 0 s.draws := rfl
@[simp] theorem State.finishCount_work (s : State) : s.finishCount.work = { s.work with phase := .finish } := rfl
@[simp] theorem State.finishCount_draws (s : State) : s.finishCount.draws = s.draws + 1 := rfl
@[simp] theorem State.finishCount_disturbed (s : State) : s.finishCount.disturbed = s.disturbed := rfl
@[simp] theorem State.finishCount_hostData (s : State) : s.finishCount.hostData = s.hostData := rfl
@[simp] theorem State.finishCount_agenda (s : State) : s.finishCount.agenda = s.agenda := rfl

/-! ### `hostGets` -/

@[simp] theorem State.hostGets_op (v : BitVec 64) (s : State) : (s.hostGets v).op = s.op := rfl
@[simp] theorem State.hostGets_status (v : BitVec 64) (s : State) : (s.hostGets v).status = s.status := rfl
@[simp] theorem State.hostGets_err (v : BitVec 64) (s : State) : (s.hostGets v).err = s.err := rfl
@[simp] theorem State.hostGets_inLen (v : BitVec 64) (s : State) : (s.hostGets v).inLen = s.inLen := rfl
@[simp] theorem State.hostGets_outLen (v : BitVec 64) (s : State) : (s.hostGets v).outLen = s.outLen := rfl
@[simp] theorem State.hostGets_freq (v : BitVec 64) (s : State) : (s.hostGets v).freq = s.freq := rfl
@[simp] theorem State.hostGets_inMem (v : BitVec 64) (s : State) : (s.hostGets v).inMem = s.inMem := rfl
@[simp] theorem State.hostGets_outMem (v : BitVec 64) (s : State) : (s.hostGets v).outMem = s.outMem := rfl
@[simp] theorem State.hostGets_work (v : BitVec 64) (s : State) : (s.hostGets v).work = s.work := rfl
@[simp] theorem State.hostGets_draws (v : BitVec 64) (s : State) : (s.hostGets v).draws = s.draws := rfl
@[simp] theorem State.hostGets_disturbed (v : BitVec 64) (s : State) : (s.hostGets v).disturbed = s.disturbed := rfl
@[simp] theorem State.hostGets_hostData (v : BitVec 64) (s : State) : (s.hostGets v).hostData = v := rfl
@[simp] theorem State.hostGets_agenda (v : BitVec 64) (s : State) : (s.hostGets v).agenda = s.agenda := rfl

/-! ### `resetMove` -/

@[simp] theorem State.resetMove_op (s : State) : s.resetMove.op = 0 := rfl
@[simp] theorem State.resetMove_status (s : State) : s.resetMove.status = 0 := rfl
@[simp] theorem State.resetMove_err (s : State) : s.resetMove.err = 0 := rfl
@[simp] theorem State.resetMove_inLen (s : State) : s.resetMove.inLen = 0 := rfl
@[simp] theorem State.resetMove_outLen (s : State) : s.resetMove.outLen = 0 := rfl
@[simp] theorem State.resetMove_freq (s : State) : s.resetMove.freq = freeFreq s.draws := rfl
@[simp] theorem State.resetMove_inMem (s : State) : s.resetMove.inMem = { cells := [], epoch := s.draws + 1 } := rfl
@[simp] theorem State.resetMove_outMem (s : State) : s.resetMove.outMem = { cells := [], epoch := s.draws + 2 } := rfl
@[simp] theorem State.resetMove_work (s : State) : s.resetMove.work = Work.init := rfl
@[simp] theorem State.resetMove_draws (s : State) : s.resetMove.draws = s.draws + 3 := rfl
@[simp] theorem State.resetMove_disturbed (s : State) : s.resetMove.disturbed = false := rfl
@[simp] theorem State.resetMove_hostData (s : State) : s.resetMove.hostData = s.hostData := rfl
@[simp] theorem State.resetMove_agenda (s : State) : s.resetMove.agenda = s.agenda := rfl

/-! ### `popped` -/

@[simp] theorem State.popped_op (s : State) : s.popped.op = s.op := rfl
@[simp] theorem State.popped_status (s : State) : s.popped.status = s.status := rfl
@[simp] theorem State.popped_err (s : State) : s.popped.err = s.err := rfl
@[simp] theorem State.popped_inLen (s : State) : s.popped.inLen = s.inLen := rfl
@[simp] theorem State.popped_outLen (s : State) : s.popped.outLen = s.outLen := rfl
@[simp] theorem State.popped_freq (s : State) : s.popped.freq = s.freq := rfl
@[simp] theorem State.popped_inMem (s : State) : s.popped.inMem = s.inMem := rfl
@[simp] theorem State.popped_outMem (s : State) : s.popped.outMem = s.outMem := rfl
@[simp] theorem State.popped_work (s : State) : s.popped.work = s.work := rfl
@[simp] theorem State.popped_draws (s : State) : s.popped.draws = s.draws := rfl
@[simp] theorem State.popped_disturbed (s : State) : s.popped.disturbed = s.disturbed := rfl
@[simp] theorem State.popped_hostData (s : State) : s.popped.hostData = s.hostData := rfl
@[simp] theorem State.popped_agenda (s : State) : s.popped.agenda = s.agenda.tail := rfl

/-! ### `finishCoded`: the successful end of an operation that writes `OUT` -/

@[simp] theorem State.finishCoded_op (k : Bool) (s : State) : (s.finishCoded k).op = s.op := by cases k <;> rfl
@[simp] theorem State.finishCoded_status (k : Bool) (s : State) : (s.finishCoded k).status = statusWord .done := by cases k <;> rfl
@[simp] theorem State.finishCoded_err (k : Bool) (s : State) : (s.finishCoded k).err = errNone := by cases k <;> rfl
@[simp] theorem State.finishCoded_inLen (k : Bool) (s : State) : (s.finishCoded k).inLen = s.inLen := by cases k <;> rfl
@[simp] theorem State.finishCoded_outLen (k : Bool) (s : State) : (s.finishCoded k).outLen = BitVec.ofNat 64 s.work.wp := by cases k <;> rfl
@[simp] theorem State.finishCoded_inMem (k : Bool) (s : State) : (s.finishCoded k).inMem = s.inMem := by cases k <;> rfl
@[simp] theorem State.finishCoded_outMem (k : Bool) (s : State) : (s.finishCoded k).outMem = s.outMem.forgetFrom s.work.wp s.draws := by cases k <;> rfl
@[simp] theorem State.finishCoded_work (k : Bool) (s : State) : (s.finishCoded k).work = { s.work with phase := .finish } := by cases k <;> rfl
@[simp] theorem State.finishCoded_disturbed (k : Bool) (s : State) : (s.finishCoded k).disturbed = s.disturbed := by cases k <;> rfl
@[simp] theorem State.finishCoded_hostData (k : Bool) (s : State) : (s.finishCoded k).hostData = s.hostData := by cases k <;> rfl
@[simp] theorem State.finishCoded_agenda (k : Bool) (s : State) : (s.finishCoded k).agenda = s.agenda := by cases k <;> rfl
@[simp] theorem State.finishCoded_freq (s : State) : (s.finishCoded true).freq = s.freq := rfl
@[simp] theorem State.finishCoded_freq_drawn (s : State) : (s.finishCoded false).freq = freeFreq (s.draws + 1) := rfl
@[simp] theorem State.finishCoded_draws (k : Bool) (s : State) :
    (s.finishCoded k).draws = if k then s.draws + 1 else s.draws + 2 := by cases k <;> rfl

/-! ### `raiseError`: the end of an operation by an error -/

@[simp] theorem State.raiseError_op (e : ErrKind) (s : State) : (s.raiseError e).op = s.op := by cases e <;> rfl
@[simp] theorem State.raiseError_status (e : ErrKind) (s : State) : (s.raiseError e).status = statusWord .error := by cases e <;> rfl
@[simp] theorem State.raiseError_err (e : ErrKind) (s : State) : (s.raiseError e).err = errWord e := by cases e <;> rfl
@[simp] theorem State.raiseError_inLen (e : ErrKind) (s : State) : (s.raiseError e).inLen = s.inLen := by cases e <;> rfl
@[simp] theorem State.raiseError_outLen (e : ErrKind) (s : State) : (s.raiseError e).outLen = 0 := by cases e <;> rfl
@[simp] theorem State.raiseError_inMem (e : ErrKind) (s : State) : (s.raiseError e).inMem = s.inMem := by cases e <;> rfl
@[simp] theorem State.raiseError_outMem (e : ErrKind) (s : State) : (s.raiseError e).outMem = s.outMem.forgetFrom 0 s.draws := by cases e <;> rfl
@[simp] theorem State.raiseError_work (e : ErrKind) (s : State) : (s.raiseError e).work = s.work := by cases e <;> rfl
@[simp] theorem State.raiseError_disturbed (e : ErrKind) (s : State) : (s.raiseError e).disturbed = s.disturbed := by cases e <;> rfl
@[simp] theorem State.raiseError_hostData (e : ErrKind) (s : State) : (s.raiseError e).hostData = s.hostData := by cases e <;> rfl
@[simp] theorem State.raiseError_agenda (e : ErrKind) (s : State) : (s.raiseError e).agenda = s.agenda := by cases e <;> rfl
@[simp] theorem State.raiseError_freq (s : State) : (s.raiseError .emptyInput).freq = s.freq := rfl
theorem State.raiseError_freq_drawn (e : ErrKind) (s : State) (h : e ≠ .emptyInput) :
    (s.raiseError e).freq = freeFreq (s.draws + 1) := by cases e <;> first | rfl | exact absurd rfl h
theorem State.raiseError_draws (e : ErrKind) (s : State) :
    (s.raiseError e).draws = if e = .emptyInput then s.draws + 1 else s.draws + 2 := by cases e <;> rfl

end Sys2Proof.Machine
end

