-- ==== Sys2Proof/Laws/Memory.lean ====
section
/-! SUPPORT. The laws of a byte memory: a read after a write, and that every operation keeps the canonical form and the
bound on the addresses. -/

namespace Sys2Proof.Machine

/-- Looking up in a list of cells, cell by cell. -/
theorem lookup_cell (a c : Nat) (d : Byte) (l : List Host.Cell) :
    ((c, d) :: l : List Host.Cell).lookup a = if a = c then some d else l.lookup a := by
  rw [List.lookup_cons]
  by_cases h : a = c
  · simp [h]
  · have h' : (a == c) = false := by simpa using h
    simp [h, h']

theorem lookup_insertCell (a c : Nat) (b : Byte) (l : List Host.Cell) :
    (insertCell a b l).lookup c = if c = a then some b else l.lookup c := by
  induction l with
  | nil => exact lookup_cell c a b []
  | cons d l ih =>
    obtain ⟨d, e⟩ := d
    simp only [insertCell]
    split
    · exact lookup_cell c a b _
    · split
      · next h => subst h; simp only [lookup_cell]; split <;> rfl
      · next h1 h2 =>
        simp only [lookup_cell, ih]
        by_cases h : c = d
        · subst h; simp [Ne.symm h2]
        · simp [h]

/-- A read after a write. -/
theorem Mem.read_write (m : Mem) (a c : Nat) (b : Byte) :
    (m.write a b).read c = if c = a then b else m.read c := by
  simp only [Mem.read, Mem.write, lookup_insertCell]
  by_cases h : c = a <;> simp [h]

@[simp] theorem Mem.read_write_self (m : Mem) (a : Nat) (b : Byte) : (m.write a b).read a = b := by
  simp [Mem.read_write]

theorem Mem.read_write_ne (m : Mem) {a c : Nat} (b : Byte) (h : c ≠ a) : (m.write a b).read c = m.read c := by
  simp [Mem.read_write, h]

theorem mem_insertCell {a : Nat} {b : Byte} {l : List Host.Cell} {x : Host.Cell} (h : x ∈ insertCell a b l) :
    x = (a, b) ∨ x ∈ l := by
  induction l with
  | nil => simpa [insertCell] using h
  | cons d l ih =>
    obtain ⟨d, e⟩ := d
    simp only [insertCell] at h
    split at h
    · simpa using h
    · split at h
      · simp only [List.mem_cons] at h ⊢
        tauto
      · simp only [List.mem_cons] at h ⊢
        rcases h with h | h
        · exact .inr (.inl h)
        · rcases ih h with h | h
          · exact .inl h
          · exact .inr (.inr h)

theorem insertCell_pairwise {a : Nat} {b : Byte} {l : List Host.Cell} (h : l.Pairwise (fun c d => c.1 < d.1)) :
    (insertCell a b l).Pairwise (fun c d => c.1 < d.1) := by
  induction l with
  | nil => simp [insertCell]
  | cons d l ih =>
    obtain ⟨d, e⟩ := d
    have hd := List.pairwise_cons.mp h
    simp only [insertCell]
    split
    · next hlt =>
      refine List.pairwise_cons.mpr ⟨?_, h⟩
      intro x hx
      rcases List.mem_cons.mp hx with rfl | hx
      · exact hlt
      · exact Nat.lt_trans hlt (hd.1 x hx)
    · split
      · next heq =>
        subst heq
        exact List.pairwise_cons.mpr ⟨fun x hx => hd.1 x hx, hd.2⟩
      · next h1 h2 =>
        refine List.pairwise_cons.mpr ⟨?_, ih hd.2⟩
        intro x hx
        rcases mem_insertCell hx with rfl | hx
        · show d < a
          omega
        · exact hd.1 x hx

/-- A write keeps the canonical form. -/
theorem Mem.wf_write {m : Mem} (a : Nat) (b : Byte) (h : m.wf = true) : (m.write a b).wf = true := by
  simp only [Mem.wf, decide_eq_true_eq] at h ⊢
  exact insertCell_pairwise h

/-- Forgetting cells keeps the canonical form. -/
theorem Mem.wf_forgetFrom {m : Mem} (n e : Nat) (h : m.wf = true) : (m.forgetFrom n e).wf = true := by
  simp only [Mem.wf, Mem.forgetFrom] at h ⊢
  exact decide_eq_true ((of_decide_eq_true h).filter _)

/-- A memory with no cell listed is in canonical form. -/
theorem Mem.wf_empty (e : Nat) : ({ cells := [], epoch := e } : Mem).wf = true := by simp [Mem.wf]

/-- Both memories are in canonical form after reset. -/
theorem reset_memories_wf : State.reset.inMem.wf = true ∧ State.reset.outMem.wf = true :=
  ⟨Mem.wf_empty _, Mem.wf_empty _⟩

theorem Mem.below_write {m : Mem} {a n : Nat} (b : Byte) (h : m.below n = true) (ha : a < n) :
    (m.write a b).below n = true := by
  simp only [Mem.below, Mem.write, List.all_eq_true, decide_eq_true_eq] at h ⊢
  intro x hx
  rcases mem_insertCell hx with rfl | hx
  · exact ha
  · exact h x hx

theorem Mem.below_forgetFrom {m : Mem} {n : Nat} (k e : Nat) (h : m.below n = true) :
    (m.forgetFrom k e).below n = true := by
  simp only [Mem.below, Mem.forgetFrom, List.all_eq_true, decide_eq_true_eq] at h ⊢
  intro x hx
  exact h x (List.mem_of_mem_filter hx)

theorem Mem.below_empty (e n : Nat) : ({ cells := [], epoch := e } : Mem).below n = true := by simp [Mem.below]

@[simp] theorem Mem.epoch_write (m : Mem) (a : Nat) (b : Byte) : (m.write a b).epoch = m.epoch := rfl

@[simp] theorem Mem.epoch_forgetFrom (m : Mem) (n e : Nat) : (m.forgetFrom n e).epoch = e := rfl

/-- A cell is listed exactly when looking it up finds a byte. -/
theorem Mem.listed_iff (m : Mem) (a : Nat) : m.listed a ↔ ∃ b, m.cells.lookup a = some b := by
  unfold Mem.listed
  generalize m.cells = l
  induction l with
  | nil => simp
  | cons d l ih =>
    obtain ⟨d, e⟩ := d
    rw [lookup_cell]
    by_cases h : a = d
    · subst h
      simp only [if_true, Option.some.injEq, exists_eq', iff_true]
      exact ⟨e, List.mem_cons_self⟩
    · simp only [h, if_false, ← ih, List.mem_cons, Prod.mk.injEq, false_and, false_or]

/-- After a write the written cell is listed, and every cell that was. -/
theorem Mem.listed_write (m : Mem) (a c : Nat) (b : Byte) : (m.write a b).listed c ↔ c = a ∨ m.listed c := by
  simp only [Mem.listed_iff, Mem.write, lookup_insertCell]
  by_cases h : c = a <;> simp [h]

theorem lookup_filter_lt (l : List Host.Cell) (n a : Nat) :
    (l.filter (fun c => c.1 < n)).lookup a = if a < n then l.lookup a else none := by
  induction l with
  | nil => simp
  | cons d l ih =>
    obtain ⟨d, e⟩ := d
    simp only [List.filter_cons]
    by_cases hd : d < n
    · simp only [hd, decide_true, if_true, lookup_cell, ih]
      by_cases h : a = d
      · subst h; simp [hd]
      · simp [h]
    · simp only [hd, decide_false, Bool.false_eq_true, if_false, ih, lookup_cell]
      by_cases h : a = d
      · subst h; simp [hd]
      · simp [h]

/-- A listed cell below the bound reads after forgetting as before. -/
theorem Mem.read_forgetFrom {m : Mem} {n e a : Nat} (ha : a < n) (h : m.listed a) :
    (m.forgetFrom n e).read a = m.read a := by
  obtain ⟨b, hb⟩ := (m.listed_iff a).mp h
  simp [Mem.read, Mem.forgetFrom, lookup_filter_lt, ha, hb]

theorem Mem.listed_forgetFrom (m : Mem) (n e a : Nat) : (m.forgetFrom n e).listed a ↔ a < n ∧ m.listed a := by
  simp only [Mem.listed_iff, Mem.forgetFrom, lookup_filter_lt]
  by_cases h : a < n <;> simp [h]

end Sys2Proof.Machine
end

