-- ==== Sys2Proof/Laws/Engine.lean ====
section
/-! SUPPORT. How to reason about a computation of the engine: what a sequence of steps does, a rule that carries an invariant
through any sequence (whether it goes on or raises), and the inversion of `runOp`. -/

namespace Sys2Proof.Machine

variable {α β : Type}

/-! ### Running a sequence -/

theorem bind_of_ok {m : Eng α} {f : α → Eng β} {s t : State} {a : α} (h : m s = .ok a t) : (m >>= f) s = f a t := by
  show EStateM.bind m f s = f a t
  simp [EStateM.bind, h]

theorem bind_of_error {m : Eng α} {f : α → Eng β} {s t : State} {e : ErrKind} (h : m s = .error e t) :
    (m >>= f) s = .error e t := by
  show EStateM.bind m f s = .error e t
  simp [EStateM.bind, h]

/-- A sequence goes on exactly when both parts do. -/
theorem bind_ok_iff {m : Eng α} {f : α → Eng β} {s t : State} {b : β} :
    (m >>= f) s = .ok b t ↔ ∃ a u, m s = .ok a u ∧ f a u = .ok b t := by
  cases h : m s with
  | ok a u =>
    rw [bind_of_ok h]
    exact ⟨fun hf => ⟨a, u, rfl, hf⟩, fun ⟨_, _, ha, hf⟩ => by cases ha; exact hf⟩
  | error e u =>
    rw [bind_of_error h]
    exact ⟨fun hf => (nomatch hf), fun ⟨_, _, ha, _⟩ => (nomatch ha)⟩

/-- A sequence raises exactly when its first part does, or its second part after it. -/
theorem bind_error_iff {m : Eng α} {f : α → Eng β} {s t : State} {e : ErrKind} :
    (m >>= f) s = .error e t ↔ m s = .error e t ∨ ∃ a u, m s = .ok a u ∧ f a u = .error e t := by
  cases h : m s with
  | ok a u =>
    rw [bind_of_ok h]
    exact ⟨fun hf => .inr ⟨a, u, rfl, hf⟩, fun hx => hx.elim (fun h1 => nomatch h1) fun ⟨_, _, ha, hf⟩ => by cases ha; exact hf⟩
  | error e u =>
    rw [bind_of_error h]
    exact ⟨fun hf => by cases hf; exact .inl rfl, fun hx => hx.elim (fun h1 => by cases h1; rfl) fun ⟨_, _, ha, _⟩ => (nomatch ha)⟩

theorem pure_run (a : α) (s : State) : (pure a : Eng α) s = .ok a s := rfl
theorem get_run (s : State) : (get : Eng State) s = .ok s s := rfl
theorem getWork_run (s : State) : getWork s = .ok s.work s := rfl
theorem raise_run (e : ErrKind) (s : State) : (raise e : Eng α) s = .error e s := rfl
theorem change_run (f : State → State) (s : State) : change f s = .ok () (f s) := rfl
theorem changeWork_run (f : Work → Work) (s : State) : changeWork f s = .ok () { s with work := f s.work } := rfl
theorem phase_run (p : Phase) (s : State) : phase p s = .ok () (s.setPhase p) := rfl

/-- The check of `IN_LEN` goes on, with nothing changed, exactly when `IN_LEN ≤ IN_CAP` (R306). -/
theorem checkRange_run (P : Params) (s : State) :
    (s.inLen.toNat ≤ P.inCap → checkRange P s = .ok () s) ∧ (P.inCap < s.inLen.toNat → checkRange P s = .error .range s) := by
  unfold checkRange
  exact ⟨fun h => if_neg (by omega), fun h => if_pos h⟩

/-! ### Carrying an invariant through -/

/-- From a state in `I` the computation ends in a state in `I`, whether it goes on or raises, and it raises no error but those
of `es`. -/
def Carries (I : State → Prop) (es : List ErrKind) (m : Eng α) : Prop :=
  ∀ s, I s → match m s with
    | .ok _ t => I t
    | .error e t => e ∈ es ∧ I t

namespace Carries

variable {I : State → Prop} {es fs : List ErrKind}

theorem ok {m : Eng α} {s t : State} {a : α} (h : Carries I es m) (hs : I s) (hm : m s = .ok a t) : I t := by
  have := h s hs
  rwa [hm] at this

theorem error {m : Eng α} {s t : State} {e : ErrKind} (h : Carries I es m) (hs : I s) (hm : m s = .error e t) :
    e ∈ es ∧ I t := by
  have := h s hs
  rwa [hm] at this

theorem bind {m : Eng α} {f : α → Eng β} (hm : Carries I es m) (hf : ∀ a, Carries I es (f a)) : Carries I es (m >>= f) := by
  intro s hs
  cases h : m s with
  | ok a u =>
    rw [bind_of_ok h]
    exact hf a u (hm.ok hs h)
  | error e u =>
    rw [bind_of_error h]
    exact hm.error hs h

theorem mono {m : Eng α} (h : Carries I es m) (hsub : ∀ e ∈ es, e ∈ fs) : Carries I fs m := by
  intro s hs
  have := h s hs
  cases hm : m s with
  | ok a t => rwa [hm] at this
  | error e t =>
    rw [hm] at this
    exact ⟨hsub _ this.1, this.2⟩

theorem pure (a : α) : Carries I es (Pure.pure a : Eng α) := fun _ hs => hs
theorem get : Carries I es (MonadState.get : Eng State) := fun _ hs => hs
theorem getWork : Carries I es Machine.getWork := fun _ hs => hs
theorem raise {e : ErrKind} (h : e ∈ es) : Carries I es (Machine.raise e : Eng α) := fun _ hs => ⟨h, hs⟩
theorem change {f : State → State} (h : ∀ s, I s → I (f s)) : Carries I es (Machine.change f) := fun s hs => h s hs

theorem changeWork {f : Work → Work} (h : ∀ s, I s → I { s with work := f s.work }) : Carries I es (Machine.changeWork f) :=
  fun s hs => h s hs

theorem ite {c : Prop} [Decidable c] {m n : Eng α} (hm : c → Carries I es m) (hn : ¬ c → Carries I es n) :
    Carries I es (if c then m else n) := by
  split
  · next h => exact hm h
  · next h => exact hn h

theorem checkRange (P : Params) (h : ErrKind.range ∈ es) : Carries I es (Machine.checkRange P) := by
  intro s hs
  by_cases hc : s.inLen.toNat ≤ P.inCap
  · rw [(checkRange_run P s).1 hc]; exact hs
  · rw [(checkRange_run P s).2 (by omega)]; exact ⟨h, hs⟩

end Carries

/-! ### The end of an operation -/

/-- Everything that `runOp` can do: it always answers a next state, the end of what the phases left. -/
theorem runOp_cases {fin : State → State} {m : Eng Unit} {s t : State} (h : runOp fin m s = .next t) :
    (∃ u, m s = .ok () u ∧ t = fin u) ∨ ∃ e u, m s = .error e u ∧ t = u.raiseError e := by
  unfold runOp at h
  split at h
  · next u hm => cases h; exact .inl ⟨u, hm, rfl⟩
  · next e u hm => cases h; exact .inr ⟨e, u, hm, rfl⟩

theorem runOp_of_ok {fin : State → State} {m : Eng Unit} {s u : State} (h : m s = .ok () u) :
    runOp fin m s = .next (fin u) := by simp [runOp, h]

theorem runOp_of_error {fin : State → State} {m : Eng Unit} {s u : State} {e : ErrKind} (h : m s = .error e u) :
    runOp fin m s = .next (u.raiseError e) := by simp [runOp, h]

/-- An error ends an operation as R304 says. -/
theorem failedWith_raiseError (e : ErrKind) (s : State) : FailedWith (s.raiseError e) e := by simp [FailedWith]

end Sys2Proof.Machine
end

