-- ==== Sys2Proof/Laws/Operands.lean ====
section
/-! SUPPORT. What the shared readers and writers do: one lemma each that says everything they can do, and the frame of all of
them. -/

namespace Sys2Proof.Machine

variable {α : Type}

/-! ### The frame of the engine -/

/-- What no phase of an operation touches: the registers, the input, and the fields that are the host's. -/
structure SameOutside (s t : State) : Prop where
  op : t.op = s.op
  status : t.status = s.status
  err : t.err = s.err
  inLen : t.inLen = s.inLen
  outLen : t.outLen = s.outLen
  inMem : t.inMem = s.inMem
  draws : t.draws = s.draws
  disturbed : t.disturbed = s.disturbed
  hostData : t.hostData = s.hostData
  agenda : t.agenda = s.agenda

theorem SameOutside.refl (s : State) : SameOutside s s := ⟨rfl, rfl, rfl, rfl, rfl, rfl, rfl, rfl, rfl, rfl⟩

/-- A state that differs from `t` only in `FREQ`, `OUT` and the working state is as much like `s` as `t` is. -/
theorem SameOutside.with {s t : State} (h : SameOutside s t) (f : FreqTable) (m : Mem) (w : Work) :
    SameOutside s { t with freq := f, outMem := m, work := w } :=
  ⟨h.op, h.status, h.err, h.inLen, h.outLen, h.inMem, h.draws, h.disturbed, h.hostData, h.agenda⟩

theorem SameOutside.inBytes {s t : State} (h : SameOutside s t) : t.inBytes = s.inBytes := by
  simp [State.inBytes, h.inLen, h.inMem]

/-- An invariant that does not depend on `FREQ`, `OUT` and the working state. -/
def Outside (I : State → Prop) : Prop := ∀ s f m w, I s → I { s with freq := f, outMem := m, work := w }

theorem sameOutside_outside (s : State) : Outside (SameOutside s) := fun _ f m w h => h.with f m w

namespace Outside

variable {I : State → Prop} {es : List ErrKind} (hI : Outside I)
include hI

theorem phase (p : Phase) : Carries I es (Machine.phase p) := Carries.change fun s hs => hI s s.freq s.outMem _ hs

theorem changeWork (f : Work → Work) : Carries I es (Machine.changeWork f) :=
  Carries.changeWork fun s hs => hI s s.freq s.outMem _ hs

theorem beginOp : Carries I es Machine.beginOp := hI.changeWork _

theorem startBits : Carries I es Machine.startBits := hI.changeWork _

theorem startPayload : Carries I es Machine.startPayload := hI.changeWork _

theorem clearFreq : Carries I es Machine.clearFreq := Carries.change fun s hs => hI s _ s.outMem s.work hs

theorem countInput : Carries I es Machine.countInput := Carries.change fun s hs => hI s _ s.outMem s.work hs

theorem inByte (h : ErrKind.ioRead ∈ es) : Carries I es Machine.inByte := by
  intro s hs
  unfold Machine.inByte
  split
  · next heq => split at heq <;> cases heq; exact hI s s.freq s.outMem _ hs
  · next heq => split at heq <;> cases heq; exact ⟨h, hs⟩

theorem inU (n : Nat) (h : ErrKind.ioRead ∈ es) : Carries I es (Machine.inU n) := by
  intro s hs
  unfold Machine.inU
  split
  · next heq => split at heq <;> cases heq; exact hI s s.freq s.outMem _ hs
  · next heq => split at heq <;> cases heq; exact ⟨h, hs⟩

theorem getBit (h : ErrKind.ioRead ∈ es) : Carries I es Machine.getBit := by
  intro s hs
  simp only [Machine.getBit]
  split
  · next heq => split at heq <;> cases heq; exact hI s s.freq s.outMem _ hs
  · next heq => split at heq <;> cases heq; exact ⟨h, hs⟩

theorem inBytesN (h : ErrKind.ioRead ∈ es) : ∀ n, Carries I es (Machine.inBytesN n)
  | 0 => Carries.pure _
  | n + 1 => (hI.inByte h).bind fun _ => (inBytesN h n).bind fun _ => Carries.pure _

theorem outByte (P : Params) (b : Byte) (h : ErrKind.ioWrite ∈ es) : Carries I es (Machine.outByte P b) := by
  intro s hs
  unfold Machine.outByte
  split
  · next heq => split at heq <;> cases heq; exact hI s s.freq _ _ hs
  · next heq => split at heq <;> cases heq; exact ⟨h, hs⟩

theorem outString (P : Params) (h : ErrKind.ioWrite ∈ es) : ∀ bs, Carries I es (Machine.outString P bs)
  | [] => Carries.pure _
  | b :: r => (hI.outByte P b h).bind fun _ => outString P h r

theorem outU (P : Params) (n v : Nat) (h : ErrKind.ioWrite ∈ es) : Carries I es (Machine.outU P n v) := by
  intro s hs
  have key : Machine.outU P n v s = if s.work.wp + n ≤ P.outCap then Machine.outString P (bigEndian n v) s else .error .ioWrite s := rfl
  rw [key]
  by_cases hc : s.work.wp + n ≤ P.outCap
  · rw [if_pos hc]; exact hI.outString P h _ s hs
  · rw [if_neg hc]; exact ⟨h, hs⟩

theorem putBit (P : Params) (b : Bool) (h : ErrKind.ioWrite ∈ es) : Carries I es (Machine.putBit P b) :=
  (hI.changeWork _).bind fun _ => Carries.getWork.bind fun _ =>
    Carries.ite (fun _ => (hI.outByte P _ h).bind fun _ => hI.startBits) fun _ => Carries.pure _

theorem putBits (P : Params) (h : ErrKind.ioWrite ∈ es) : ∀ c, Carries I es (Machine.putBits P c)
  | [] => Carries.pure _
  | b :: c => (hI.putBit P b h).bind fun _ => putBits P h c

theorem flushBits (P : Params) (h : ErrKind.ioWrite ∈ es) : Carries I es (Machine.flushBits P) :=
  Carries.getWork.bind fun _ => Carries.ite (fun _ => (hI.outByte P _ h).bind fun _ => hI.startBits) fun _ => Carries.pure _

theorem putCodes (P : Params) (t : CodeTable) (h : ErrKind.ioWrite ∈ es) : ∀ x, Carries I es (Machine.putCodes P t x)
  | [] => Carries.pure _
  | _ :: r => (hI.putBits P h _).bind fun _ => putCodes P t h r

theorem codedPayload (P : Params) (h : ErrKind.ioWrite ∈ es) : Carries I es (Machine.codedPayload P) :=
  (hI.phase _).bind fun _ => hI.startBits.bind fun _ => Carries.get.bind fun _ =>
    (hI.putCodes P _ h _).bind fun _ => hI.flushBits P h

end Outside

/-! ### Reading the input -/

@[simp] theorem State.inBytes_length (s : State) : s.inBytes.length = s.inLen.toNat := by simp [State.inBytes]

@[simp] theorem State.outBytes_length (s : State) : s.outBytes.length = s.outLen.toNat := by simp [State.outBytes]

theorem State.inBytes_getElem? (s : State) (a : Nat) :
    s.inBytes[a]? = if a < s.inLen.toNat then some (s.inMem.read a) else none := by
  by_cases h : a < s.inLen.toNat <;> simp [State.inBytes, h]

/-- The state with `n` more bytes read. -/
def State.advance (n : Nat) (s : State) : State := { s with work := { s.work with rp := s.work.rp + n } }

@[simp] theorem State.advance_inBytes (n : Nat) (s : State) : (s.advance n).inBytes = s.inBytes := rfl
@[simp] theorem State.advance_inLen (n : Nat) (s : State) : (s.advance n).inLen = s.inLen := rfl
@[simp] theorem State.advance_inMem (n : Nat) (s : State) : (s.advance n).inMem = s.inMem := rfl
@[simp] theorem State.advance_outMem (n : Nat) (s : State) : (s.advance n).outMem = s.outMem := rfl
@[simp] theorem State.advance_rp (n : Nat) (s : State) : (s.advance n).work.rp = s.work.rp + n := rfl
@[simp] theorem State.advance_wp (n : Nat) (s : State) : (s.advance n).work.wp = s.work.wp := rfl
theorem State.advance_advance (m n : Nat) (s : State) : (s.advance m).advance n = s.advance (m + n) := by
  simp [State.advance, Nat.add_assoc]

/-- `InByte()` reads the byte at the cursor, or raises `IoRead` with nothing changed when there is none (R11). -/
theorem inByte_run (s : State) :
    inByte s = match s.inBytes[s.work.rp]? with
      | some b => .ok b (s.advance 1)
      | none => .error .ioRead s := by
  rw [State.inBytes_getElem?]
  unfold inByte
  split <;> rfl

/-- `InU(n)` reads the number in the next `n` bytes, or raises `IoRead` with nothing changed when they are not all there (R11). -/
theorem inU_run (n : Nat) (s : State) :
    (s.work.rp + n ≤ s.inLen.toNat → inU n s = .ok (memRead s.inMem s.work.rp n) (s.advance n)) ∧
    (s.inLen.toNat < s.work.rp + n → inU n s = .error .ioRead s) := by
  unfold inU
  exact ⟨fun h => if_pos h, fun h => if_neg (by omega)⟩

/-- The next `n` bytes of the input are read when they are there. -/
theorem inBytesN_run : ∀ (n : Nat) (s : State), s.work.rp + n ≤ s.inLen.toNat →
    inBytesN n s = .ok ((s.inBytes.drop s.work.rp).take n) (s.advance n)
  | 0, s, _ => rfl
  | n + 1, s, h => by
    have hb : s.inBytes[s.work.rp]? = some (s.inMem.read s.work.rp) := by
      rw [State.inBytes_getElem?, if_pos (by omega)]
    have h1 : inByte s = .ok (s.inMem.read s.work.rp) (s.advance 1) := by rw [inByte_run, hb]
    have hd : s.inBytes.drop s.work.rp = s.inMem.read s.work.rp :: s.inBytes.drop (s.work.rp + 1) :=
      List.drop_eq_getElem?_toList_append.trans (by rw [hb]; rfl)
    have h2 := inBytesN_run n (s.advance 1) (by simp; omega)
    simp only [inBytesN]
    rw [bind_of_ok h1, bind_of_ok h2, hd]
    simp [pure_run, State.advance_advance, Nat.add_comm]

/-- `GetBit()` reads the next bit of the payload, or raises `IoRead` with nothing changed at the end of the input (R91). -/
theorem getBit_run (s : State) :
    (s.work.base + s.work.brp / 8 < s.inLen.toNat →
      getBit s = .ok ((s.inMem.read (s.work.base + s.work.brp / 8)).getLsbD (7 - s.work.brp % 8))
        { s with work := { s.work with brp := s.work.brp + 1 } }) ∧
    (s.inLen.toNat ≤ s.work.base + s.work.brp / 8 → getBit s = .error .ioRead s) := by
  unfold getBit
  exact ⟨fun h => if_pos h, fun h => if_neg (by omega)⟩

/-! ### Writing the output -/

/-- The memory with the bytes of a string from address `a` on. -/
def Mem.writeAll (m : Mem) (a : Nat) : List Byte → Mem
  | [] => m
  | b :: r => (m.write a b).writeAll (a + 1) r

theorem Mem.read_writeAll (l : List Byte) : ∀ (m : Mem) (a c : Nat),
    (m.writeAll a l).read c = if a ≤ c ∧ c < a + l.length then (l[c - a]?).getD 0 else m.read c := by
  induction l with
  | nil => intro m a c; simp [Mem.writeAll]
  | cons b l ih =>
    intro m a c
    simp only [Mem.writeAll, ih, Mem.read_write, List.length_cons]
    by_cases h1 : c = a
    · subst h1; simp
    · by_cases h2 : a + 1 ≤ c ∧ c < a + 1 + l.length
      · have h3 : a ≤ c ∧ c < a + (l.length + 1) := by omega
        have h4 : c - a = (c - (a + 1)) + 1 := by omega
        simp [h2, h3, h4]
      · have h3 : ¬ (a ≤ c ∧ c < a + (l.length + 1)) := by omega
        rw [if_neg h2, if_neg h3, if_neg h1]

theorem Mem.listed_writeAll (l : List Byte) : ∀ (m : Mem) (a c : Nat),
    (m.writeAll a l).listed c ↔ (a ≤ c ∧ c < a + l.length) ∨ m.listed c := by
  induction l with
  | nil => intro m a c; simp [Mem.writeAll]
  | cons b l ih =>
    intro m a c
    simp only [Mem.writeAll, ih, Mem.listed_write, List.length_cons]
    constructor
    · rintro (h | h | h)
      · exact .inl (by omega)
      · exact .inl (by omega)
      · exact .inr h
    · rintro (h | h)
      · by_cases h1 : c = a
        · exact .inr (.inl h1)
        · exact .inl (by omega)
      · exact .inr (.inr h)

theorem Mem.writeAll_append (k l : List Byte) : ∀ (m : Mem) (a : Nat),
    m.writeAll a (k ++ l) = (m.writeAll a k).writeAll (a + k.length) l := by
  induction k with
  | nil => intro m a; rfl
  | cons b k ih =>
    intro m a
    simp only [List.cons_append, Mem.writeAll, ih, List.length_cons]
    congr 1
    omega

/-- The state after a string has been written at the write cursor. -/
def State.wrote (l : List Byte) (s : State) : State :=
  { s with outMem := s.outMem.writeAll s.work.wp l, work := { s.work with wp := s.work.wp + l.length } }

@[simp] theorem State.wrote_nil (s : State) : s.wrote [] = s := rfl
@[simp] theorem State.wrote_inBytes (l : List Byte) (s : State) : (s.wrote l).inBytes = s.inBytes := rfl
@[simp] theorem State.wrote_inLen (l : List Byte) (s : State) : (s.wrote l).inLen = s.inLen := rfl
@[simp] theorem State.wrote_inMem (l : List Byte) (s : State) : (s.wrote l).inMem = s.inMem := rfl
@[simp] theorem State.wrote_freq (l : List Byte) (s : State) : (s.wrote l).freq = s.freq := rfl
@[simp] theorem State.wrote_outMem (l : List Byte) (s : State) : (s.wrote l).outMem = s.outMem.writeAll s.work.wp l := rfl
@[simp] theorem State.wrote_work (l : List Byte) (s : State) :
    (s.wrote l).work = { s.work with wp := s.work.wp + l.length } := rfl

theorem State.wrote_append (k l : List Byte) (s : State) : s.wrote (k ++ l) = (s.wrote k).wrote l := by
  simp [State.wrote, Mem.writeAll_append, Nat.add_assoc]

/-- The computation writes exactly the string `l` and changes nothing else, or raises `IoWrite` where `l` does not fit. -/
def Writes (P : Params) (m : Eng Unit) (l : List Byte) (s : State) : Prop :=
  (s.work.wp + l.length ≤ P.outCap → m s = .ok () (s.wrote l)) ∧
  (P.outCap < s.work.wp + l.length → s.work.wp ≤ P.outCap → ∃ t, m s = .error .ioWrite t)

theorem Writes.nothing (P : Params) (s : State) : Writes P (pure ()) [] s :=
  ⟨fun _ => rfl, fun h1 h2 => by simp at h1; omega⟩

theorem Writes.seq {P : Params} {m n : Eng Unit} {k l : List Byte} {s : State} (hm : Writes P m k s)
    (hn : Writes P n l (s.wrote k)) : Writes P (m >>= fun _ => n) (k ++ l) s := by
  refine ⟨fun h => ?_, fun h hw => ?_⟩
  · rw [List.length_append] at h
    rw [bind_of_ok (hm.1 (by omega)), State.wrote_append]
    exact hn.1 (by simp; omega)
  · rw [List.length_append] at h
    by_cases hk : s.work.wp + k.length ≤ P.outCap
    · rw [bind_of_ok (hm.1 hk)]
      exact hn.2 (by simp; omega) (by simpa using hk)
    · obtain ⟨t, ht⟩ := hm.2 (by omega) hw
      exact ⟨t, bind_of_error ht⟩

theorem outByte_writes (P : Params) (b : Byte) (s : State) : Writes P (outByte P b) [b] s := by
  unfold outByte
  refine ⟨fun h => if_pos ?_, fun h _ => ⟨s, if_neg ?_⟩⟩ <;> simp at h <;> omega

theorem outString_writes (P : Params) : ∀ (l : List Byte) (s : State), Writes P (outString P l) l s
  | [], s => Writes.nothing P s
  | b :: l, s => Writes.seq (outByte_writes P b s) (outString_writes P l _)

@[simp] theorem bigEndian_length (n v : Nat) : (bigEndian n v).length = n := by simp [bigEndian]

/-- `OutU(n, v)` writes `BE(n, v)`, or raises `IoWrite` when not all of it fits (R11). -/
theorem outU_writes (P : Params) (n v : Nat) (s : State) : Writes P (outU P n v) (bigEndian n v) s := by
  have key : outU P n v s = if s.work.wp + n ≤ P.outCap then outString P (bigEndian n v) s else .error .ioWrite s := rfl
  refine ⟨fun h => ?_, fun h _ => ⟨s, ?_⟩⟩ <;> rw [bigEndian_length] at h
  · rw [key, if_pos h]
    exact (outString_writes P _ s).1 (by simpa using h)
  · rw [key, if_neg (by omega)]

/-- The entries of a Huffman table (R93, R140). -/
theorem huffEntries_writes (P : Params) (t : CodeTable) : ∀ (l : List Byte) (s : State),
    Writes P (huffEntries P t l)
      (l.flatMap fun c => [c] ++ ([BitVec.ofNat 8 (codeOf t c).length] ++ pack (codeOf t c))) s
  | [], s => Writes.nothing P s
  | c :: l, s => by
    rw [List.flatMap_cons, List.append_assoc, List.append_assoc]
    exact (outByte_writes P _ _).seq ((outByte_writes P _ _).seq ((outString_writes P _ _).seq (huffEntries_writes P t l _)))

/-- The entries of a Shannon-Fano table (R96, R200). -/
theorem sfEntries_writes (P : Params) (t : CodeTable) : ∀ (l : List Byte) (s : State),
    Writes P (sfEntries P t l)
      (l.flatMap fun c => [c] ++ (bigEndian 2 (codeOf t c).length ++ (codeOf t c).map bitChar)) s
  | [], s => Writes.nothing P s
  | c :: l, s => by
    rw [List.flatMap_cons, List.append_assoc, List.append_assoc]
    exact (outByte_writes P _ _).seq ((outU_writes P _ _ _).seq ((outString_writes P _ _).seq (sfEntries_writes P t l _)))

/-- The tokens of LZ77 (R98, R247). -/
theorem outTokens_writes (P : Params) : ∀ (l : List Token) (s : State), Writes P (outTokens P l) (l.flatMap tokenBytes) s
  | [], s => Writes.nothing P s
  | t :: l, s => by
    have h : (t :: l).flatMap tokenBytes = [t.offset] ++ ([t.length] ++ ([t.symbol] ++ l.flatMap tokenBytes)) := rfl
    rw [h]
    exact (outByte_writes P _ _).seq ((outByte_writes P _ _).seq ((outByte_writes P _ _).seq (outTokens_writes P l _)))

/-- The codes of LZW (R99, R274). -/
theorem outCodes_writes (P : Params) : ∀ (l : List Nat) (s : State), Writes P (outCodes P l) (l.flatMap (bigEndian 2)) s
  | [], s => Writes.nothing P s
  | c :: l, s => by
    rw [List.flatMap_cons]
    exact (outU_writes P _ _ _).seq (outCodes_writes P l _)

/-- An operation that has written `l` from the start of `OUT` on, and nothing else, ends with the output `l` (R25, R302). -/
theorem doneWith_finishCoded (k : Bool) {l : List Byte} {s : State} (h0 : s.work.wp = 0) (hl : l.length < 2 ^ 64) :
    DoneWith ((s.wrote l).finishCoded k) l := by
  have hlen : ((s.wrote l).finishCoded k).outLen.toNat = l.length := by
    rw [State.finishCoded_outLen, State.wrote_work, BitVec.toNat_ofNat, h0, Nat.zero_add, Nat.mod_eq_of_lt hl]
  refine ⟨by simp, by simp, hlen, ?_⟩
  apply List.ext_getElem (by simp only [State.outBytes_length, hlen])
  intro i h1 hi
  have hread : ((s.wrote l).finishCoded k).outMem.read i = l[i] := by
    rw [State.finishCoded_outMem, Mem.read_forgetFrom]
    · simp [h0, Mem.read_writeAll, hi]
    · simpa [h0] using hi
    · simp [h0, Mem.listed_writeAll, hi]
  simpa only [State.outBytes, List.getElem_map, List.getElem_range] using hread

/-! ### The tables -/

@[simp] theorem countOf_zeroFreq (c : Byte) : countOf zeroFreq c = 0 := by simp [countOf, zeroFreq]

/-- `increment` adds 1 to one counter and leaves the others (R28). -/
theorem countOf_increment (f : FreqTable) (s c : Byte) :
    countOf (increment f s) c = if c = s then countOf f c + 1 else countOf f c := by
  by_cases h : c = s
  · subst h; simp [countOf, increment]
  · have h' : s.toNat ≠ c.toNat := fun h' => h (BitVec.eq_of_toNat_eq h'.symm)
    simp [countOf, increment, h, h']

/-- `setCode` gives one symbol its code and leaves the others (R33). -/
theorem codeOf_setCode (t : CodeTable) (s c : Byte) (b : Bits) :
    codeOf (setCode t s b) c = if c = s then b else codeOf t c := by
  by_cases h : c = s
  · subst h; simp [codeOf, setCode]
  · have h' : s.toNat ≠ c.toNat := fun h' => h (BitVec.eq_of_toNat_eq h'.symm)
    simp [codeOf, setCode, h, h']

/-- `S` is the set of the symbols with a count above 0 (R132, R192). -/
theorem mem_present (f : FreqTable) (c : Byte) : c ∈ present f ↔ countOf f c ≠ 0 := by
  have hz : (symbols.zip f.toList) = (List.range nsym).map fun i => (BitVec.ofNat 8 i, (f[i]?).getD 0) := by
    apply List.ext_getElem
    · simp [symbols]
    · intro i h1 h2
      have hi : i < 256 := by simpa [symbols] using h1
      simp [symbols, hi]
  simp only [present, hz, List.mem_map, List.mem_filter, List.mem_range, decide_eq_true_eq, Prod.exists, exists_and_right,
    exists_eq_right]
  constructor
  · rintro ⟨v, ⟨i, hi, h⟩, hv⟩
    obtain ⟨rfl, rfl⟩ := Prod.mk.inj h
    have hm : (BitVec.ofNat 8 i).toNat = i := by simp; omega
    intro h0
    have : f[i]? = some (0 : BitVec cntW) := by
      simp only [countOf, hm] at h0
      simp [hi, h0]
    simp [this] at hv
  · intro h
    refine ⟨countOf f c, ⟨c.toNat, c.isLt, ?_⟩, ?_⟩
    · simp [countOf, c.isLt]
    · exact Nat.pos_of_ne_zero fun h0 => h (BitVec.eq_of_toNat_eq (by simpa using h0))

end Sys2Proof.Machine
end

