-- ==== Sys2Proof/Laws/Operations.lean ====
section
/-! SUPPORT. The frame of the nine operations: every invariant that does not look at `FREQ`, `OUT` and the working state is carried
through the phases of each, and each raises only the errors of its row (R307). -/

namespace Sys2Proof.Machine

namespace Outside

variable {I : State → Prop} {es : List ErrKind} (hI : Outside I)
include hI

theorem freqCount (P : Params) : Carries I (mayRaise .freqCount) (Machine.freqCount P) :=
  hI.beginOp.bind fun _ => (Carries.checkRange P (by decide)).bind fun _ => (hI.phase _).bind fun _ =>
    hI.clearFreq.bind fun _ => (hI.phase _).bind fun _ => hI.countInput

/-! ### The encoders -/

theorem huffCheck (P : Params) (hr : ErrKind.range ∈ es) (he : ErrKind.emptyInput ∈ es) : Carries I es (Machine.huffCheck P) :=
  (hI.phase _).bind fun _ => (Carries.checkRange P hr).bind fun _ => hI.clearFreq.bind fun _ => Carries.get.bind fun _ =>
    Carries.ite (fun _ => Carries.raise he) fun _ => Carries.pure _

theorem huffBuildPhase : Carries I es Machine.huffBuildPhase :=
  (hI.phase _).bind fun _ => Carries.change fun s hs => hI s s.freq s.outMem _ hs

theorem huffCodegenPhase : Carries I es Machine.huffCodegenPhase := (hI.phase _).bind fun _ => hI.changeWork _

theorem huffHeader (P : Params) (h : ErrKind.ioWrite ∈ es) : Carries I es (Machine.huffHeader P) :=
  (hI.phase _).bind fun _ => Carries.get.bind fun _ => (hI.outU P _ _ h).bind fun _ => hI.outU P _ _ h

theorem huffEntries (P : Params) (t : CodeTable) (h : ErrKind.ioWrite ∈ es) : ∀ l, Carries I es (Machine.huffEntries P t l)
  | [] => Carries.pure _
  | _ :: r => (hI.outByte P _ h).bind fun _ => (hI.outByte P _ h).bind fun _ => (hI.outString P h _).bind fun _ =>
      huffEntries P t h r

theorem huffTable (P : Params) (h : ErrKind.ioWrite ∈ es) : Carries I es (Machine.huffTable P) :=
  (hI.phase _).bind fun _ => Carries.get.bind fun _ => hI.huffEntries P _ h _

theorem huffEnc (P : Params) : Carries I (mayRaise .huffEnc) (Machine.huffEnc P) :=
  hI.beginOp.bind fun _ => (hI.huffCheck P (by decide) (by decide)).bind fun _ => (hI.phase _).bind fun _ =>
    hI.countInput.bind fun _ => hI.huffBuildPhase.bind fun _ => hI.huffCodegenPhase.bind fun _ =>
    (hI.huffHeader P (by decide)).bind fun _ => (hI.huffTable P (by decide)).bind fun _ => hI.codedPayload P (by decide)

theorem sfEntries (P : Params) (t : CodeTable) (h : ErrKind.ioWrite ∈ es) : ∀ l, Carries I es (Machine.sfEntries P t l)
  | [] => Carries.pure _
  | _ :: r => (hI.outByte P _ h).bind fun _ => (hI.outU P _ _ h).bind fun _ => (hI.outString P h _).bind fun _ =>
      sfEntries P t h r

theorem sfTable (P : Params) (h : ErrKind.ioWrite ∈ es) : Carries I es (Machine.sfTable P) :=
  (hI.phase _).bind fun _ => Carries.get.bind fun _ => (hI.outU P _ _ h).bind fun _ => hI.sfEntries P _ h _

theorem sfBitCount (P : Params) (hr : ErrKind.range ∈ es) (h : ErrKind.ioWrite ∈ es) : Carries I es (Machine.sfBitCount P) :=
  (hI.phase _).bind fun _ => Carries.get.bind fun _ => Carries.ite (fun _ => Carries.raise hr) fun _ => hI.outU P _ _ h

theorem sfSortPhase : Carries I es Machine.sfSortPhase :=
  (hI.phase _).bind fun _ => Carries.change fun s hs => hI s s.freq s.outMem _ hs

theorem sfBisectPhase (P : Params) : Carries I es (Machine.sfBisectPhase P) :=
  (hI.phase _).bind fun _ => (hI.changeWork _).bind fun _ => hI.changeWork _

theorem sfEnc (P : Params) : Carries I (mayRaise .sfEnc) (Machine.sfEnc P) :=
  hI.beginOp.bind fun _ => ((hI.phase _).bind fun _ => Carries.checkRange P (by decide)).bind fun _ =>
    (hI.phase _).bind fun _ => hI.clearFreq.bind fun _ => hI.countInput.bind fun _ => hI.sfSortPhase.bind fun _ =>
    (hI.sfBisectPhase P).bind fun _ => (hI.sfTable P (by decide)).bind fun _ =>
    (hI.sfBitCount P (by decide) (by decide)).bind fun _ => hI.codedPayload P (by decide)

theorem outTokens (P : Params) (h : ErrKind.ioWrite ∈ es) : ∀ l, Carries I es (Machine.outTokens P l)
  | [] => Carries.pure _
  | _ :: r => (hI.outByte P _ h).bind fun _ => (hI.outByte P _ h).bind fun _ => (hI.outByte P _ h).bind fun _ =>
      outTokens P h r

theorem lz77Enc (P : Params) : Carries I (mayRaise .lz77Enc) (Machine.lz77Enc P) :=
  hI.beginOp.bind fun _ => (hI.phase _).bind fun _ => (Carries.checkRange P (by decide)).bind fun _ =>
    (hI.phase _).bind fun _ => Carries.get.bind fun _ => (hI.phase _).bind fun _ =>
    (hI.outU P _ _ (by decide)).bind fun _ => hI.outTokens P (by decide) _

theorem outCodes (P : Params) (h : ErrKind.ioWrite ∈ es) : ∀ l, Carries I es (Machine.outCodes P l)
  | [] => Carries.pure _
  | _ :: r => (hI.outU P _ _ h).bind fun _ => outCodes P h r

theorem lzwEnc (P : Params) : Carries I (mayRaise .lzwEnc) (Machine.lzwEnc P) :=
  hI.beginOp.bind fun _ => (hI.phase _).bind fun _ => (Carries.checkRange P (by decide)).bind fun _ =>
    (hI.phase _).bind fun _ => (hI.changeWork _).bind fun _ => (hI.phase _).bind fun _ => Carries.get.bind fun _ =>
    (hI.changeWork _).bind fun _ => (hI.phase _).bind fun _ => (hI.phase _).bind fun _ =>
    (hI.outU P _ _ (by decide)).bind fun _ => hI.outCodes P (by decide) _

/-! ### The decoders -/

theorem insertCode (c : Byte) (b : Bits) (h : ErrKind.invalidContainer ∈ es) : Carries I es (Machine.insertCode c b) := by
  refine Carries.getWork.bind fun w => ?_
  split
  · exact hI.changeWork _
  · exact Carries.raise h

theorem huffReadTable (hr : ErrKind.ioRead ∈ es) (hc : ErrKind.invalidContainer ∈ es) :
    ∀ n, Carries I es (Machine.huffReadTable n)
  | 0 => Carries.pure _
  | n + 1 => ((hI.inByte hr).bind fun _ => (hI.inByte hr).bind fun _ => Carries.ite (fun _ => Carries.raise hc) fun _ =>
      (hI.inBytesN hr _).bind fun _ => hI.insertCode _ _ hc).bind fun _ => huffReadTable hr hc n

theorem huffWalk (P : Params) (hr : ErrKind.ioRead ∈ es) (hw : ErrKind.ioWrite ∈ es) (hc : ErrKind.corruptStream ∈ es) :
    ∀ fuel left v, Carries I es (Machine.huffWalk P fuel left v)
  | _, 0, _ => by simp only [Machine.huffWalk]; exact Carries.pure _
  | 0, _ + 1, _ => Carries.raise hr
  | fuel + 1, left + 1, v => by
    simp only [Machine.huffWalk]
    refine (hI.getBit hr).bind fun d => Carries.getWork.bind fun w => ?_
    split
    · exact Carries.raise hc
    · split
      · exact (hI.outByte P _ hw).bind fun _ => huffWalk P hr hw hc fuel left 0
      · exact huffWalk P hr hw hc fuel (left + 1) _

theorem huffDec (P : Params) : Carries I (mayRaise .huffDec) (Machine.huffDec P) :=
  hI.beginOp.bind fun _ => (hI.phase _).bind fun _ => (Carries.checkRange P (by decide)).bind fun _ =>
    (hI.inU _ (by decide)).bind fun _ => (hI.inU _ (by decide)).bind fun _ =>
    Carries.ite (fun _ => Carries.raise (by decide)) fun _ => Carries.ite (fun _ => Carries.raise (by decide)) fun _ =>
    (hI.phase _).bind fun _ => (hI.changeWork _).bind fun _ => (hI.huffReadTable (by decide) (by decide) _).bind fun _ =>
    (hI.phase _).bind fun _ => hI.startPayload.bind fun _ => Carries.get.bind fun _ =>
    hI.huffWalk P (by decide) (by decide) (by decide) _ _ _

theorem sfReadTable (P : Params) (hr : ErrKind.ioRead ∈ es) (hc : ErrKind.invalidContainer ∈ es) :
    ∀ n, Carries I es (Machine.sfReadTable P n)
  | 0 => Carries.pure _
  | n + 1 => ((hI.inByte hr).bind fun _ => (hI.inU _ hr).bind fun _ => Carries.ite (fun _ => Carries.raise hc) fun _ =>
      (hI.inBytesN hr _).bind fun _ => hI.changeWork _).bind fun _ => sfReadTable P hr hc n

theorem sfScan (P : Params) (hr : ErrKind.ioRead ∈ es) (hw : ErrKind.ioWrite ∈ es) : ∀ n, Carries I es (Machine.sfScan P n)
  | 0 => Carries.pure _
  | n + 1 => by
    refine Carries.bind ((hI.getBit hr).bind fun _ => (hI.changeWork _).bind fun _ => Carries.getWork.bind fun w => ?_)
      fun _ => sfScan P hr hw n
    split
    · exact (hI.outByte P _ hw).bind fun _ => hI.changeWork _
    · exact Carries.pure _

theorem sfDec (P : Params) : Carries I (mayRaise .sfDec) (Machine.sfDec P) :=
  hI.beginOp.bind fun _ => (hI.phase _).bind fun _ => (Carries.checkRange P (by decide)).bind fun _ =>
    (hI.inU _ (by decide)).bind fun _ => Carries.ite (fun _ => Carries.pure _) fun _ =>
    Carries.ite (fun _ => Carries.raise (by decide)) fun _ => (hI.phase _).bind fun _ => (hI.changeWork _).bind fun _ =>
    (hI.sfReadTable P (by decide) (by decide) _).bind fun _ => (hI.phase _).bind fun _ => (hI.inU _ (by decide)).bind fun _ =>
    (hI.phase _).bind fun _ => hI.startPayload.bind fun _ => (hI.changeWork _).bind fun _ =>
    hI.sfScan P (by decide) (by decide) _

theorem copyBack (P : Params) (h : ErrKind.ioWrite ∈ es) : ∀ n a, Carries I es (Machine.copyBack P n a)
  | 0, _ => Carries.pure _
  | n + 1, a => Carries.get.bind fun _ => (hI.outByte P _ h).bind fun _ => copyBack P h n (a + 1)

theorem replayTokens (P : Params) (hr : ErrKind.ioRead ∈ es) (hw : ErrKind.ioWrite ∈ es) (hc : ErrKind.corruptStream ∈ es) :
    ∀ n, Carries I es (Machine.replayTokens P n)
  | 0 => Carries.pure _
  | n + 1 => ((hI.inByte hr).bind fun _ => (hI.inByte hr).bind fun _ => (hI.inByte hr).bind fun _ => Carries.getWork.bind fun _ =>
      Carries.ite (fun _ => Carries.raise hc) fun _ => (hI.copyBack P hw _ _).bind fun _ => hI.outByte P _ hw).bind fun _ =>
      replayTokens P hr hw hc n

theorem lz77Dec (P : Params) : Carries I (mayRaise .lz77Dec) (Machine.lz77Dec P) :=
  hI.beginOp.bind fun _ => (hI.phase _).bind fun _ => (Carries.checkRange P (by decide)).bind fun _ =>
    (hI.inU _ (by decide)).bind fun _ => Carries.ite (fun _ => Carries.raise (by decide)) fun _ =>
    (hI.phase _).bind fun _ => hI.replayTokens P (by decide) (by decide) (by decide) _

theorem lzwReplay (P : Params) (hr : ErrKind.ioRead ∈ es) (hw : ErrKind.ioWrite ∈ es) (hc : ErrKind.corruptStream ∈ es) :
    ∀ n prev, Carries I es (Machine.lzwReplay P n prev)
  | 0, _ => Carries.pure _
  | n + 1, prev => by
    refine (hI.inU _ hr).bind fun c => Carries.getWork.bind fun w => ?_
    split
    · exact Carries.raise hc
    · exact (hI.outString P hw _).bind fun _ => (hI.changeWork _).bind fun _ => lzwReplay P hr hw hc n _

theorem lzwDec (P : Params) : Carries I (mayRaise .lzwDec) (Machine.lzwDec P) :=
  hI.beginOp.bind fun _ => (hI.phase _).bind fun _ => (Carries.checkRange P (by decide)).bind fun _ =>
    (hI.inU _ (by decide)).bind fun _ => Carries.ite (fun _ => Carries.raise (by decide)) fun _ =>
    (hI.phase _).bind fun _ => (hI.changeWork _).bind fun _ => (hI.phase _).bind fun _ => (hI.inU _ (by decide)).bind fun _ =>
    Carries.ite (fun _ => Carries.raise (by decide)) fun _ => (hI.outString P (by decide) _).bind fun _ =>
    (hI.phase _).bind fun _ => hI.lzwReplay P (by decide) (by decide) (by decide) _ _

end Outside

/-! ### All nine at once -/

/-- The phases of an operation up to its last one. -/
def phases (P : Params) : Instr → Eng Unit
  | .freqCount => freqCount P
  | .huffEnc => huffEnc P
  | .huffDec => huffDec P
  | .sfEnc => sfEnc P
  | .sfDec => sfDec P
  | .lz77Enc => lz77Enc P
  | .lz77Dec => lz77Dec P
  | .lzwEnc => lzwEnc P
  | .lzwDec => lzwDec P

/-- The last phase of an operation. -/
def lastPhase : Instr → State → State
  | .freqCount => State.finishCount
  | .huffEnc => State.finishCoded true
  | .huffDec => State.finishCoded false
  | .sfEnc => State.finishCoded true
  | .sfDec => State.finishCoded false
  | .lz77Enc => State.finishCoded false
  | .lz77Dec => State.finishCoded false
  | .lzwEnc => State.finishCoded false
  | .lzwDec => State.finishCoded false

/-- Every meaning runs its phases and ends. -/
theorem exec_eq (i : Instr) (s : State) : exec i s = runOp (lastPhase i) (phases params i) s := by cases i <;> rfl

/-- Every operation carries such an invariant, and raises only the errors of its row. -/
theorem phases_carries {I : State → Prop} (hI : Outside I) (P : Params) (i : Instr) : Carries I (mayRaise i) (phases P i) := by
  cases i
  · exact hI.freqCount P
  · exact hI.huffEnc P
  · exact hI.huffDec P
  · exact hI.sfEnc P
  · exact hI.sfDec P
  · exact hI.lz77Enc P
  · exact hI.lz77Dec P
  · exact hI.lzwEnc P
  · exact hI.lzwDec P

end Sys2Proof.Machine
end

