-- ==== Sys2Proof/Laws/PerInstr.lean ====
section
/-! SUPPORT. A statement about each instruction as syntax: its code is a legal one and names it, and its command word
has `ZERO` = 0 above that code (R80 to R82). One lemma a constructor. -/

namespace Sys2Proof.Laws.Encoding

/-- The word of the instruction has `ZERO` = 0 and its code in `OP`, and the code names the instruction. -/
def Statement (i : Instr) : Prop :=
  i.wf = true ∧ cmdZero (encode i) = 0 ∧ cmdOp (encode i) = i.opCode ∧ decodeOp i.opCode = some i

theorem freqCount : Statement .freqCount := by unfold Statement; decide
theorem huffEnc : Statement .huffEnc := by unfold Statement; decide
theorem huffDec : Statement .huffDec := by unfold Statement; decide
theorem sfEnc : Statement .sfEnc := by unfold Statement; decide
theorem sfDec : Statement .sfDec := by unfold Statement; decide
theorem lz77Enc : Statement .lz77Enc := by unfold Statement; decide
theorem lz77Dec : Statement .lz77Dec := by unfold Statement; decide
theorem lzwEnc : Statement .lzwEnc := by unfold Statement; decide
theorem lzwDec : Statement .lzwDec := by unfold Statement; decide

end Sys2Proof.Laws.Encoding
end

