-- ==== Sys2Proof/Laws/Step.lean ====
section
/-! SUPPORT. Everything that a step can do: whose move it is, and what each move does. -/

namespace Sys2Proof.Machine

theorem stateField_of_status {s : State} {e : EngState} (h : s.status = statusWord e) : s.stateField = e.code := by
  cases e <;> simp [State.stateField, h, statusWord, EngState.code]

theorem isBusy_iff (s : State) : s.isBusy = true ↔ s.stateField = 1 := by simp [State.isBusy, EngState.code]

/-- A step is the engine's turn, a host transaction or a reset. -/
theorem step_cases {s t : State} (h : step s = .next t) :
    (s.engineTurn = true ∧ engineMove s.popped = .next t) ∨
    (∃ x rest, s.agenda = .host x :: rest ∧ hostMove params x s.popped = .next t) ∨
    (∃ rest, s.agenda = .reset :: rest ∧ t = s.popped.resetMove) := by
  unfold step at h
  split at h
  · next ha =>
    refine .inl ⟨by simp [State.engineTurn, ha], ?_⟩
    obtain ⟨⟩ := s
    subst ha
    exact h
  · next m rest ha =>
    have hp : { s with agenda := rest } = s.popped := by simp [State.popped, ha]
    rw [hp] at h
    cases m with
    | host x => exact .inr (.inl ⟨x, rest, ha, h⟩)
    | reset => cases h; exact .inr (.inr ⟨rest, ha, rfl⟩)
    | engine => exact .inl ⟨by simp [State.engineTurn, ha], h⟩

/-- Everything that the engine's turn can do. -/
theorem engineMove_cases {s t : State} (h : engineMove s = .next t) :
    (s.isBusy = false ∧ t = s) ∨
    (s.isBusy = true ∧ s.disturbed = true ∧ t = s.drawnResult params) ∨
    (s.isBusy = true ∧ s.disturbed = false ∧ ∃ i, decodeOp s.op = some i ∧ exec i s = .next t) ∨
    (s.isBusy = true ∧ s.disturbed = false ∧ decodeOp s.op = none ∧ t = s.badCommand) := by
  unfold engineMove at h
  split at h
  · next hb =>
    split at h
    · next hd => cases h; exact .inr (.inl ⟨hb, hd, rfl⟩)
    · next hd =>
      have hd' : s.disturbed = false := by simpa using hd
      split at h
      · next i hi => exact .inr (.inr (.inl ⟨hb, hd', i, hi, h⟩))
      · next hi => cases h; exact .inr (.inr (.inr ⟨hb, hd', hi, rfl⟩))
  · next hb => cases h; exact .inl ⟨by simpa using hb, rfl⟩

/-- Everything that a host transaction can do when it does not stop: one of the three writes, or a read. -/
theorem hostMove_cases {P : Params} {x : HostTxn} {s t : State} (h : hostMove P x s = .next t) :
    (∃ a b, x = .writeIn a b ∧ a < P.inCap ∧ t = s.writeIn a b) ∨
    (∃ v, x = .writeInLen v ∧ t = s.writeInLen v) ∨
    (∃ w, x = .writeCmd w ∧ t = s.writeCmd w) ∨
    (isRead x = true ∧ ((∃ v, t = s.hostGets v) ∨ ∃ n v, t = s.hostReads n v)) := by
  cases x with
  | writeIn a b =>
    simp only [hostMove] at h
    split at h
    · next ha => cases h; exact .inl ⟨a, b, rfl, ha, rfl⟩
    · cases h
  | writeInLen v => cases h; exact .inr (.inl ⟨v, rfl, rfl⟩)
  | writeCmd w => cases h; exact .inr (.inr (.inl ⟨w, rfl, rfl⟩))
  | readStatus => cases h; exact .inr (.inr (.inr ⟨rfl, .inl ⟨_, rfl⟩⟩))
  | readErr => cases h; exact .inr (.inr (.inr ⟨rfl, .inr ⟨_, _, rfl⟩⟩))
  | readOutLen => cases h; exact .inr (.inr (.inr ⟨rfl, .inr ⟨_, _, rfl⟩⟩))
  | readOut a =>
    simp only [hostMove] at h
    split at h
    · cases h; exact .inr (.inr (.inr ⟨rfl, .inr ⟨_, _, rfl⟩⟩))
    · cases h
  | readFreq c => cases h; exact .inr (.inr (.inr ⟨rfl, .inr ⟨_, _, rfl⟩⟩))
  | readIn a =>
    simp only [hostMove] at h
    split at h
    · cases h; exact .inr (.inr (.inr ⟨rfl, .inr ⟨_, _, rfl⟩⟩))
    · cases h
  | readInLen => cases h; exact .inr (.inr (.inr ⟨rfl, .inl ⟨_, rfl⟩⟩))
  | readCmd => cases h; exact .inr (.inr (.inr ⟨rfl, .inl ⟨_, rfl⟩⟩))

end Sys2Proof.Machine
end

