-- ==== Sys2Proof/Tests/Slice0.lean ====
section
/-! SUPPORT. The model's own tests, with expected results from spec/95_test_vectors.md (the label of the vector stands at each
test) and from the rules, and for every statement with hypotheses a witness that meets them. -/

namespace Sys2Proof.Machine.Tests

open Sys2Proof Sys2Proof.Machine

-- One theorem at a time: evaluated theorems that wait for each other would each hold a thread.
set_option Elab.async false

/-! ## Small states -/

/-- The memory that holds a byte string from address 0 on. -/
def holding (x : List Byte) (epoch : Nat) : Mem := { cells := x.zipIdx.map fun e => (e.2, e.1), epoch := epoch }

/-- The state after reset with an input loaded. -/
def loaded (x : List Byte) : State :=
  { State.reset with inMem := holding x 1, inLen := BitVec.ofNat 64 x.length }

/-- The state an operation leaves. -/
def after : Host.Outcome State Fault Refusal → State
  | .next t => t
  | .fault _ => State.reset
  | .refused _ => State.reset

/-- Every meaning answers the state that `after` takes out. -/
theorem exec_after (i : Instr) (s : State) : exec i s = .next (after (exec i s)) := by
  rw [exec_eq]
  unfold runOp
  split <;> rfl

/-- What the host sees of an ended operation: `STATUS`, `ERR` and the output. -/
def seen (t : State) : Word × Word × List Byte := (t.status, t.err, t.outBytes)

/-- What the host sees after an operation on an input. -/
def ran (i : Instr) (x : List Byte) : Word × Word × List Byte := seen (after (exec i (loaded x)))

/-- "ABRACADABRA". -/
def abracadabra : List Byte := [0x41, 0x42, 0x52, 0x41, 0x43, 0x41, 0x44, 0x41, 0x42, 0x52, 0x41]

/-- "ABABABAB". -/
def abababab : List Byte := [0x41, 0x42, 0x41, 0x42, 0x41, 0x42, 0x41, 0x42]

/-! ## WellFormed: an ill-formed term for each check -/

theorem test_wf_defaults : params.wf = true := by decide
theorem test_wf_inCap_zero : Params.wf { inCap := 0 } = false := by decide
theorem test_wf_inCap_high : Params.wf { inCap := 2 ^ 31 } = false := by decide
theorem test_wf_outCap_zero : Params.wf { outCap := 0 } = false := by decide
theorem test_wf_outCap_high : Params.wf { outCap := 2 ^ 63 } = false := by decide
theorem test_wf_counter_width : Params.wf { inCap := 2 ^ 64 } = false := by decide
theorem test_wf_hdecTable : Params.wf { hdecTableMax := 255 } = false := by decide
theorem test_wf_sfdecTable : Params.wf { sfdecTableMax := 255 } = false := by decide
theorem test_wf_sfdecCode : Params.wf { sfdecCodeMax := 254 } = false := by decide
theorem test_op_reserved : legalOp 0x0 = false ∧ legalOp 0xA = false ∧ legalOp 0xF = false := by decide
theorem test_command_zero_field : legalCommand 0x00000012 = false ∧ legalCommand 0x80000001 = false := by decide
theorem test_command_reserved : legalCommand 0x00000000 = false ∧ legalCommand 0x0000000A = false := by decide

/-! ## Decode: the words of R81 bit by bit, and the words that are none (C2 to C5) -/

theorem test_decode_freqCount : decode 0b00000000000000000000000000000001 = .ok .freqCount := by decide
theorem test_decode_huffEnc : decode 0b00000000000000000000000000000010 = .ok .huffEnc := by decide
theorem test_decode_huffDec : decode 0b00000000000000000000000000000011 = .ok .huffDec := by decide
theorem test_decode_sfEnc : decode 0b00000000000000000000000000000100 = .ok .sfEnc := by decide
theorem test_decode_sfDec : decode 0b00000000000000000000000000000101 = .ok .sfDec := by decide
theorem test_decode_lz77Enc : decode 0b00000000000000000000000000000110 = .ok .lz77Enc := by decide
theorem test_decode_lz77Dec : decode 0b00000000000000000000000000000111 = .ok .lz77Dec := by decide
theorem test_decode_lzwEnc : decode 0b00000000000000000000000000001000 = .ok .lzwEnc := by decide
theorem test_decode_lzwDec : decode 0b00000000000000000000000000001001 = .ok .lzwDec := by decide
theorem test_decode_zero : decode 0x00000000 = .error (.reservedOp 0x0) := by decide
theorem test_decode_ten : decode 0x0000000A = .error (.reservedOp 0xA) := by decide
theorem test_decode_bit4 : decode 0x00000012 = .error .zeroFieldSet := by decide
theorem test_decode_bit31 : decode 0x80000001 = .error .zeroFieldSet := by decide
theorem test_decode_table : decodeTableWord 32 7 = some .lz77Dec ∧ decodeTableWord 32 (2 ^ 32 + 7) = none := by decide

/-! ## Fields and bits (R86, R87, 2.9) -/

theorem test_bigEndian : bigEndian 4 10 = [0, 0, 0, 0x0A] ∧ bigEndian 2 258 = [1, 2] := by decide
theorem test_s32 : s32 0x80000000 = -2147483648 ∧ s32 0xFFFFFFFF = -1 ∧ s32 0x7FFFFFFF = 2147483647 := by decide
theorem test_pack_short : pack [] = [] ∧ pack [true, true, false] = [0xC0] ∧ pack (List.replicate 10 false) = [0, 0] := by decide
theorem test_pack_nine : pack [false, false, false, false, false, true, false, true, true] = [0x05, 0x80] := by decide

/-! ## The nine operations: at most two vectors each -/

/-- F1; and every cell of `OUT`, whatever it held, is the next draw (R25). -/
theorem test_freqCount_histogram :
    let s := { loaded [0x41, 0x41, 0x41, 0x41, 0x42, 0x42, 0x42, 0x43, 0x43, 0x44] with outMem := holding [0x55] 0 }
    let t := after (exec .freqCount s)
    t.status = 2 ∧ t.outLen = 0 ∧ countOf t.freq 0x41 = 4 ∧ countOf t.freq 0x42 = 3 ∧ countOf t.freq 0x43 = 2 ∧
      countOf t.freq 0x44 = 1 ∧ total t.freq = 10 ∧ t.outMem = { cells := [], epoch := s.draws } := by decide +kernel

/-- F5. -/
theorem test_freqCount_range :
    seen (after (exec .freqCount { loaded [] with inLen := 2 ^ 24 + 1 })) = (3, 7, []) := by decide +kernel

/-- H13. -/
theorem test_huffEnc_abracadabra : ran .huffEnc abracadabra =
    (2, 0, [0, 0, 0, 0, 0, 0, 0, 0x0B, 0, 0, 0, 5, 0x41, 1, 0, 0x42, 3, 0xC0, 0x43, 3, 0x80, 0x44, 3, 0xA0, 0x52, 3, 0xE0,
      0x6E, 0x8A, 0xDC]) := by decide +kernel

/-- H16. -/
theorem test_huffEnc_empty : ran .huffEnc [] = (3, 1, []) := by decide +kernel

/-- HD15: pad bits are ignored. -/
theorem test_huffDec_pad_bits : ran .huffDec
    [0, 0, 0, 0, 0, 0, 0, 3, 0, 0, 0, 2, 0x41, 1, 0x7F, 0x42, 1, 0xFF, 0xA0] = (2, 0, [0x42, 0x41, 0x42]) := by decide +kernel

/-- HD8: the second payload bit selects an absent child. -/
theorem test_huffDec_absent_child : ran .huffDec
    [0, 0, 0, 0, 0, 0, 0, 2, 0, 0, 0, 1, 0x41, 1, 0, 0x40] = (3, 3, []) := by decide +kernel

/-- S13e. -/
theorem test_sfEnc_abracadabra : ran .sfEnc abracadabra =
    (2, 0, [0, 0, 0, 5, 0x41, 0, 2, 0x30, 0x30, 0x42, 0, 2, 0x30, 0x31, 0x43, 0, 3, 0x31, 0x31, 0x30, 0x44, 0, 3, 0x31, 0x31,
      0x31, 0x52, 0, 2, 0x31, 0x30, 0, 0, 0, 0x18, 0x18, 0xC7, 0x18]) := by decide +kernel

/-- 2.4, the other reading of the threshold: with `SF_HALF = floor`, "ABC" has the codes 0, 10, 11. -/
theorem test_sfEnc_floor :
    seen (after (sfEncWith { sfHalf := .floor } (loaded [0x41, 0x42, 0x43]))) =
      (2, 0, [0, 0, 0, 3, 0x41, 0, 1, 0x30, 0x42, 0, 2, 0x31, 0x30, 0x43, 0, 2, 0x31, 0x31, 0, 0, 0, 5, 0x58]) := by decide +kernel

/-- SD7: of two entries with one key the later one wins. -/
theorem test_sfDec_duplicate_key : ran .sfDec
    [0, 0, 0, 2, 0x41, 0, 1, 0x30, 0x42, 0, 1, 0x30, 0, 0, 0, 2, 0] = (2, 0, [0x42, 0x42]) := by decide +kernel

/-- SD2: a negative table size is a no-op. -/
theorem test_sfDec_negative_table : ran .sfDec [0xFF, 0xFF, 0xFF, 0xFF] = (2, 0, []) := by decide +kernel

/-- Z10. -/
theorem test_lz77Enc_abracadabra : ran .lz77Enc abracadabra =
    (2, 0, [0, 0, 0, 6, 0, 0, 0x41, 0, 0, 0x42, 0, 0, 0x52, 3, 1, 0x43, 2, 1, 0x44, 7, 3, 0x41]) := by decide +kernel

/-- Z12: the tie is kept by the nearer offset. -/
theorem test_lz77Enc_tie : ran .lz77Enc [0x41, 0x42, 0x58, 0x41, 0x42, 0x59, 0x41, 0x42, 0x5A, 0x51] =
    (2, 0, [0, 0, 0, 6, 0, 0, 0x41, 0, 0, 0x42, 0, 0, 0x58, 3, 2, 0x59, 3, 2, 0x5A, 0, 0, 0x51]) := by decide +kernel

/-- LD5: the overlapping copy. -/
theorem test_lz77Dec_overlap : ran .lz77Dec [0, 0, 0, 2, 0, 0, 0x41, 1, 5, 0x42] =
    (2, 0, [0x41, 0x41, 0x41, 0x41, 0x41, 0x41, 0x42]) := by decide +kernel

/-- LD4: offset 0 with a length. -/
theorem test_lz77Dec_offset_zero : ran .lz77Dec [0, 0, 0, 1, 0, 1, 0x41] = (3, 3, []) := by decide +kernel

/-- W6. -/
theorem test_lzwEnc_scenario : ran .lzwEnc abababab =
    (2, 0, [0, 0, 0, 5, 0, 0x41, 0, 0x42, 1, 0, 1, 2, 0, 0x42]) := by decide +kernel

/-- W4: the flush emits the code of the last string. -/
theorem test_lzwEnc_flush : ran .lzwEnc (List.replicate 8 0x41) =
    (2, 0, [0, 0, 0, 4, 0, 0x41, 1, 0, 1, 1, 1, 0]) := by decide +kernel

/-- WD5: the self-reference. -/
theorem test_lzwDec_self_reference : ran .lzwDec [0, 0, 0, 2, 0, 0x41, 1, 0] = (2, 0, [0x41, 0x41, 0x41]) := by decide +kernel

/-- WD4: a code above the size of the dictionary. -/
theorem test_lzwDec_invalid_code : ran .lzwDec [0, 0, 0, 2, 0, 0x41, 1, 1] = (3, 3, []) := by decide +kernel

/-! ## Steps -/

/-- A step from a state with one move to make. -/
def stepOf (m : Move) (s : State) : State := after (step { s with agenda := [m] })

/-- C1. -/
theorem test_reset_registers : State.reset.status = 0 ∧ State.reset.err = 0 ∧ State.reset.inLen = 0 ∧ State.reset.outLen = 0 := by
  decide

/-- C2. -/
theorem test_step_bad_command : (stepOf (.host (.writeCmd 0)) State.reset).status = 3 ∧
    (stepOf (.host (.writeCmd 0)) State.reset).err = 6 := by decide +kernel

/-- C6: a legal command after an error starts (R301, R308). -/
theorem test_step_start_after_error :
    let t := stepOf (command .huffEnc) { loaded [0x41] with status := 3, err := 6 }
    t.status = 1 ∧ t.err = 0 ∧ t.op = 2 := by decide +kernel

/-- C7. -/
theorem test_step_read_cmd : (stepOf (.host .readCmd) { State.reset with hostData := 5 }).hostData = 0 := by decide +kernel

/-- R41: a command while `BUSY` is ignored. -/
theorem test_step_command_while_busy :
    (stepOf (command .lzwDec) ((loaded [0x41]).start 2)).op = 2 := by decide +kernel

/-- R44: `IN_LEN` is not written while `BUSY`, and takes any value otherwise (U11). -/
theorem test_step_in_len : (stepOf (.host (.writeInLen 9)) ((loaded [0x41]).start 2)).inLen = 1 ∧
    (stepOf (.host (.writeInLen 0xFFFFFFFFFFFFFFFF)) State.reset).inLen = 0xFFFFFFFFFFFFFFFF := by decide +kernel

/-- The engine's turn runs the latched operation: H1 by way of a step. -/
theorem test_step_runs_latched : seen (stepOf .engine ((loaded [0x41]).start 2)) =
    (2, 0, [0, 0, 0, 0, 0, 0, 0, 1, 0, 0, 0, 1, 0x41, 1, 0, 0]) := by decide +kernel

/-- R341: a reset while `BUSY` abandons the operation. -/
theorem test_step_reset_busy : (stepOf .reset ((loaded [0x41]).start 2)).status = 0 := by decide +kernel

/-- A host write to a cell that does not exist stops (notes/assumptions/10). -/
theorem test_step_no_such_cell :
    step { State.reset with agenda := [.host (.writeIn (2 ^ 24) 0)] } = .fault (.noSuchInCell (2 ^ 24)) := by rfl

/-- The interface of R81: the word of each row, placed by `withFetchWord`, is run by the next step after reset. -/
theorem test_fetchWord_runs :
    ∀ w ∈ [1, 2, 3, 4, 5, 6, 7, 8, 9], (after (step (State.reset.withFetchWord 32 w))).status ≠ 1 := by decide +kernel

/-! ## Witnesses: states and operands that meet the hypotheses of each statement -/

/-- `BUSY` with `HUFF.ENC` on one byte. -/
def busyState : State := (loaded [0x41]).start 2

/-- A state with one move to make. -/
def withMove (m : Move) (s : State) : State := { s with agenda := [m] }

theorem witness_DecodeEncodeAgree : Instr.freqCount.wf = true ∧ Instr.lzwDec.wf = true := by decide

theorem witness_IllegalCommandIsBadCmd :
    (withMove (.host (.writeCmd 0)) State.reset).agenda = [.host (.writeCmd 0)] ∧ State.reset.isBusy = false ∧
    (0x00000011 : Word).extractLsb' 4 28 ≠ 0 ∧ (0x00000000 : Word).extractLsb' 0 4 = 0 ∧
    0xA ≤ ((0x0000000A : Word).extractLsb' 0 4).toNat ∧ 0xA ≤ ((0x0000000F : Word).extractLsb' 0 4).toNat := by decide

theorem witness_CommandWriteStartsOrIsIgnored :
    (withMove (.host (.writeCmd 9)) busyState).agenda = [.host (.writeCmd 9)] ∧
    (withMove (.host (.writeCmd 9)) busyState).isBusy = true ∧
    (withMove (.host (.writeCmd 1)) State.reset).isBusy = false ∧ 1 ≤ (1 : Word).toNat ∧ (9 : Word).toNat ≤ 9 := by
  refine ⟨rfl, ?_⟩
  decide

theorem witness_InLenRegister :
    (withMove (.host (.writeInLen 0)) busyState).isBusy = true ∧ (withMove (.host (.writeInLen 0)) State.reset).isBusy = false ∧
    (withMove (.host .readInLen) State.reset).agenda = [.host .readInLen] ∧
    params.inCap < ({ State.reset with inLen := 2 ^ 24 + 1 } : State).inLen.toNat := by decide

theorem witness_HostReadsReturnTheRegister :
    State.reset.isBusy = false ∧ 2 ^ 24 - 1 < params.outCap ∧ 2 ^ 24 - 1 < params.inCap ∧
    (withMove (.host .readStatus) State.reset).agenda = [.host .readStatus] ∧
    (withMove (.host .readCmd) State.reset).agenda = [.host .readCmd] ∧
    (withMove (.host .readErr) State.reset).agenda = [.host .readErr] ∧
    (withMove (.host .readOutLen) State.reset).agenda = [.host .readOutLen] ∧
    (withMove (.host (.readFreq 255)) State.reset).agenda = [.host (.readFreq 255)] ∧
    (withMove (.host (.readOut (2 ^ 24 - 1))) State.reset).agenda = [.host (.readOut (2 ^ 24 - 1))] ∧
    (withMove (.host (.readIn (2 ^ 24 - 1))) State.reset).agenda = [.host (.readIn (2 ^ 24 - 1))] := by decide

theorem witness_HostReadsDisturbNothing :
    isRead (.readOut 0) = true ∧ (withMove (.host (.readOut 0)) busyState).agenda = [.host (.readOut 0)] ∧
    step (withMove (.host (.readOut 0)) busyState) = .next (after (step (withMove (.host (.readOut 0)) busyState))) :=
  ⟨rfl, rfl, rfl⟩

theorem witness_StatusMovesOnlyAsListed :
    busyState.isBusy = true ∧ busyState.engineTurn = true ∧ (withMove .engine busyState).engineTurn = true ∧
    step (withMove .reset busyState) = .next (after (step (withMove .reset busyState))) ∧ State.reset.isBusy = false ∧
    legalCommand 9 = true ∧ legalCommand 10 = false :=
  ⟨by decide, by decide, by decide, rfl, by decide, by decide, by decide⟩

theorem witness_StepRunsLatchedOperation :
    busyState.isBusy = true ∧ busyState.disturbed = false ∧ decodeOp busyState.op = some .huffEnc ∧
    busyState.engineTurn = true := by decide

theorem witness_FetchWordStepRunsIt :
    decodeTableWord 32 1 = some .freqCount ∧ decodeTableWord 32 9 = some .lzwDec := by decide

theorem witness_ResetLeavesRegistersZero : (withMove .reset busyState).agenda = [.reset] := rfl

theorem witness_DisturbedOperationStillEnds :
    ({ busyState with agenda := [.host (.writeIn (2 ^ 24 - 1) 0), .engine] } : State).isBusy = true ∧
    2 ^ 24 - 1 < params.inCap := by decide

theorem witness_HostCopyMakesOutputTheInput :
    State.reset.isBusy = false ∧ State.reset.outLen.toNat ≤ params.inCap ∧
    ({ State.reset with outLen := 2 ^ 24 } : State).outLen.toNat ≤ params.inCap ∧
    (withMove (.host (.writeIn (2 ^ 24 - 1) 0xFF)) State.reset).agenda = [.host (.writeIn (2 ^ 24 - 1) 0xFF)] ∧
    2 ^ 24 - 1 < params.inCap ∧ (0 : Nat) ≠ 2 ^ 24 - 1 := by decide

/-- `FREQ.COUNT` and another operation that succeed. -/
theorem witness_SuccessfulEndRegisters :
    exec .freqCount (loaded [0x41]) = .next (after (exec .freqCount (loaded [0x41]))) ∧
    (after (exec .freqCount (loaded [0x41]))).status = 2 ∧
    exec .lzwEnc (loaded [0x41]) = .next (after (exec .lzwEnc (loaded [0x41]))) ∧
    (after (exec .lzwEnc (loaded [0x41]))).status = 2 :=
  ⟨exec_after _ _, by decide +kernel, exec_after _ _, by decide +kernel⟩

/-- `FREQ.COUNT` that succeeds, and an operation that fails (HD4). -/
theorem witness_OperationsKeepTheirInput :
    exec .freqCount (loaded [0x41]) = .next (after (exec .freqCount (loaded [0x41]))) ∧
    (after (exec .freqCount (loaded [0x41]))).status = 2 ∧
    exec .huffDec (loaded [0, 0, 0, 0, 0, 0, 0]) = .next (after (exec .huffDec (loaded [0, 0, 0, 0, 0, 0, 0]))) ∧
    (after (exec .huffDec (loaded [0, 0, 0, 0, 0, 0, 0]))).status = 3 ∧
    (∃ u, freqCount params (loaded [0x41]) = .ok () u) ∧
    ∃ u, freqCount params { loaded [] with inLen := 2 ^ 24 + 1 } = .error .range u :=
  ⟨exec_after _ _, by decide +kernel, exec_after _ _, by decide +kernel, ⟨_, rfl⟩, ⟨_, rfl⟩⟩

theorem witness_FreqIsTheHistogram :
    countsInput .sfEnc = true ∧ exec .sfEnc (loaded [0x41]) = .next (after (exec .sfEnc (loaded [0x41]))) ∧
    (after (exec .sfEnc (loaded [0x41]))).status = 2 ∧ countsInput .huffEnc = true ∧
    exec .huffEnc (loaded []) = .next (after (exec .huffEnc (loaded []))) ∧
    (after (exec .huffEnc (loaded []))).err = errWord .emptyInput :=
  ⟨rfl, exec_after _ _, by decide +kernel, rfl, exec_after _ _, by decide +kernel⟩

/-- Two states that agree on the input and differ in `OUT_LEN`, the latch and the working state. -/
theorem witness_ResultDependsOnInputAlone :
    let s := loaded [0x41]
    let t := { s with outLen := 7, op := 9, work := { s.work with rp := 5, bitcnt := 3 } }
    s.inLen = t.inLen ∧ (∀ a < s.inLen.toNat, s.inMem.read a = t.inMem.read a) ∧ countsInput .freqCount = true ∧
      (after (exec .freqCount s)).status = 2 :=
  ⟨rfl, fun _ _ => rfl, rfl, by decide +kernel⟩

/-- The next step of that state runs its operation, and answers a next state. -/
theorem step_busyState : step busyState = .next (after (exec .huffEnc busyState)) := by
  have hb : busyState.isBusy = true := by decide
  have hd : busyState.disturbed = false := by decide
  have hi : decodeOp busyState.op = some .huffEnc := by decide
  rw [← exec_after]
  show engineMove busyState = _
  simp only [engineMove, hb, hd, hi, if_true, Bool.false_eq_true, if_false]

/-- The state of the witness meets the invariant. -/
theorem witness_InvKeptByStep : busyState.Inv ∧ step busyState = .next (after (exec .huffEnc busyState)) :=
  ⟨{ status_legal := ⟨.busy, rfl⟩
     err_legal := .inl rfl
     err_iff := by decide
     busy_legal := by decide
     idle_clear := by decide
     error_len := by decide
     len_cap := by decide
     done_known := fun h => absurd h (by decide)
     in_wf := by decide
     out_wf := by decide
     in_cap := by decide
     out_cap := by decide
     in_fresh := by decide
     out_fresh := by decide },
   step_busyState⟩

theorem codeOf_init (s : Byte) : codeOf busyState.work.codes s = [] := by
  show codeOf (Vector.replicate nsym []) s = []
  simp [codeOf]

theorem witness_WorkBoundsKeptByStep :
    busyState.work.Bounded params ∧ step busyState = .next (after (exec .huffEnc busyState)) :=
  ⟨{ rp_cap := by decide
     wp_cap := by decide
     bitcnt_le := by decide
     nodes_le := by decide
     queue_le := by decide
     code_le := fun s => by rw [codeOf_init]; decide
     tree_le := by decide
     sfList_le := by decide
     sfStack_le := by decide
     sfMap_le := by decide
     sfKey_le := fun _ h => nomatch h
     dict_le := by decide
     dict_string := fun _ h => nomatch h },
   step_busyState⟩

/-- The containers of "A" have 16, 13, 7 and 6 bytes (H1, S2e, Z2, W2): a capacity one below does not hold them. -/
theorem witness_OutputTooLongIsIoWrite :
    let s := loaded [0x41]
    s.inBytes ≠ [] ∧ s.inLen.toNat ≤ params.inCap ∧
    Params.wf { outCap := 15 } = true ∧ 15 < (huffContainer s.inBytes).length ∧
    bitTotal (histogram s.inBytes) (sfCodes { outCap := 12 } (histogram s.inBytes)) < 2 ^ 31 ∧
    Params.wf { outCap := 12 } = true ∧ 12 < (sfContainer { outCap := 12 } s.inBytes).length ∧
    Params.wf { outCap := 6 } = true ∧ 6 < (lz77Container s.inBytes).length ∧
    Params.wf { outCap := 5 } = true ∧ 5 < (lzwContainer s.inBytes).length := by decide +kernel

theorem witness_FieldReadsBack :
    0xFFFFFFFF < 2 ^ (8 * 4) ∧
    ∀ i < 4, some ((holding [0xFF, 0xFF, 0xFF, 0xFF] 0).read (0 + i)) = (bigEndian 4 0xFFFFFFFF)[i]? := by decide

/-- The payload ends exactly at the end of `OUT`: one byte is written at address `OUT_CAP - 1`. -/
theorem witness_PackerWritesPack :
    let s := { State.reset with work := { Work.init with wp := 2 ^ 24 - 1 } }
    s.work.bitbuf = 0 ∧ s.work.bitcnt = 0 ∧
    s.work.wp + (pack (payloadBits (setCode (Vector.replicate nsym []) 0x41 [true]) [0x41, 0x41])).length ≤ params.outCap := by
  decide +kernel

theorem witness_PackHoldsTheBits : [true, false, true].length ≤ 3 ∧ [true, false, true].length ≤ 1000 := by decide

theorem witness_EntropyBounds : total zeroFreq = 0 ∧ total (histogram [0x41]) = 1 := by decide +kernel

theorem witness_FreqCountCompletes :
    (loaded [0x41]).inLen.toNat ≤ params.inCap ∧ ({ State.reset with inLen := 2 ^ 24 } : State).inLen.toNat ≤ params.inCap := by
  decide

theorem witness_HuffEncWritesContainer :
    (loaded abracadabra).inLen.toNat ≤ params.inCap ∧ (loaded abracadabra).inBytes ≠ [] ∧
    (huffContainer (loaded abracadabra).inBytes).length ≤ params.outCap := by decide +kernel

theorem witness_HuffEncChecksItsInput :
    params.inCap < ({ State.reset with inLen := 2 ^ 24 + 1 } : State).inLen.toNat ∧ State.reset.inLen = 0 := by decide

/-- Two symbols present, one present, one absent. -/
theorem witness_HuffCodesAreFullPrefixCode :
    let f := histogram [0x41, 0x41, 0x42]
    2 ≤ (present f).length ∧ (present (histogram [0x41])).length = 1 ∧ countOf f 0x43 = 0 ∧ countOf f 0x42 ≠ 0 := by
  decide +kernel

theorem witness_HuffFrequentSymbolsAreNotLonger :
    let f := histogram [0x41, 0x41, 0x42]
    countOf f 0x42 ≠ 0 ∧ (countOf f 0x42).toNat < (countOf f 0x41).toNat := by decide +kernel

theorem witness_HuffSingleSymbol :
    1 ≤ 1 ∧ 9 ≤ params.inCap ∧ (loaded [0x41]).inBytes = List.replicate 1 0x41 ∧
    (loaded (List.replicate 9 0x41)).inBytes = List.replicate 9 0x41 := by decide +kernel

theorem witness_HuffEncOutputLength :
    exec .huffEnc (loaded [0x41]) = .next (after (exec .huffEnc (loaded [0x41]))) ∧
    (after (exec .huffEnc (loaded [0x41]))).status = 2 := ⟨exec_after _ _, by decide +kernel⟩

/-- HD5 (11 bytes), HD1, HD2, HD3 (12 bytes); an entry cut after its length, the second of two; HD9 (the payload ends between
two codes), and a payload that ends inside a code of nine bits. -/
theorem witness_HuffDecChecksTheHeader :
    params.inCap < ({ State.reset with inLen := 2 ^ 24 + 1 } : State).inLen.toNat ∧
    (loaded [0, 0, 0, 0, 0, 0, 0, 1, 0, 0, 0]).inLen.toNat < 12 ∧
    (let s := loaded [0, 0, 0, 0, 0, 0, 0, 1, 0, 0, 0, 0]; 12 ≤ s.inLen.toNat ∧ s32 (memRead s.inMem 8 4) ≤ 0) ∧
    (let s := loaded [0, 0, 0, 0, 0, 0, 0, 1, 0x80, 0, 0, 0]; 12 ≤ s.inLen.toNat ∧ s32 (memRead s.inMem 8 4) ≤ 0) ∧
    (let s := loaded [0, 0, 0, 0, 0, 0, 0, 1, 0, 0, 1, 1]; s.inLen.toNat ≤ params.inCap ∧
      params.hdecTableMax < memRead s.inMem 8 4) ∧
    (let a : HuffEntry := ⟨0x41, 1, [0x00]⟩
      let b : HuffEntry := ⟨0x42, 1, [0x80]⟩
      let nine : HuffEntry := ⟨0x41, 9, [0xFF, 0x80]⟩;
      a.wf = true ∧ b.wf = true ∧ nine.wf = true ∧ PrefixFree [a.code] ∧ PrefixFree [nine.code] ∧
      [0x42, 1] <+: b.bytes ∧ [(0x42 : Byte), 1].length < b.bytes.length ∧
      (loaded [0, 0, 0, 0, 0, 0, 0, 1, 0, 0, 0, 2, 0x41, 1, 0, 0x42, 1]).inBytes =
        bigEndian 8 1 ++ bigEndian 4 2 ++ [a].flatMap HuffEntry.bytes ++ [0x42, 1] ∧
      [] <+: a.code ∧ [] ≠ a.code ∧ unpack 8 [0x00] = (List.replicate 8 a).flatMap HuffEntry.code ++ [] ∧
      (loaded [0, 0, 0, 0, 0, 0, 0, 9, 0, 0, 0, 1, 0x41, 1, 0, 0]).inBytes =
        bigEndian 8 9 ++ bigEndian 4 1 ++ [a].flatMap HuffEntry.bytes ++ [0] ∧
      List.replicate 8 true <+: nine.code ∧ List.replicate 8 true ≠ nine.code ∧
      unpack 8 [0xFF] = [].flatMap HuffEntry.code ++ List.replicate 8 true ∧
      (loaded [0, 0, 0, 0, 0, 0, 0, 1, 0, 0, 0, 1, 0x41, 9, 0xFF, 0x80, 0xFF]).inBytes =
        bigEndian 8 1 ++ bigEndian 4 1 ++ [nine].flatMap HuffEntry.bytes ++ [0xFF]) := by
  unfold PrefixFree
  decide +kernel

/-- The two entries of HD15: A with code 0, B with code 1, pad bits set. -/
def twoEntries : List HuffEntry := [⟨0x41, 1, [0x7F]⟩, ⟨0x42, 1, [0xFF]⟩]

/-- HD15, with the message B, A, B in three bits; and the empty message of HD7. -/
theorem witness_HuffDecDecodesAnyTable :
    let msg : List HuffEntry := [⟨0x42, 1, [0xFF]⟩, ⟨0x41, 1, [0x7F]⟩, ⟨0x42, 1, [0xFF]⟩]
    let s := loaded [0, 0, 0, 0, 0, 0, 0, 3, 0, 0, 0, 2, 0x41, 1, 0x7F, 0x42, 1, 0xFF, 0xA0]
    s.inLen.toNat ≤ params.inCap ∧ msg.length ≤ params.outCap ∧ 1 ≤ twoEntries.length ∧ twoEntries.length ≤ 256 ∧
    (∀ e ∈ twoEntries, e.wf = true) ∧ PrefixFree (twoEntries.map HuffEntry.code) ∧ (∀ e ∈ msg, e ∈ twoEntries) ∧
    3 ≤ 8 * [(0xA0 : Byte)].length ∧ unpack 3 [0xA0] = msg.flatMap HuffEntry.code ∧
    s.inBytes = bigEndian 8 msg.length ++ bigEndian 4 twoEntries.length ++ twoEntries.flatMap HuffEntry.bytes ++ [0xA0] ∧
    (loaded [0, 0, 0, 0, 0, 0, 0, 0, 0, 0, 0, 2, 0x41, 1, 0x7F, 0x42, 1, 0xFF]).inBytes =
      bigEndian 8 0 ++ bigEndian 4 twoEntries.length ++ twoEntries.flatMap HuffEntry.bytes ++ [] := by
  unfold PrefixFree
  decide +kernel

/-- HD6 (length 0), HD10 (a code that extends an earlier one), HD11 (a duplicate), HD12 (a code that begins an earlier one). -/
theorem witness_HuffDecRejectsBadEntries :
    let a : HuffEntry := ⟨0x41, 1, [0x00]⟩
    let aa : HuffEntry := ⟨0x41, 2, [0x00]⟩
    let b : HuffEntry := ⟨0x42, 1, [0x00]⟩
    let bb : HuffEntry := ⟨0x42, 2, [0x00]⟩
    a.wf = true ∧ aa.wf = true ∧ b.wf = true ∧ bb.wf = true ∧ PrefixFree [a.code] ∧ PrefixFree [aa.code] ∧
    (loaded [0, 0, 0, 0, 0, 0, 0, 1, 0, 0, 0, 1, 0x41, 0]).inBytes = bigEndian 8 1 ++ bigEndian 4 1 ++ [] ++ [0x41, 0] ++ [] ∧
    a.code <+: bb.code ∧ a.code <+: b.code ∧ b.code <+: aa.code ∧
    (loaded [0, 0, 0, 0, 0, 0, 0, 1, 0, 0, 0, 2, 0x41, 1, 0, 0x42, 2, 0, 0]).inBytes =
      bigEndian 8 1 ++ bigEndian 4 2 ++ [a].flatMap HuffEntry.bytes ++ bb.bytes ++ [0] ∧
    (loaded [0, 0, 0, 0, 0, 0, 0, 1, 0, 0, 0, 2, 0x41, 2, 0, 0x42, 1, 0, 0]).inBytes =
      bigEndian 8 1 ++ bigEndian 4 2 ++ [aa].flatMap HuffEntry.bytes ++ b.bytes ++ [0] := by
  unfold PrefixFree
  decide +kernel

/-- HD8: after one A the bit 1, which no code of the table begins with. -/
theorem witness_HuffDecAbsentChildIsCorrupt :
    let a : HuffEntry := ⟨0x41, 1, [0x00]⟩
    let s := loaded [0, 0, 0, 0, 0, 0, 0, 2, 0, 0, 0, 1, 0x41, 1, 0, 0x40]
    s.inLen.toNat ≤ params.inCap ∧ a.wf = true ∧ PrefixFree [a.code] ∧ ¬ a.code <+: [true] ∧ ¬ [true] <+: a.code ∧
    2 ≤ 8 * [(0x40 : Byte)].length ∧ unpack 2 [0x40] = [a].flatMap HuffEntry.code ++ [true] ∧
    s.inBytes = bigEndian 8 2 ++ bigEndian 4 1 ++ [a].flatMap HuffEntry.bytes ++ [0x40] := by
  unfold PrefixFree
  decide +kernel

/-- H4: "AB" is within the capacities, and the 19 bytes that `HUFF.ENC` writes are those of the second state. -/
theorem witness_HuffRoundTrip :
    let s := loaded [0x41, 0x42]
    Params.wf {} = true ∧ s.inLen.toNat ≤ params.inCap ∧ s.inLen.toNat ≤ params.outCap ∧ s.inBytes ≠ [] ∧
    (huffContainer s.inBytes).length ≤ params.outCap ∧ (huffContainer s.inBytes).length ≤ params.inCap ∧
    (loaded [0, 0, 0, 0, 0, 0, 0, 2, 0, 0, 0, 2, 0x41, 1, 0, 0x42, 1, 0x80, 0x40]).inBytes =
      (after (huffEncWith {} s)).outBytes := by decide +kernel

theorem witness_SfEncWritesContainer :
    (loaded abracadabra).inLen.toNat ≤ params.inCap ∧
    bitTotal (histogram (loaded abracadabra).inBytes) (sfCodes params (histogram (loaded abracadabra).inBytes)) < 2 ^ 31 ∧
    (sfContainer params (loaded abracadabra).inBytes).length ≤ params.outCap := by decide +kernel

theorem witness_SfCodesArePrefixFree :
    countOf (histogram [0x41, 0x42]) 0x41 ≠ 0 ∧ 2 ≤ (present (histogram [0x41, 0x42])).length := by decide +kernel

theorem witness_SfSplitIsFirstReachAndProper :
    2 ≤ [3, 2, 2].length ∧ [3, 2, 2].Pairwise (· ≥ ·) ∧ (∀ f ∈ [3, 2, 2], 1 ≤ f) ∧ sfSplit (sfHalf params 7) 0 [3, 2, 2] = 2 := by
  decide

/-- A table with one counter of `2^31` and a code of one bit, and one of `2^31 - 1`. -/
theorem witness_SfBitCountLimit :
    let t := setCode (Vector.replicate nsym []) 0x41 [true]
    2 ^ 31 ≤ bitTotal (zeroFreq.set 0x41 (2 ^ 31)) t ∧ bitTotal (zeroFreq.set 0x41 (2 ^ 31 - 1)) t < 2 ^ 31 ∧
    State.reset.work.wp + 4 ≤ params.outCap := by decide +kernel

/-- SD3 (3 bytes), SD1, SD2, SD10, SD11 (length prefix 256), SD14 (a string cut short), a `totalBitCount` of three bytes, SD9 (a
payload of 8 bits where 9 are declared). -/
theorem witness_SfDecChecksHeaderAndKeys :
    params.inCap < ({ State.reset with inLen := 2 ^ 24 + 1 } : State).inLen.toNat ∧
    (loaded [0, 0, 0]).inLen.toNat < 4 ∧
    (let s := loaded [0, 0, 0, 0]; 4 ≤ s.inLen.toNat ∧ s32 (memRead s.inMem 0 4) ≤ 0) ∧
    (let s := loaded [0xFF, 0xFF, 0xFF, 0xFF]; 4 ≤ s.inLen.toNat ∧ s32 (memRead s.inMem 0 4) ≤ 0) ∧
    (let s := loaded [0, 0, 1, 1]; 4 ≤ s.inLen.toNat ∧ 0 < s32 (memRead s.inMem 0 4) ∧
      params.sfdecTableMax < memRead s.inMem 0 4) ∧
    (loaded [0, 0, 0, 1, 0x41, 1, 0]).inBytes = bigEndian 4 1 ++ [].flatMap sfEntryBytes ++ [0x41] ++ bigEndian 2 256 ++ [] ∧
    [0x41, 0, 2, 0x30] <+: sfEntryBytes (0x41, [0x30, 0x30]) ∧
    [(0x41 : Byte), 0, 2, 0x30].length < (sfEntryBytes (0x41, [0x30, 0x30])).length ∧
    (loaded [0, 0, 0, 1, 0x41, 0, 2, 0x30]).inBytes = bigEndian 4 1 ++ [].flatMap sfEntryBytes ++ [0x41, 0, 2, 0x30] ∧
    (let es : List SfEntry := [(0x41, [0x30])];
      (∀ e ∈ es, e.2.length ≤ 255) ∧
      (loaded [0, 0, 0, 1, 0x41, 0, 1, 0x30, 0, 0, 0]).inBytes =
        bigEndian 4 es.length ++ es.flatMap sfEntryBytes ++ [0, 0, 0] ∧
      8 * [(0 : Byte)].length < 9 ∧ (sfDecodeBits es [] (unpack 8 [0])).length ≤ params.outCap ∧
      (loaded [0, 0, 0, 1, 0x41, 0, 1, 0x30, 0, 0, 0, 9, 0]).inBytes =
        bigEndian 4 es.length ++ es.flatMap sfEntryBytes ++ bigEndian 4 9 ++ [0]) := by
  decide +kernel

/-- SD6: the last bit is left over; SD5: a bit count of -1. -/
theorem witness_SfDecDecodesAnyTable :
    let es : List SfEntry := [(0x41, [0x30, 0x30]), (0x42, [0x30, 0x31])]
    let s := loaded [0, 0, 0, 2, 0x41, 0, 2, 0x30, 0x30, 0x42, 0, 2, 0x30, 0x31, 0, 0, 0, 3, 0x20]
    s.inLen.toNat ≤ params.inCap ∧ (∀ e ∈ es, e.2.length ≤ 255) ∧ 3 ≤ 8 * [(0x20 : Byte)].length ∧
    sfDecodeBits es [] (unpack 3 [0x20]) = [0x41] ∧
    s.inBytes = bigEndian 4 es.length ++ es.flatMap sfEntryBytes ++ bigEndian 4 3 ++ [0x20] ∧
    2 ^ 31 ≤ 0xFFFFFFFF ∧ 0xFFFFFFFF < 2 ^ 32 ∧
    (loaded [0, 0, 0, 1, 0x41, 0, 1, 0x30, 0xFF, 0xFF, 0xFF, 0xFF]).inBytes =
      bigEndian 4 1 ++ [((0x41, [0x30]) : SfEntry)].flatMap sfEntryBytes ++ bigEndian 4 0xFFFFFFFF ++ [] := by decide +kernel

/-- S5e: "AB", and the empty input (S1e). -/
theorem witness_SfRoundTrip :
    let s := loaded [0x41, 0x42]
    Params.wf {} = true ∧ s.inLen.toNat ≤ params.inCap ∧ s.inLen.toNat ≤ params.outCap ∧
    bitTotal (histogram s.inBytes) (sfCodes {} (histogram s.inBytes)) < 2 ^ 31 ∧
    (sfContainer {} s.inBytes).length ≤ params.outCap ∧ (sfContainer {} s.inBytes).length ≤ params.inCap ∧
    (loaded [0, 0, 0, 2, 0x41, 0, 1, 0x30, 0x42, 0, 1, 0x31, 0, 0, 0, 2, 0x40]).inBytes =
      (after (sfEncWith {} s)).outBytes ∧
    (loaded [0, 0, 0, 0, 0, 0, 0, 0]).inBytes = (after (sfEncWith {} (loaded []))).outBytes := by decide +kernel

theorem witness_Lz77MatchIsLongestNearest :
    0 + 2 ≤ #[(0x41 : Byte), 0x41].size ∧ findMatch #[(0x41 : Byte), 0x41, 0x41, 0x42] 1 = (1, 2) := by decide +kernel

theorem witness_Lz77EncWritesContainer :
    (loaded abracadabra).inLen.toNat ≤ params.inCap ∧ (lz77Container (loaded abracadabra).inBytes).length ≤ params.outCap := by
  decide +kernel

/-- LD5, and LD7 with trailing bytes. -/
theorem witness_Lz77DecReplaysTokens :
    let ts : List Token := [⟨0, 0, 0x41⟩, ⟨1, 5, 0x42⟩]
    (loaded [0, 0, 0, 2, 0, 0, 0x41, 1, 5, 0x42]).inLen.toNat ≤ params.inCap ∧
    replayBytes [] ts = some [0x41, 0x41, 0x41, 0x41, 0x41, 0x41, 0x42] ∧
    (loaded [0, 0, 0, 2, 0, 0, 0x41, 1, 5, 0x42]).inBytes = bigEndian 4 2 ++ ts.flatMap tokenBytes ++ [] ∧
    (loaded [0, 0, 0, 1, 0, 0, 0x41, 0xFF, 0xFF]).inBytes =
      bigEndian 4 1 ++ [(⟨0, 0, 0x41⟩ : Token)].flatMap tokenBytes ++ [0xFF, 0xFF] := by decide +kernel

/-- 3 bytes; LD1 and LD2; LD3 (offset 1 with nothing produced) and LD4 (offset 0 with length 1); LD6 and LD10 (no byte and two
bytes of a token). -/
theorem witness_Lz77DecRejects :
    params.inCap < ({ State.reset with inLen := 2 ^ 24 + 1 } : State).inLen.toNat ∧
    (loaded [0, 0, 0]).inLen.toNat < 4 ∧
    (let s := loaded [0, 0, 0, 0]; 4 ≤ s.inLen.toNat ∧ s32 (memRead s.inMem 0 4) ≤ 0) ∧
    (let s := loaded [0xFF, 0xFF, 0xFF, 0xFF]; 4 ≤ s.inLen.toNat ∧ s32 (memRead s.inMem 0 4) ≤ 0) ∧
    replayBytes [] [] = some [] ∧ tokenLegal 0 ⟨1, 1, 0x41⟩ = false ∧ tokenLegal 0 ⟨0, 1, 0x41⟩ = false ∧
    (loaded [0, 0, 0, 1, 1, 1, 0x41]).inBytes = bigEndian 4 1 ++ [] ++ tokenBytes ⟨1, 1, 0x41⟩ ++ [] ∧
    replayBytes [] [⟨0, 0, 0x41⟩] = some [0x41] ∧
    (loaded [0, 0, 0, 2, 0, 0, 0x41]).inBytes = bigEndian 4 2 ++ [(⟨0, 0, 0x41⟩ : Token)].flatMap tokenBytes ++ [] ∧
    (loaded [0, 0, 0, 1, 1, 1]).inBytes = bigEndian 4 1 ++ [].flatMap tokenBytes ++ [1, 1] := by decide +kernel

/-- Z3: "AB". -/
theorem witness_Lz77RoundTrip :
    let s := loaded [0x41, 0x42]
    s.inLen.toNat ≤ params.inCap ∧ s.inLen.toNat ≤ params.outCap ∧ s.inBytes ≠ [] ∧
    (lz77Container s.inBytes).length ≤ params.outCap ∧ (lz77Container s.inBytes).length ≤ params.inCap ∧
    (loaded [0, 0, 0, 2, 0, 0, 0x41, 0, 0, 0x42]).inBytes = (after (lz77EncWith {} s)).outBytes := by decide +kernel

theorem witness_LzwCodesDecode : [(0x41 : Byte)] ≠ [] := by decide

theorem witness_LzwEncWritesContainer :
    (loaded abababab).inLen.toNat ≤ params.inCap ∧ (lzwContainer (loaded abababab).inBytes).length ≤ params.outCap := by
  decide +kernel

/-- W6 (with the self-reference), and WD7 with a trailing byte. -/
theorem witness_LzwDecReplaysCodes :
    lzwDecoded [65, 66, 256, 258, 66] = some abababab ∧ (∀ c ∈ [65, 66, 256, 258, 66], c < 2 ^ 16) ∧
    (loaded [0, 0, 0, 5, 0, 0x41, 0, 0x42, 1, 0, 1, 2, 0, 0x42]).inBytes =
      bigEndian 4 5 ++ [65, 66, 256, 258, 66].flatMap (bigEndian 2) ++ [] ∧
    lzwDecoded [65] = some [0x41] ∧
    (loaded [0, 0, 0, 1, 0, 0x41, 0xFF]).inBytes = bigEndian 4 1 ++ [65].flatMap (bigEndian 2) ++ [0xFF] := by decide +kernel

/-- 3 bytes; WD1 and WD2; WD3 (first code 256); WD4 (code 257 with 256 entries); one byte of the first code; WD8 (one byte of the
second). -/
theorem witness_LzwDecRejects :
    params.inCap < ({ State.reset with inLen := 2 ^ 24 + 1 } : State).inLen.toNat ∧
    (loaded [0, 0, 0]).inLen.toNat < 4 ∧
    (let s := loaded [0, 0, 0, 0]; 4 ≤ s.inLen.toNat ∧ s32 (memRead s.inMem 0 4) ≤ 0) ∧
    (let s := loaded [0x80, 0, 0, 0]; 4 ≤ s.inLen.toNat ∧ s32 (memRead s.inMem 0 4) ≤ 0) ∧
    (loaded [0, 0, 0, 1, 1, 0]).inBytes = bigEndian 4 1 ++ bigEndian 2 256 ++ [] ∧
    lzwDecoded [65] = some [0x41] ∧ min 4096 (255 + [65].length) < 257 ∧
    (loaded [0, 0, 0, 2, 0, 0x41, 1, 1]).inBytes =
      bigEndian 4 2 ++ [65].flatMap (bigEndian 2) ++ bigEndian 2 257 ++ [] ∧
    (loaded [0, 0, 0, 1, 0]).inBytes = bigEndian 4 1 ++ [].flatMap (bigEndian 2) ++ [0] ∧
    (loaded [0, 0, 0, 2, 0, 0x41, 0]).inBytes = bigEndian 4 2 ++ [65].flatMap (bigEndian 2) ++ [0] := by decide +kernel

/-- W3: "AB". -/
theorem witness_LzwRoundTrip :
    let s := loaded [0x41, 0x42]
    s.inLen.toNat ≤ params.inCap ∧ s.inLen.toNat ≤ params.outCap ∧ s.inBytes ≠ [] ∧
    (lzwContainer s.inBytes).length ≤ params.outCap ∧ (lzwContainer s.inBytes).length ≤ params.inCap ∧
    (loaded [0, 0, 0, 2, 0, 0x41, 0, 0x42]).inBytes = (after (lzwEncWith {} s)).outBytes := by decide +kernel

/-- Capacity 1: HD13, SD9 (8 symbols in the first 8 bits), LD5, WD5 give more than one byte. -/
theorem witness_DecodedOutputTooLongIsIoWrite :
    Params.wf { outCap := 1 } = true ∧
    (let a : HuffEntry := ⟨0x41, 1, [0x00]⟩
      let b : HuffEntry := ⟨0x42, 1, [0x80]⟩;
      a.wf = true ∧ b.wf = true ∧ PrefixFree [a.code, b.code] ∧ unpack 3 [0xA0] = [b, a, b].flatMap HuffEntry.code ∧
      (loaded [0, 0, 0, 0, 0, 0, 0, 3, 0, 0, 0, 2, 0x41, 1, 0, 0x42, 1, 0x80, 0xA0]).inBytes =
        bigEndian 8 3 ++ bigEndian 4 2 ++ [a, b].flatMap HuffEntry.bytes ++ [0xA0]) ∧
    (let es : List SfEntry := [(0x41, [0x30])];
      1 < (sfDecodeBits es [] (unpack 8 [0])).length ∧ 8 ≤ 9 ∧ 8 ≤ 8 * [(0 : Byte)].length ∧
      (loaded [0, 0, 0, 1, 0x41, 0, 1, 0x30, 0, 0, 0, 9, 0]).inBytes =
        bigEndian 4 es.length ++ es.flatMap sfEntryBytes ++ bigEndian 4 9 ++ [0]) ∧
    (let ts : List Token := [⟨0, 0, 0x41⟩, ⟨1, 5, 0x42⟩];
      replayBytes [] ts = some [0x41, 0x41, 0x41, 0x41, 0x41, 0x41, 0x42] ∧
      (loaded [0, 0, 0, 2, 0, 0, 0x41, 1, 5, 0x42]).inBytes = bigEndian 4 2 ++ ts.flatMap tokenBytes ++ []) ∧
    lzwDecoded [65, 256] = some [0x41, 0x41, 0x41] ∧
    (loaded [0, 0, 0, 2, 0, 0x41, 1, 0]).inBytes = bigEndian 4 2 ++ [65, 256].flatMap (bigEndian 2) ++ [] := by
  unfold PrefixFree
  decide +kernel

end Sys2Proof.Machine.Tests
end

section
/-! PROOFS. The register `IN_LEN` (O5) and what a reset leaves in the registers (O11). -/

namespace Sys2Proof.Machine

variable {α β : Type}

/-! ### A step that makes the next move of the agenda -/

theorem step_of_agenda {s : State} {m : Move} {rest : List Move} (h : s.agenda = m :: rest) :
    step s = moveStep m { s with agenda := rest } := by simp only [step, h]

theorem State.writeInLen_of_busy {s : State} (v : Len) (h : s.isBusy = true) : s.writeInLen v = s := if_pos h

theorem State.writeInLen_of_not_busy {s : State} (v : Len) (h : s.isBusy = false) :
    s.writeInLen v = { s with inLen := v } := if_neg (Bool.eq_false_iff.mp h)

/-! ### `Range` before anything else: every operation checks `IN_LEN` first (R306) -/

/-- The computation raises `Range` whenever `IN_LEN > IN_CAP`. -/
def RaisesRange (P : Params) (m : Eng α) : Prop := ∀ s, P.inCap < s.inLen.toNat → ∃ t, m s = .error .range t

namespace RaisesRange

variable {P : Params}

theorem checkRange : RaisesRange P (Machine.checkRange P) := fun s hs => ⟨s, (checkRange_run P s).2 hs⟩

theorem bind {m : Eng α} {f : α → Eng β} (hm : RaisesRange P m) : RaisesRange P (m >>= f) := fun s hs =>
  (hm s hs).imp fun _ => bind_of_error

theorem after_beginOp {f : Unit → Eng α} (hf : RaisesRange P (f ())) : RaisesRange P (beginOp >>= f) := fun s hs =>
  hf { s with work := Work.init } hs

theorem after_phase {p : Phase} {f : Unit → Eng α} (hf : RaisesRange P (f ())) : RaisesRange P (phase p >>= f) :=
  fun s hs => hf (s.setPhase p) hs

theorem phases (P : Params) (i : Instr) : RaisesRange P (Machine.phases P i) := by
  cases i
  case freqCount => exact after_beginOp checkRange.bind
  case huffEnc => exact after_beginOp (bind (after_phase checkRange.bind))
  case sfEnc => exact after_beginOp (bind (after_phase checkRange))
  all_goals exact after_beginOp (after_phase checkRange.bind)

end RaisesRange

/-- R306: an operation started with `IN_LEN > IN_CAP` ends with `Range`. -/
theorem exec_range (i : Instr) {s : State} (h : params.inCap < s.inLen.toNat) :
    ∃ t, exec i s = .next t ∧ FailedWith t .range := by
  obtain ⟨u, hu⟩ := RaisesRange.phases params i s h
  exact ⟨_, (exec_eq i s).trans (runOp_of_error hu), failedWith_raiseError _ _⟩

/-- Settles O5: the two host transactions on `IN_LEN`, the check of `Range` that comes first in all nine, and reset. -/
theorem inLenRegister : Obligations.InLenRegister := by
  unfold Obligations.InLenRegister
  refine ⟨fun s v rest ha => ?_, fun s rest ha => step_of_agenda ha, fun i s h => exec_range i h, rfl⟩
  have hstep : step s = .next ({ s with agenda := rest }.writeInLen v) := step_of_agenda ha
  refine ⟨fun hb => ?_, fun hb => ?_⟩
  · exact hstep.trans (congrArg Host.Outcome.next (State.writeInLen_of_busy v hb))
  · exact hstep.trans (congrArg Host.Outcome.next (State.writeInLen_of_not_busy v hb))

/-- Settles O11: both power-on and a reset move give `State.afterReset`, whose registers are 0. -/
theorem resetLeavesRegistersZero : Obligations.ResetLeavesRegistersZero := by
  unfold Obligations.ResetLeavesRegistersZero
  refine ⟨⟨rfl, rfl, rfl, rfl, rfl⟩, fun s rest ha => ?_⟩
  have hstep : step s = .next (State.afterReset s.draws s.hostData rest) := step_of_agenda ha
  exact ⟨_, hstep, rfl, rfl, rfl, rfl, rfl, rfl⟩

end Sys2Proof.Machine
end

section
/-! PROOFS. Noninterference of the nine operations (O18). Two runs of an operation from states with the same input go on in
lockstep: they return the same values, keep the same working state and the same written bytes of `OUT`, raise the same
errors, and, once `FREQ` has been cleared, hold the same `FREQ`. -/

namespace Sys2Proof.Machine

variable {α β : Type}

/-! ### States that agree on what an operation may look at -/

/-- The same `IN_LEN` and the same bytes of `IN` below it. -/
structure SameInput (s1 s2 : State) : Prop where
  inLen : s1.inLen = s2.inLen
  inMem : ∀ a < s1.inLen.toNat, s1.inMem.read a = s2.inMem.read a

/-- In the middle of an operation: the same input, the same working state, the same written bytes of `OUT`; and the same
`FREQ` when `k` says that the operation has cleared it. -/
structure Alike (k : Bool) (s1 s2 : State) : Prop extends SameInput s1 s2 where
  work : s1.work = s2.work
  out : ∀ a < s1.work.wp, s1.outMem.listed a ∧ s2.outMem.listed a ∧ s1.outMem.read a = s2.outMem.read a
  freq : k = true → s1.freq = s2.freq

theorem SameInput.inBytes {s1 s2 : State} (h : SameInput s1 s2) : s1.inBytes = s2.inBytes := by
  unfold State.inBytes
  rw [← h.inLen]
  exact List.map_congr_left fun a ha => h.inMem a (List.mem_range.mp ha)

theorem SameInput.memRead {s1 s2 : State} (h : SameInput s1 s2) {a n : Nat} (hn : a + n ≤ s1.inLen.toNat) :
    memRead s1.inMem a n = memRead s2.inMem a n := by
  have hbyte : ∀ i ∈ List.range n, s1.inMem.read (a + i) = s2.inMem.read (a + i) := fun i hi =>
    h.inMem _ (by have := List.mem_range.mp hi; omega)
  unfold Machine.memRead
  exact congrArg List.sum (List.map_congr_left fun i hi => by rw [hbyte i hi])

namespace Alike

variable {k : Bool} {s1 s2 : State}

theorem withWork (h : Alike k s1 s2) {w1 w2 : Work} (hw : w1 = w2) (hwp : w1.wp = s1.work.wp) :
    Alike k { s1 with work := w1 } { s2 with work := w2 } :=
  { inLen := h.inLen, inMem := h.inMem, work := hw, out := fun a ha => h.out a (hwp ▸ ha), freq := h.freq }

theorem withFreq (h : Alike k s1 s2) {f1 f2 : FreqTable} (hf : f1 = f2) :
    Alike true { s1 with freq := f1 } { s2 with freq := f2 } :=
  { inLen := h.inLen, inMem := h.inMem, work := h.work, out := h.out, freq := fun _ => hf }

theorem wrote (h : Alike k s1 s2) (l : List Byte) : Alike k (s1.wrote l) (s2.wrote l) where
  inLen := h.inLen
  inMem := h.inMem
  work := by simp [h.work]
  freq := h.freq
  out a ha := by
    simp only [State.wrote_outMem, State.wrote_work, Mem.listed_writeAll, Mem.read_writeAll, ← h.work] at ha ⊢
    by_cases hnew : s1.work.wp ≤ a ∧ a < s1.work.wp + l.length
    · simp [hnew]
    · obtain ⟨hl1, hl2, hr⟩ := h.out a (by omega)
      simp [hnew, hl1, hl2, hr]

end Alike

theorem sfAssignTop_wp (P : Params) (w : Work) : (sfAssignTop P w).wp = w.wp := by
  unfold sfAssignTop
  split
  · rfl
  · dsimp only
    split <;> rfl

theorem sfAssign_wp (P : Params) : ∀ fuel w, (sfAssign P fuel w).wp = w.wp
  | 0, _ => rfl
  | fuel + 1, w => by
    unfold sfAssign
    split
    · rfl
    · rw [sfAssign_wp P fuel, sfAssignTop_wp]

/-! ### Computations in lockstep -/

/-- From states related by `R` both runs go on with the same value to states related by `S`, or both raise the same error;
and after `EmptyInput` the two `FREQ` agree. -/
def Lockstep (R S : State → State → Prop) (m : Eng α) : Prop :=
  ∀ s1 s2, R s1 s2 →
    (∃ a t1 t2, m s1 = .ok a t1 ∧ m s2 = .ok a t2 ∧ S t1 t2) ∨
    (∃ e t1 t2, m s1 = .error e t1 ∧ m s2 = .error e t2 ∧ (e = .emptyInput → t1.freq = t2.freq))

namespace Lockstep

section rules

variable {R S T : State → State → Prop}

theorem bind {m : Eng α} {f : α → Eng β} (hm : Lockstep R S m) (hf : ∀ a, Lockstep S T (f a)) :
    Lockstep R T (m >>= f) := by
  intro s1 s2 hs
  rcases hm s1 s2 hs with ⟨a, t1, t2, h1, h2, ht⟩ | ⟨e, t1, t2, h1, h2, ht⟩
  · rw [bind_of_ok h1, bind_of_ok h2]
    exact hf a t1 t2 ht
  · exact .inr ⟨e, t1, t2, bind_of_error h1, bind_of_error h2, ht⟩

theorem pre {R' : State → State → Prop} {m : Eng α} (h : Lockstep R S m) (hR : ∀ s1 s2, R' s1 s2 → R s1 s2) :
    Lockstep R' S m := fun s1 s2 hs => h s1 s2 (hR s1 s2 hs)

theorem pure (a : α) : Lockstep R R (Pure.pure a : Eng α) := fun s1 s2 hs => .inl ⟨a, s1, s2, rfl, rfl, hs⟩

theorem raise {e : ErrKind} (he : e ≠ .emptyInput) : Lockstep R S (Machine.raise e : Eng α) :=
  fun s1 s2 _ => .inr ⟨e, s1, s2, rfl, rfl, fun h => absurd h he⟩

theorem change {f : State → State} (h : ∀ s1 s2, R s1 s2 → S (f s1) (f s2)) : Lockstep R S (Machine.change f) :=
  fun s1 s2 hs => .inl ⟨(), f s1, f s2, rfl, rfl, h s1 s2 hs⟩

/-- A computation that looks at the whole state may look only at what `R` makes equal. -/
theorem bind_get {f : State → Eng β} (heq : ∀ s1 s2, R s1 s2 → f s1 = f s2) (hf : ∀ s, Lockstep R S (f s)) :
    Lockstep R S (get >>= f) := by
  intro s1 s2 hs
  rw [bind_of_ok (get_run s1), bind_of_ok (get_run s2), ← heq s1 s2 hs]
  exact hf s1 s1 s2 hs

theorem ite {c : Prop} [Decidable c] {m n : Eng α} (hm : Lockstep R S m) (hn : Lockstep R S n) :
    Lockstep R S (if c then m else n) := by
  split
  · exact hm
  · exact hn

end rules

/-! ### The readers and writers -/

section operands

variable {k : Bool}

/-- The working state is the same, and what follows may use its value. -/
theorem bind_getWork {S : State → State → Prop} {f : Work → Eng β}
    (hf : ∀ w, Lockstep (fun s1 s2 => Alike k s1 s2 ∧ s1.work = w) S (f w)) : Lockstep (Alike k) S (getWork >>= f) := by
  intro s1 s2 hs
  rw [bind_of_ok (getWork_run s1), bind_of_ok (getWork_run s2), ← hs.work]
  exact hf s1.work s1 s2 ⟨hs, rfl⟩

theorem getWork : Lockstep (Alike k) (Alike k) Machine.getWork :=
  fun s1 s2 hs => .inl ⟨s1.work, s1, s2, rfl, by rw [hs.work]; rfl, hs⟩

theorem changeWork {f : Work → Work} (hf : ∀ w, (f w).wp = w.wp) : Lockstep (Alike k) (Alike k) (Machine.changeWork f) :=
  change fun _ _ hs => hs.withWork (congrArg f hs.work) (hf _)

theorem phase (p : Phase) : Lockstep (Alike k) (Alike k) (Machine.phase p) :=
  changeWork (f := fun w => { w with phase := p }) fun _ => rfl

/-- The start of an operation forgets what an earlier one left (R30): from the same input on, all is alike. -/
theorem beginOp : Lockstep SameInput (Alike false) Machine.beginOp :=
  change fun _ _ hs =>
    { inLen := hs.inLen, inMem := hs.inMem, work := rfl, out := fun a ha => absurd ha (Nat.not_lt_zero a), freq := nofun }

theorem checkRange (P : Params) : Lockstep (Alike k) (Alike k) (Machine.checkRange P) := by
  intro s1 s2 hs
  by_cases hc : s1.inLen.toNat ≤ P.inCap
  · exact .inl ⟨(), s1, s2, (checkRange_run P s1).1 hc, (checkRange_run P s2).1 (hs.inLen ▸ hc), hs⟩
  · have hc' : P.inCap < s1.inLen.toNat := by omega
    exact .inr ⟨.range, s1, s2, (checkRange_run P s1).2 hc', (checkRange_run P s2).2 (hs.inLen ▸ hc'), nofun⟩

theorem inByte : Lockstep (Alike k) (Alike k) Machine.inByte := by
  intro s1 s2 hs
  rw [inByte_run s1, inByte_run s2, ← hs.inBytes, ← hs.work]
  cases s1.inBytes[s1.work.rp]? with
  | some b => exact .inl ⟨b, _, _, rfl, rfl, hs.withWork (by rw [hs.work]) rfl⟩
  | none => exact .inr ⟨.ioRead, s1, s2, rfl, rfl, nofun⟩

theorem inU (n : Nat) : Lockstep (Alike k) (Alike k) (Machine.inU n) := by
  intro s1 s2 hs
  by_cases hc : s1.work.rp + n ≤ s1.inLen.toNat
  · refine .inl ⟨_, _, _, (inU_run n s1).1 hc, ?_, hs.withWork (by rw [hs.work]) rfl⟩
    rw [hs.memRead hc, hs.work]
    exact (inU_run n s2).1 (by rwa [← hs.work, ← hs.inLen])
  · have hc' : s1.inLen.toNat < s1.work.rp + n := by omega
    exact .inr ⟨_, _, _, (inU_run n s1).2 hc', (inU_run n s2).2 (by rwa [← hs.work, ← hs.inLen]), nofun⟩

theorem getBit : Lockstep (Alike k) (Alike k) Machine.getBit := by
  intro s1 s2 hs
  by_cases hc : s1.work.base + s1.work.brp / 8 < s1.inLen.toNat
  · refine .inl ⟨_, _, _, (getBit_run s1).1 hc, ?_, hs.withWork (by rw [hs.work]) rfl⟩
    rw [hs.inMem _ hc, hs.work]
    exact (getBit_run s2).1 (by rwa [← hs.work, ← hs.inLen])
  · have hc' : s1.inLen.toNat ≤ s1.work.base + s1.work.brp / 8 := by omega
    exact .inr ⟨_, _, _, (getBit_run s1).2 hc', (getBit_run s2).2 (by rwa [← hs.work, ← hs.inLen]), nofun⟩

theorem inBytesN : ∀ n, Lockstep (Alike k) (Alike k) (Machine.inBytesN n)
  | 0 => pure _
  | n + 1 => bind inByte fun _ => bind (inBytesN n) fun _ => pure _

/-- `OutByte` moves both write cursors by 1. -/
theorem outByte_at (P : Params) (b : Byte) (n : Nat) :
    Lockstep (fun s1 s2 => Alike k s1 s2 ∧ s1.work.wp = n) (fun s1 s2 => Alike k s1 s2 ∧ s1.work.wp = n + 1)
      (Machine.outByte P b) := by
  rintro s1 s2 ⟨hs, rfl⟩
  unfold Machine.outByte
  rw [← hs.work]
  by_cases hc : s1.work.wp < P.outCap
  · simp only [if_pos hc]
    exact .inl ⟨(), s1.wrote [b], s2.wrote [b], rfl, by simp [State.wrote, Mem.writeAll, hs.work], hs.wrote [b], rfl⟩
  · simp only [if_neg hc]
    exact .inr ⟨.ioWrite, s1, s2, rfl, rfl, nofun⟩

theorem outByte (P : Params) (b : Byte) : Lockstep (Alike k) (Alike k) (Machine.outByte P b) := by
  intro s1 s2 hs
  exact (outByte_at P b _ s1 s2 ⟨hs, rfl⟩).imp_left fun ⟨a, t1, t2, h1, h2, ht⟩ => ⟨a, t1, t2, h1, h2, ht.1⟩

theorem outString (P : Params) : ∀ l, Lockstep (Alike k) (Alike k) (Machine.outString P l)
  | [] => pure _
  | b :: l => bind (outByte P b) fun _ => outString P l

theorem outU (P : Params) (n v : Nat) : Lockstep (Alike k) (Alike k) (Machine.outU P n v) := by
  intro s1 s2 hs
  have run : ∀ s, Machine.outU P n v s =
      if s.work.wp + n ≤ P.outCap then Machine.outString P (bigEndian n v) s else .error .ioWrite s := fun _ => rfl
  rw [run s1, run s2, ← hs.work]
  split
  · exact outString P _ s1 s2 hs
  · exact .inr ⟨.ioWrite, s1, s2, rfl, rfl, nofun⟩

theorem startBits : Lockstep (Alike k) (Alike k) Machine.startBits := changeWork fun _ => rfl

theorem startPayload : Lockstep (Alike k) (Alike k) Machine.startPayload := changeWork fun _ => rfl

theorem putBit (P : Params) (b : Bool) : Lockstep (Alike k) (Alike k) (Machine.putBit P b) :=
  bind (changeWork fun _ => rfl) fun _ => bind getWork fun _ => ite (bind (outByte P _) fun _ => startBits) (pure _)

theorem putBits (P : Params) : ∀ c, Lockstep (Alike k) (Alike k) (Machine.putBits P c)
  | [] => pure _
  | b :: c => bind (putBit P b) fun _ => putBits P c

theorem flushBits (P : Params) : Lockstep (Alike k) (Alike k) (Machine.flushBits P) :=
  bind getWork fun _ => ite (bind (outByte P _) fun _ => startBits) (pure _)

theorem putCodes (P : Params) (t : CodeTable) : ∀ x, Lockstep (Alike k) (Alike k) (Machine.putCodes P t x)
  | [] => pure _
  | _ :: r => bind (putBits P _) fun _ => putCodes P t r

theorem codedPayload (P : Params) : Lockstep (Alike k) (Alike k) (Machine.codedPayload P) :=
  bind (phase _) fun _ => bind startBits fun _ =>
    bind_get (fun _ _ hs => by rw [hs.work, hs.inBytes]) fun _ => bind (putCodes P _ _) fun _ => flushBits P

end operands

/-! ### The counting operations: `FREQ` is alike from `CLEAR` on -/

theorem clearFreq {k : Bool} : Lockstep (Alike k) (Alike true) Machine.clearFreq := change fun _ _ hs => hs.withFreq rfl

theorem countInput : Lockstep (Alike true) (Alike true) Machine.countInput :=
  change fun _ _ hs => hs.withFreq (by rw [hs.inBytes, hs.freq rfl])

theorem freqCount (P : Params) : Lockstep SameInput (Alike true) (Machine.freqCount P) :=
  bind beginOp fun _ => bind (checkRange P) fun _ => bind (phase _) fun _ => bind clearFreq fun _ =>
    bind (phase _) fun _ => countInput

/-- `EmptyInput` is raised after `FREQ` has been cleared (R131), so that the two tables agree then. -/
theorem raise_emptyInput : Lockstep (Alike true) (Alike true) (Machine.raise .emptyInput : Eng α) :=
  fun s1 s2 hs => .inr ⟨_, s1, s2, rfl, rfl, fun _ => hs.freq rfl⟩

theorem huffCheck (P : Params) : Lockstep (Alike false) (Alike true) (Machine.huffCheck P) :=
  bind (phase _) fun _ => bind (checkRange P) fun _ => bind clearFreq fun _ =>
    bind_get (fun _ _ hs => by rw [hs.inLen]) fun _ => ite raise_emptyInput (pure _)

theorem huffBuildPhase : Lockstep (Alike true) (Alike true) Machine.huffBuildPhase :=
  bind (phase _) fun _ => change fun _ _ hs => hs.withWork (by rw [hs.work, hs.freq rfl]) rfl

theorem huffCodegenPhase : Lockstep (Alike true) (Alike true) Machine.huffCodegenPhase :=
  bind (phase _) fun _ => changeWork fun w => by split <;> rfl

theorem huffHeader (P : Params) : Lockstep (Alike true) (Alike true) (Machine.huffHeader P) :=
  bind (phase _) fun _ => bind_get (fun _ _ hs => by rw [hs.inLen, hs.freq rfl]) fun _ =>
    bind (outU P _ _) fun _ => outU P _ _

theorem huffEntries (P : Params) (t : CodeTable) : ∀ l, Lockstep (Alike true) (Alike true) (Machine.huffEntries P t l)
  | [] => pure _
  | _ :: r => bind (outByte P _) fun _ => bind (outByte P _) fun _ => bind (outString P _) fun _ => huffEntries P t r

theorem huffTable (P : Params) : Lockstep (Alike true) (Alike true) (Machine.huffTable P) :=
  bind (phase _) fun _ => bind_get (fun _ _ hs => by rw [hs.work, hs.freq rfl]) fun _ => huffEntries P _ _

theorem huffEnc (P : Params) : Lockstep SameInput (Alike true) (Machine.huffEnc P) :=
  bind beginOp fun _ => bind (huffCheck P) fun _ => bind (phase _) fun _ => bind countInput fun _ =>
    bind huffBuildPhase fun _ => bind huffCodegenPhase fun _ => bind (huffHeader P) fun _ => bind (huffTable P) fun _ =>
    codedPayload P

theorem sfCheck {k : Bool} (P : Params) : Lockstep (Alike k) (Alike k) (Machine.sfCheck P) :=
  bind (phase _) fun _ => checkRange P

theorem sfSortPhase : Lockstep (Alike true) (Alike true) Machine.sfSortPhase :=
  bind (phase _) fun _ => change fun _ _ hs => hs.withWork (by rw [hs.work, hs.freq rfl]) rfl

theorem sfBisectPhase (P : Params) : Lockstep (Alike true) (Alike true) (Machine.sfBisectPhase P) :=
  bind (phase _) fun _ => bind (changeWork fun _ => rfl) fun _ => changeWork fun w => sfAssign_wp P _ w

theorem sfEntries (P : Params) (t : CodeTable) : ∀ l, Lockstep (Alike true) (Alike true) (Machine.sfEntries P t l)
  | [] => pure _
  | _ :: r => bind (outByte P _) fun _ => bind (outU P _ _) fun _ => bind (outString P _) fun _ => sfEntries P t r

theorem sfTable (P : Params) : Lockstep (Alike true) (Alike true) (Machine.sfTable P) :=
  bind (phase _) fun _ => bind_get (fun _ _ hs => by rw [hs.work, hs.freq rfl]) fun _ =>
    bind (outU P _ _) fun _ => sfEntries P _ _

theorem sfBitCount (P : Params) : Lockstep (Alike true) (Alike true) (Machine.sfBitCount P) :=
  bind (phase _) fun _ => bind_get (fun _ _ hs => by rw [hs.work, hs.freq rfl]) fun _ => ite (raise nofun) (outU P _ _)

theorem sfEnc (P : Params) : Lockstep SameInput (Alike true) (Machine.sfEnc P) :=
  bind beginOp fun _ => bind (sfCheck P) fun _ => bind (phase _) fun _ =>
    bind clearFreq fun _ => bind countInput fun _ => bind sfSortPhase fun _ => bind (sfBisectPhase P) fun _ =>
    bind (sfTable P) fun _ => bind (sfBitCount P) fun _ => codedPayload P

/-! ### The operations that do not count -/

section coded

variable {k : Bool}

theorem outTokens (P : Params) : ∀ l, Lockstep (Alike k) (Alike k) (Machine.outTokens P l)
  | [] => pure _
  | _ :: r => bind (outByte P _) fun _ => bind (outByte P _) fun _ => bind (outByte P _) fun _ => outTokens P r

theorem lz77Enc (P : Params) : Lockstep SameInput (Alike false) (Machine.lz77Enc P) :=
  bind beginOp fun _ => bind (phase _) fun _ => bind (checkRange P) fun _ => bind (phase _) fun _ =>
    bind_get (fun _ _ hs => by rw [hs.inBytes]) fun _ => bind (phase _) fun _ => bind (outU P _ _) fun _ => outTokens P _

theorem outCodes (P : Params) : ∀ l, Lockstep (Alike k) (Alike k) (Machine.outCodes P l)
  | [] => pure _
  | _ :: r => bind (outU P _ _) fun _ => outCodes P r

theorem lzwEnc (P : Params) : Lockstep SameInput (Alike false) (Machine.lzwEnc P) :=
  bind beginOp fun _ => bind (phase _) fun _ => bind (checkRange P) fun _ => bind (phase _) fun _ =>
    bind (changeWork fun _ => rfl) fun _ => bind (phase _) fun _ =>
    bind_get (fun _ _ hs => by rw [hs.inBytes, hs.work]) fun _ => bind (changeWork fun _ => rfl) fun _ =>
    bind (phase _) fun _ => bind (phase _) fun _ => bind (outU P _ _) fun _ => outCodes P _

theorem insertCode (c : Byte) (b : Bits) : Lockstep (Alike k) (Alike k) (Machine.insertCode c b) := by
  refine bind getWork fun w => ?_
  split
  · exact changeWork fun _ => rfl
  · exact raise nofun

theorem huffReadEntry : Lockstep (Alike k) (Alike k) Machine.huffReadEntry :=
  bind inByte fun _ => bind inByte fun _ => ite (raise nofun) <| bind (inBytesN _) fun _ => insertCode _ _

theorem huffReadTable : ∀ n, Lockstep (Alike k) (Alike k) (Machine.huffReadTable n)
  | 0 => pure _
  | n + 1 => bind huffReadEntry fun _ => huffReadTable n

theorem huffWalk (P : Params) : ∀ fuel left v, Lockstep (Alike k) (Alike k) (Machine.huffWalk P fuel left v)
  | _, 0, _ => by simp only [Machine.huffWalk]; exact pure _
  | 0, _ + 1, _ => raise nofun
  | fuel + 1, left + 1, v => by
    simp only [Machine.huffWalk]
    refine bind getBit fun d => bind getWork fun w => ?_
    split
    · exact raise nofun
    · split
      · exact bind (outByte P _) fun _ => huffWalk P fuel left 0
      · exact huffWalk P fuel (left + 1) _

theorem huffDec (P : Params) : Lockstep SameInput (Alike false) (Machine.huffDec P) :=
  bind beginOp fun _ => bind (phase _) fun _ => bind (checkRange P) fun _ => bind (inU _) fun _ => bind (inU _) fun _ =>
    ite (raise nofun) <| ite (raise nofun) <| bind (phase _) fun _ => bind (changeWork fun _ => rfl) fun _ =>
    bind (huffReadTable _) fun _ => bind (phase _) fun _ => bind startPayload fun _ =>
    bind_get (fun _ _ hs => by rw [hs.inLen]) fun _ => huffWalk P _ _ _

theorem sfReadEntry (P : Params) : Lockstep (Alike k) (Alike k) (Machine.sfReadEntry P) :=
  bind inByte fun _ => bind (inU _) fun _ => ite (raise nofun) <| bind (inBytesN _) fun _ => changeWork fun _ => rfl

theorem sfReadTable (P : Params) : ∀ n, Lockstep (Alike k) (Alike k) (Machine.sfReadTable P n)
  | 0 => pure _
  | n + 1 => bind (sfReadEntry P) fun _ => sfReadTable P n

theorem sfScanBit (P : Params) : Lockstep (Alike k) (Alike k) (Machine.sfScanBit P) := by
  refine bind getBit fun d => bind (changeWork fun _ => rfl) fun _ => bind getWork fun w => ?_
  split
  · exact bind (outByte P _) fun _ => changeWork fun _ => rfl
  · exact pure _

theorem sfScan (P : Params) : ∀ n, Lockstep (Alike k) (Alike k) (Machine.sfScan P n)
  | 0 => pure _
  | n + 1 => bind (sfScanBit P) fun _ => sfScan P n

theorem sfDec (P : Params) : Lockstep SameInput (Alike false) (Machine.sfDec P) :=
  bind beginOp fun _ => bind (phase _) fun _ => bind (checkRange P) fun _ => bind (inU _) fun _ => ite (pure _) <|
    ite (raise nofun) <| bind (phase _) fun _ => bind (changeWork fun _ => rfl) fun _ => bind (sfReadTable P _) fun _ =>
    bind (phase _) fun _ => bind (inU _) fun _ => bind (phase _) fun _ => bind startPayload fun _ =>
    bind (changeWork fun _ => rfl) fun _ => sfScan P _

/-- The copy loop reads `OUT` only below the write cursor, where the operation has written it (R254). -/
theorem copyBack (P : Params) : ∀ c a n, c = 0 ∨ a < n →
    Lockstep (fun s1 s2 => Alike k s1 s2 ∧ s1.work.wp = n) (Alike k) (Machine.copyBack P c a)
  | 0, _, _, _ => (pure _).pre fun _ _ hs => hs.1
  | c + 1, a, n, h => by
    have ha : a < n := by omega
    refine bind_get ?_ fun _ => bind (outByte_at P _ n) fun _ => copyBack P c (a + 1) (n + 1) (.inr (by omega))
    rintro s1 s2 ⟨hs, rfl⟩
    obtain ⟨-, -, hread⟩ := hs.out a ha
    rw [hread]

/-- A token that passes the check of R253 copies nothing, or from at least one byte before the write cursor. -/
theorem replayToken (P : Params) : Lockstep (Alike k) (Alike k) (Machine.replayToken P) := by
  refine bind inByte fun off => bind inByte fun len => bind inByte fun sym => bind_getWork fun w => ?_
  split
  · exact raise nofun
  · next hlegal =>
    have hfrom : len.toNat = 0 ∨ w.wp - off.toNat < w.wp := by
      by_cases hlen : len = 0
      · exact .inl (by rw [hlen]; rfl)
      · have hoff : off.toNat ≠ 0 := fun h0 => hlegal (.inr ⟨BitVec.eq_of_toNat_eq h0, hlen⟩)
        have hle : off.toNat ≤ w.wp := Nat.le_of_not_lt fun h => hlegal (.inl h)
        exact .inr (by omega)
    exact bind ((copyBack P _ _ w.wp hfrom).pre fun s1 s2 ⟨hs, hw⟩ => ⟨hs, by rw [hw]⟩) fun _ => outByte P sym

theorem replayTokens (P : Params) : ∀ n, Lockstep (Alike k) (Alike k) (Machine.replayTokens P n)
  | 0 => pure _
  | n + 1 => bind (replayToken P) fun _ => replayTokens P n

theorem lz77Dec (P : Params) : Lockstep SameInput (Alike false) (Machine.lz77Dec P) :=
  bind beginOp fun _ => bind (phase _) fun _ => bind (checkRange P) fun _ => bind (inU _) fun _ =>
    ite (raise nofun) <| bind (phase _) fun _ => replayTokens P _

theorem lzwReplay (P : Params) : ∀ n prev, Lockstep (Alike k) (Alike k) (Machine.lzwReplay P n prev)
  | 0, _ => pure _
  | n + 1, prev => by
    refine bind (inU _) fun c => bind getWork fun w => ?_
    split
    · exact raise nofun
    · exact bind (outString P _) fun _ => bind (changeWork fun _ => rfl) fun _ => lzwReplay P n _

theorem lzwDec (P : Params) : Lockstep SameInput (Alike false) (Machine.lzwDec P) :=
  bind beginOp fun _ => bind (phase _) fun _ => bind (checkRange P) fun _ => bind (inU _) fun _ =>
    ite (raise nofun) <| bind (phase _) fun _ => bind (changeWork fun _ => rfl) fun _ => bind (phase _) fun _ =>
    bind (inU _) fun _ => ite (raise nofun) <| bind (outString P _) fun _ => bind (phase _) fun _ => lzwReplay P _ _

end coded

/-- All nine: from the same input on, every operation runs in lockstep, the counting ones with the same `FREQ`. -/
theorem phases (P : Params) (i : Instr) : Lockstep SameInput (Alike (countsInput i)) (Machine.phases P i) := by
  cases i
  case freqCount => exact freqCount P
  case huffEnc => exact huffEnc P
  case huffDec => exact huffDec P
  case sfEnc => exact sfEnc P
  case sfDec => exact sfDec P
  case lz77Enc => exact lz77Enc P
  case lz77Dec => exact lz77Dec P
  case lzwEnc => exact lzwEnc P
  case lzwDec => exact lzwDec P

end Lockstep

/-! ### The ends of the two runs -/

/-- What R47 makes a function of the input at the end of an operation. -/
structure EndAlike (k : Bool) (t1 t2 : State) : Prop where
  status : t1.status = t2.status
  err : t1.err = t2.err
  outLen : t1.outLen = t2.outLen
  outBytes : t1.outBytes = t2.outBytes
  freq : k = true → t1.status = 2 ∨ t1.err = errWord .emptyInput → t1.freq = t2.freq

theorem State.outBytes_congr {s1 s2 : State} (hlen : s1.outLen = s2.outLen)
    (hmem : ∀ a < s1.outLen.toNat, s1.outMem.read a = s2.outMem.read a) : s1.outBytes = s2.outBytes := by
  unfold State.outBytes
  rw [← hlen]
  exact List.map_congr_left fun a ha => hmem a (List.mem_range.mp ha)

theorem errOfNat_errWord (e : ErrKind) : errOfNat (errWord e).toNat = some e := by cases e <;> rfl

theorem errWord_injective : Function.Injective errWord := fun e f h =>
  Option.some.inj <| by rw [← errOfNat_errWord e, h, errOfNat_errWord f]

theorem Alike.finishCount {t1 t2 : State} (h : Alike true t1 t2) : EndAlike true t1.finishCount t2.finishCount where
  status := by simp
  err := by simp
  outLen := by simp
  outBytes := by simp [State.outBytes]
  freq _ _ := by simp [h.freq]

theorem Alike.finishCoded {k : Bool} {t1 t2 : State} (h : Alike k t1 t2) :
    EndAlike k (t1.finishCoded k) (t2.finishCoded k) where
  status := by simp
  err := by simp
  outLen := by simp [h.work]
  outBytes := by
    refine State.outBytes_congr (by simp [h.work]) fun a ha => ?_
    have hlt : a < t1.work.wp := by
      simp only [State.finishCoded_outLen, BitVec.toNat_ofNat] at ha
      exact ha.trans_le (Nat.mod_le _ _)
    obtain ⟨hl1, hl2, hread⟩ := h.out a hlt
    rw [State.finishCoded_outMem, State.finishCoded_outMem, Mem.read_forgetFrom hlt hl1,
      Mem.read_forgetFrom (h.work ▸ hlt) hl2, hread]
  freq hk _ := by subst hk; exact h.freq rfl

theorem Alike.lastPhase {i : Instr} {t1 t2 : State} (h : Alike (countsInput i) t1 t2) :
    EndAlike (countsInput i) (lastPhase i t1) (lastPhase i t2) := by
  cases i
  case freqCount => exact h.finishCount
  all_goals exact h.finishCoded

theorem endAlike_raiseError (k : Bool) {e : ErrKind} {t1 t2 : State} (h : e = .emptyInput → t1.freq = t2.freq) :
    EndAlike k (t1.raiseError e) (t2.raiseError e) where
  status := by simp
  err := by simp
  outLen := by simp
  outBytes := by simp [State.outBytes]
  freq _ hend := by
    have he : e = .emptyInput := by
      rcases hend with hdone | herr
      · simp [statusWord, EngState.code] at hdone
      · exact errWord_injective (by simpa using herr)
    subst he
    exact h rfl

/-- R47: two runs of an operation from the same input both end, and end alike. -/
theorem exec_endAlike (i : Instr) {s1 s2 : State} (h : SameInput s1 s2) :
    ∃ t1 t2, exec i s1 = .next t1 ∧ exec i s2 = .next t2 ∧ EndAlike (countsInput i) t1 t2 := by
  rw [exec_eq, exec_eq]
  rcases Lockstep.phases params i s1 s2 h with ⟨_, t1, t2, h1, h2, ht⟩ | ⟨e, t1, t2, h1, h2, ht⟩
  · exact ⟨_, _, runOp_of_ok h1, runOp_of_ok h2, ht.lastPhase⟩
  · exact ⟨_, _, runOp_of_error h1, runOp_of_error h2, endAlike_raiseError _ ht⟩

/-- Settles O18: the two runs go in lockstep, and what they leave ends alike. -/
theorem resultDependsOnInputAlone : Obligations.ResultDependsOnInputAlone := by
  unfold Obligations.ResultDependsOnInputAlone
  intro i s1 s2 hlen hmem
  obtain ⟨t1, t2, h1, h2, hend⟩ := exec_endAlike i ⟨hlen, hmem⟩
  exact ⟨t1, t2, h1, h2, hend.status, hend.err, hend.outLen, hend.outBytes, hend.freq⟩

end Sys2Proof.Machine
end

section
/-! PROOFS. The command word (O1), what `Pack` holds (O25), and the bit packer, which writes `Pack` (O24). -/

namespace Sys2Proof

/-! ### The command word (R80, R81) -/

/-- The decoder of `OP` and the operation codes are inverse to each other, on all 16 values of `OP` (R81). -/
theorem decodeOp_eq_some_iff (op : BitVec 4) (i : Instr) : decodeOp op = some i ↔ op = i.opCode := by
  revert op
  cases i <;> decide

/-- A command word is its two fields (R80). -/
theorem word_eq_append (w : Word) : w = cmdZero w ++ cmdOp w :=
  (BitVec.extractLsb'_append_extractLsb' (w := 28) (len := 4)).symm

theorem cmdZero_encode (i : Instr) : cmdZero (encode i) = 0 := by cases i <;> rfl

theorem cmdOp_encode (i : Instr) : cmdOp (encode i) = i.opCode := by cases i <;> rfl

/-- A word decodes to an instruction exactly when it is that instruction's word. -/
theorem decode_eq_ok_iff (w : Word) (i : Instr) : decode w = .ok i ↔ w = encode i := by
  have hfields : decode w = .ok i ↔ cmdZero w = 0 ∧ cmdOp w = i.opCode := by
    rw [← decodeOp_eq_some_iff]
    unfold decode
    by_cases hz : cmdZero w = 0
    · rw [if_pos hz]
      cases decodeOp (cmdOp w) <;> simp [hz]
    · rw [if_neg hz]
      simp only [hz, false_and, reduceCtorEq]
  rw [hfields]
  constructor
  · rintro ⟨hz, hop⟩
    rw [word_eq_append w, word_eq_append (encode i), hz, hop, cmdZero_encode, cmdOp_encode]
  · rintro rfl
    exact ⟨cmdZero_encode i, cmdOp_encode i⟩

/-- Settles O1: the decoder inverts `encode`, whose nine words are the rows of the table. -/
theorem commandWordsDecode : Obligations.CommandWordsDecode := by
  unfold Obligations.CommandWordsDecode
  intro w i
  rw [decode_eq_ok_iff]
  cases i <;> simp [encode]

end Sys2Proof

namespace Sys2Proof.Machine

/-! ### The bits of `Pack` (R88) -/

/-- The sum of R88 is the byte with those bits, most significant first. -/
theorem packByte_eq_ofFnBE (b : Bits) (j : Nat) :
    packByte b j = BitVec.ofFnBE fun i : Fin 8 => b[8 * j + i]?.getD false := by
  have hbit : ∀ i, (if b[8 * j + i]? = some true then 2 ^ (7 - i) else 0) =
      (b[8 * j + i]?.getD false).toNat * 2 ^ (7 - i) := by
    intro i
    rcases b[8 * j + i]? with _ | _ | _ <;> simp
  apply BitVec.eq_of_toNat_eq
  rw [packByte, BitVec.toNat_ofNat, BitVec.toNat_ofFnBE, ← Nat.mod_eq_of_lt (Nat.ofBits_lt_two_pow _)]
  simp only [hbit]
  congr 1
  -- Horner's form of the eight terms on the right
  simp [List.range_succ, Nat.ofBits_succ, Fin.rev]
  ring

/-- Bit `7 - i` of byte `j` is bit `8j + i` of the sequence; a bit that does not exist counts as 0 (R88). -/
theorem getMsbD_packByte (b : Bits) (j : Nat) {i : Nat} (hi : i < 8) :
    (packByte b j).getMsbD i = b[8 * j + i]?.getD false := by
  rw [packByte_eq_ofFnBE, BitVec.getMsbD_ofFnBE, dif_pos hi]

/-- Two packed bytes are equal when the bits of the sequences are. -/
theorem packByte_congr {b d : Bits} {j k : Nat} (h : ∀ i < 8, b[8 * j + i]? = d[8 * k + i]?) :
    packByte b j = packByte d k := by
  simp only [packByte_eq_ofFnBE]
  congr 1
  funext i
  rw [h i i.isLt]

/-- A whole byte stays when bits are added at the end. -/
theorem packByte_append {b : Bits} {j : Nat} (c : Bits) (h : 8 * j + 8 ≤ b.length) : packByte (b ++ c) j = packByte b j :=
  packByte_congr fun i hi => List.getElem?_append_left (by omega)

/-- A byte after the last bit is 0. -/
theorem packByte_of_length_le {b : Bits} {j : Nat} (h : b.length ≤ 8 * j) : packByte b j = 0 := by
  rw [packByte_congr (d := []) (k := 0) fun i _ => by rw [List.getElem?_eq_none (by omega), List.getElem?_nil]]
  decide

@[simp] theorem pack_length (b : Bits) : (pack b).length = ceil8 b.length := by simp [pack]

/-- Byte `j` of `Pack(b)`, read as 0 after the end. -/
theorem pack_getD (b : Bits) (j : Nat) : (pack b)[j]?.getD 0 = packByte b j := by
  by_cases hj : j < ceil8 b.length
  · simp [pack, hj]
  · rw [List.getElem?_eq_none (by simpa using hj), packByte_of_length_le (by unfold ceil8 at hj; omega), Option.getD_none]

/-- Bit `k` of `Pack(b)` is bit `k` of the sequence, and 0 after its end. -/
theorem packedBit_pack (b : Bits) (k : Nat) : packedBit (pack b) k = b[k]?.getD false := by
  have hlt : k % 8 < 8 := Nat.mod_lt k (by decide)
  have hmsb := getMsbD_packByte b (k / 8) hlt
  rw [BitVec.getMsbD, decide_eq_true hlt, Bool.true_and, Nat.div_add_mod] at hmsb
  rw [packedBit, pack_getD]
  exact hmsb

/-- `unpack` takes the bits of a sequence out of its packed bytes. -/
theorem unpack_pack (b : Bits) : unpack b.length (pack b) = b := by
  apply List.ext_getElem (by simp [unpack])
  intro k _ hk
  simp [unpack, packedBit_pack, hk]

/-- Settles O25: each bit of `Pack(b)` is the bit of the sequence, or 0 where there is none. -/
theorem packHoldsTheBits : Obligations.PackHoldsTheBits := by
  unfold Obligations.PackHoldsTheBits
  intro b
  refine ⟨pack_length b, unpack_pack b, fun k hk => ?_⟩
  rw [packedBit_pack, List.getElem?_eq_none hk, Option.getD_none]

/-! ### The bit packer (R89, R90) -/

/-- The bytes of `Pack(q)` that `q` fills. -/
def wholeBytes (q : Bits) : List Byte := (List.range (q.length / 8)).map (packByte q)

@[simp] theorem wholeBytes_length (q : Bits) : (wholeBytes q).length = q.length / 8 := by simp [wholeBytes]

/-- `Pack(q)` is the whole bytes, and the byte of the bits left over where there are any. -/
theorem pack_eq_wholeBytes_append (q : Bits) :
    pack q = wholeBytes q ++ if 0 < q.length % 8 then [packByte q (q.length / 8)] else [] := by
  unfold pack wholeBytes
  split
  · rw [show ceil8 q.length = q.length / 8 + 1 by unfold ceil8; omega, List.range_succ, List.map_append]
    rfl
  · rw [show ceil8 q.length = q.length / 8 by unfold ceil8; omega, List.append_nil]

/-- One more bit completes a byte when it is the eighth. -/
theorem wholeBytes_concat (q : Bits) (b : Bool) :
    wholeBytes (q ++ [b]) = wholeBytes q ++ if q.length % 8 = 7 then [packByte (q ++ [b]) (q.length / 8)] else [] := by
  have hkeep : (List.range (q.length / 8)).map (packByte (q ++ [b])) = wholeBytes q :=
    List.map_congr_left fun j hj => packByte_append _ (by have := List.mem_range.mp hj; omega)
  rw [wholeBytes, List.length_append, List.length_singleton]
  split
  · rw [show (q.length + 1) / 8 = q.length / 8 + 1 by omega, List.range_succ, List.map_append, hkeep]
    rfl
  · rw [show (q.length + 1) / 8 = q.length / 8 by omega, hkeep, List.append_nil]

/-- The byte that holds one bit, in bit 0 (R89). -/
theorem getMsbD_bitByte (b : Bool) (k : Nat) : (BitVec.ofNat 8 b.toNat).getMsbD k = (decide (k = 7) && b) := by
  cases b
  · simp
  · simp [BitVec.getMsbD_one]

/-- `PutBits` sets the next bit of the byte being filled (R89). -/
theorem packByte_concat (q : Bits) (b : Bool) :
    packByte q (q.length / 8) ||| (BitVec.ofNat 8 b.toNat <<< (7 - q.length % 8)) = packByte (q ++ [b]) (q.length / 8) := by
  apply BitVec.eq_of_getMsbD_eq
  intro i hi
  rw [BitVec.getMsbD_or, BitVec.getMsbD_shiftLeft, getMsbD_bitByte, getMsbD_packByte _ _ hi, getMsbD_packByte _ _ hi]
  rcases Nat.lt_trichotomy i (q.length % 8) with hlt | heq | hgt
  · rw [List.getElem?_append_left (by omega), decide_eq_false (by omega), Bool.false_and, Bool.or_false]
  · rw [show 8 * (q.length / 8) + i = q.length by omega, List.getElem?_concat_length, List.getElem?_eq_none le_rfl,
      decide_eq_true (by omega)]
    rfl
  · rw [List.getElem?_eq_none (by omega), List.getElem?_eq_none (by simp; omega), decide_eq_false (by omega)]
    rfl

/-- The state with a bit buffer of `n` bits, `b`. -/
def State.withBuffer (b : Byte) (n : Nat) (s : State) : State :=
  { s with work := { s.work with bitbuf := b, bitcnt := n } }

@[simp] theorem State.withBuffer_wp (b : Byte) (n : Nat) (s : State) : (s.withBuffer b n).work.wp = s.work.wp := rfl
@[simp] theorem State.withBuffer_bitbuf (b : Byte) (n : Nat) (s : State) : (s.withBuffer b n).work.bitbuf = b := rfl
@[simp] theorem State.withBuffer_bitcnt (b : Byte) (n : Nat) (s : State) : (s.withBuffer b n).work.bitcnt = n := rfl
@[simp] theorem State.withBuffer_withBuffer (b d : Byte) (n k : Nat) (s : State) :
    (s.withBuffer b n).withBuffer d k = s.withBuffer d k := rfl
@[simp] theorem State.withBuffer_wrote (b : Byte) (n : Nat) (l : List Byte) (s : State) :
    (s.withBuffer b n).wrote l = (s.wrote l).withBuffer b n := rfl

theorem startBits_run (s : State) : startBits s = .ok () (s.withBuffer 0 0) := rfl

theorem State.withBuffer_eq_self {s : State} (hbuf : s.work.bitbuf = 0) (hcnt : s.work.bitcnt = 0) : s.withBuffer 0 0 = s := by
  rw [← hbuf, ← hcnt]
  rfl

/-- The state after the bits `q` have been put, from a state with an empty buffer on: the whole bytes are written, and the
buffer holds the bits left over (R89). -/
def State.packed (q : Bits) (s : State) : State :=
  (s.wrote (wholeBytes q)).withBuffer (packByte q (q.length / 8)) (q.length % 8)

theorem State.packed_nil {s : State} (hbuf : s.work.bitbuf = 0) (hcnt : s.work.bitcnt = 0) : s.packed [] = s :=
  State.withBuffer_eq_self (s := s) hbuf hcnt

@[simp] theorem State.packed_wp (q : Bits) (s : State) : (s.packed q).work.wp = s.work.wp + q.length / 8 := by
  simp [State.packed]

/-- A byte written behind the whole bytes, the buffer cleared. -/
theorem State.packed_wrote_cleared (q : Bits) (l : List Byte) (s : State) :
    ((s.packed q).wrote l).withBuffer 0 0 = (s.wrote (wholeBytes q ++ l)).withBuffer 0 0 := by
  rw [State.packed, State.withBuffer_wrote, State.withBuffer_withBuffer, State.wrote_append]

/-- The eighth bit of a byte: the byte is written and the buffer is empty again. -/
theorem State.packed_concat_of_full {q : Bits} (b : Bool) (s : State) (h : q.length % 8 = 7) :
    s.packed (q ++ [b]) = ((s.packed q).wrote [packByte (q ++ [b]) (q.length / 8)]).withBuffer 0 0 := by
  rw [State.packed_wrote_cleared, State.packed, wholeBytes_concat, if_pos h, packByte_of_length_le (by simp; omega),
    show (q ++ [b]).length % 8 = 0 by simp; omega]

/-- Any other bit only changes the buffer. -/
theorem State.packed_concat_of_not_full {q : Bits} (b : Bool) (s : State) (h : q.length % 8 ≠ 7) :
    s.packed (q ++ [b]) = (s.packed q).withBuffer (packByte (q ++ [b]) (q.length / 8)) (q.length % 8 + 1) := by
  rw [State.packed, wholeBytes_concat, if_neg h, List.append_nil, show (q ++ [b]).length / 8 = q.length / 8 by simp; omega,
    show (q ++ [b]).length % 8 = q.length % 8 + 1 by simp; omega, State.packed, State.withBuffer_withBuffer]

/-- A byte written and the buffer cleared, or `IoWrite` where `OUT` is full. -/
theorem outByte_startBits_run (P : Params) (b : Byte) (s : State) :
    (s.work.wp < P.outCap → (do outByte P b; startBits : Eng Unit) s = .ok () ((s.wrote [b]).withBuffer 0 0)) ∧
    (s.work.wp = P.outCap → ∃ t, (do outByte P b; startBits : Eng Unit) s = .error .ioWrite t) := by
  obtain ⟨hfits, hfull⟩ := outByte_writes P b s
  refine ⟨fun h => ?_, fun h => ?_⟩
  · rw [bind_of_ok (hfits h), startBits_run]
  · exact (hfull (by simp; omega) h.le).imp fun _ => bind_of_error

/-- `PutBits` of one bit behind the bits `q` (R89). -/
theorem putBit_packed (P : Params) (b : Bool) (q : Bits) (s : State) :
    putBit P b (s.packed q) =
      if q.length % 8 = 7 then
        (do outByte P (packByte (q ++ [b]) (q.length / 8)); startBits : Eng Unit)
          ((s.packed q).withBuffer (packByte (q ++ [b]) (q.length / 8)) 8)
      else .ok () (s.packed (q ++ [b])) := by
  have hrun : putBit P b (s.packed q) =
      (if q.length % 8 + 1 = 8 then (do outByte P (packByte (q ++ [b]) (q.length / 8)); startBits) else pure () : Eng Unit)
        ((s.packed q).withBuffer (packByte (q ++ [b]) (q.length / 8)) (q.length % 8 + 1)) := by
    rw [← packByte_concat]
    rfl
  rw [hrun]
  by_cases h : q.length % 8 = 7
  · rw [if_pos h, h]
    rfl
  · rw [if_neg h, if_neg (by omega), State.packed_concat_of_not_full b s h, pure_run]

/-- The computation puts the bits `c` behind any bits put before, or raises `IoWrite` where a byte of them does not fit. -/
def Packs (P : Params) (m : Eng Unit) (c : Bits) : Prop :=
  ∀ (s : State) (q : Bits), s.work.wp + q.length / 8 ≤ P.outCap →
    (s.work.wp + (q ++ c).length / 8 ≤ P.outCap → m (s.packed q) = .ok () (s.packed (q ++ c))) ∧
    (P.outCap < s.work.wp + (q ++ c).length / 8 → ∃ t, m (s.packed q) = .error .ioWrite t)

theorem Packs.nothing (P : Params) : Packs P (pure ()) [] := fun s q hq =>
  ⟨fun _ => by rw [List.append_nil]; rfl, fun h => by rw [List.append_nil] at h; omega⟩

theorem Packs.seq {P : Params} {m n : Eng Unit} {c d : Bits} (hm : Packs P m c) (hn : Packs P n d) :
    Packs P (m >>= fun _ => n) (c ++ d) := by
  intro s q hq
  obtain ⟨hfits, hfull⟩ := hm s q hq
  rw [← List.append_assoc]
  by_cases hc : s.work.wp + (q ++ c).length / 8 ≤ P.outCap
  · rw [bind_of_ok (hfits hc)]
    exact hn s (q ++ c) hc
  · obtain ⟨t, ht⟩ := hfull (by omega)
    refine ⟨fun h => absurd h ?_, fun _ => ⟨t, bind_of_error ht⟩⟩
    rw [List.length_append]
    omega

theorem putBit_packs (P : Params) (b : Bool) : Packs P (putBit P b) [b] := by
  intro s q hq
  rw [putBit_packed, List.length_append, List.length_singleton]
  by_cases h : q.length % 8 = 7
  · obtain ⟨hfits, hfull⟩ := outByte_startBits_run P (packByte (q ++ [b]) (q.length / 8))
      ((s.packed q).withBuffer (packByte (q ++ [b]) (q.length / 8)) 8)
    rw [State.withBuffer_wrote, State.withBuffer_withBuffer, State.withBuffer_wp, State.packed_wp] at hfits
    rw [State.withBuffer_wp, State.packed_wp] at hfull
    rw [if_pos h, State.packed_concat_of_full b s h]
    exact ⟨fun hc => hfits (by omega), fun hc => hfull (by omega)⟩
  · rw [if_neg h]
    exact ⟨fun _ => rfl, fun hc => by omega⟩

theorem putBits_packs (P : Params) : ∀ c, Packs P (putBits P c) c
  | [] => Packs.nothing P
  | b :: c => (putBit_packs P b).seq (putBits_packs P c)

theorem putCodes_packs (P : Params) (codes : CodeTable) : ∀ x, Packs P (putCodes P codes x) (payloadBits codes x)
  | [] => Packs.nothing P
  | b :: x => (putBits_packs P (codeOf codes b)).seq (putCodes_packs P codes x)

/-- `FlushBits` after the bits `q` writes the byte of the bits left over, or nothing where there are none (R90). -/
theorem flushBits_packed (P : Params) (q : Bits) (s : State) :
    flushBits P (s.packed q) =
      (if 0 < q.length % 8 then (do outByte P (packByte q (q.length / 8)); startBits) else pure () : Eng Unit) (s.packed q) :=
  rfl

/-- `FlushBits` after the bits `q` has written `Pack(q)`, or raises `IoWrite` where the last byte does not fit (R90). -/
theorem flushBits_writes_pack (P : Params) (q : Bits) {s : State} (hbuf : s.work.bitbuf = 0) (hcnt : s.work.bitcnt = 0)
    (hq : s.work.wp + q.length / 8 ≤ P.outCap) :
    (s.work.wp + (pack q).length ≤ P.outCap → flushBits P (s.packed q) = .ok () (s.wrote (pack q))) ∧
    (P.outCap < s.work.wp + (pack q).length → ∃ t, flushBits P (s.packed q) = .error .ioWrite t) := by
  have hclear := State.withBuffer_eq_self (s := s.wrote (pack q)) hbuf hcnt
  rw [flushBits_packed, ← hclear, pack_eq_wholeBytes_append]
  by_cases hr : 0 < q.length % 8
  · obtain ⟨hfits, hfull⟩ := outByte_startBits_run P (packByte q (q.length / 8)) (s.packed q)
    rw [State.packed_wp, State.packed_wrote_cleared] at hfits
    rw [State.packed_wp] at hfull
    rw [if_pos hr, if_pos hr, List.length_append, wholeBytes_length, List.length_singleton]
    exact ⟨fun h => hfits (by omega), fun h => hfull (by omega)⟩
  · have hzero : q.length % 8 = 0 := by omega
    rw [if_neg hr, if_neg hr, List.append_nil, wholeBytes_length, State.packed, packByte_of_length_le (by omega), hzero]
    exact ⟨fun _ => rfl, fun h => by omega⟩

/-- R90: the packer, started with an empty buffer, writes `Pack` of the codes, and nothing else. -/
theorem putCodes_flushBits_writes (P : Params) (codes : CodeTable) (x : List Byte) {s : State} (hbuf : s.work.bitbuf = 0)
    (hcnt : s.work.bitcnt = 0) :
    Writes P (do putCodes P codes x; flushBits P) (pack (payloadBits codes x)) s := by
  have hle : (payloadBits codes x).length / 8 ≤ (pack (payloadBits codes x)).length := by
    rw [pack_length, ceil8]
    omega
  have hput := putCodes_packs P codes x s []
  rw [List.nil_append, State.packed_nil hbuf hcnt, List.length_nil, Nat.zero_div, Nat.add_zero] at hput
  by_cases hroom : s.work.wp + (payloadBits codes x).length / 8 ≤ P.outCap
  · obtain ⟨hok, -⟩ := hput (by omega)
    obtain ⟨hfits, hfull⟩ := flushBits_writes_pack P (payloadBits codes x) hbuf hcnt hroom
    rw [Writes, bind_of_ok (hok hroom)]
    exact ⟨hfits, fun h _ => hfull h⟩
  · refine ⟨fun h => absurd h (by omega), fun _ hw => ?_⟩
    obtain ⟨-, herr⟩ := hput hw
    exact (herr (by omega)).imp fun _ => bind_of_error

/-- Settles O24: `FlushBits` after the codes has written `Pack`, and a string written leaves every other cell. -/
theorem packerWritesPack : Obligations.PackerWritesPack := by
  unfold Obligations.PackerWritesPack
  intro P codes x s hbuf hcnt hroom
  obtain ⟨hfits, -⟩ := putCodes_flushBits_writes P codes x hbuf hcnt
  refine ⟨_, hfits hroom, rfl, hcnt, fun i hi => ?_, fun a ha => ?_⟩
  · rw [State.wrote_outMem, Mem.read_writeAll, if_pos (by omega), Nat.add_sub_cancel_left, List.getElem?_eq_getElem hi]
    rfl
  · rw [State.wrote_outMem, Mem.read_writeAll, if_neg (by omega)]

end Sys2Proof.Machine
end

section
/-! PROOFS. `HUFF.ENC` checks its input (O29), and the length of what it writes (O34): its run writes the Huffman container and
nothing else, a payload has `Σ FREQ[s]·|code(s)|` bits, and no code has more than 255. -/

namespace Sys2Proof.Machine

/-! ### Strings written after changes of the working state -/

/-- From `s` the computation writes exactly the string `l`, as if it had started in `s'` at the same write cursor and changed
nothing else; or it raises `IoWrite` where `l` does not fit. -/
def WritesAs (P : Params) (m : Eng Unit) (l : List Byte) (s s' : State) : Prop :=
  s'.work.wp = s.work.wp ∧
  (s.work.wp + l.length ≤ P.outCap → m s = .ok () (s'.wrote l)) ∧
  (P.outCap < s.work.wp + l.length → s.work.wp ≤ P.outCap → ∃ t, m s = .error .ioWrite t)

/-- A computation that first takes `s` to `s'` and then only writes. -/
theorem Writes.after {P : Params} {m n : Eng Unit} {l : List Byte} {s s' : State} (h : Writes P m l s')
    (hrun : n s = m s') (hwp : s'.work.wp = s.work.wp) : WritesAs P n l s s' := by
  rw [WritesAs, hrun, ← hwp]
  exact ⟨rfl, h⟩

theorem WritesAs.seq {P : Params} {m n : Eng Unit} {k l : List Byte} {s s' s'' : State} (hm : WritesAs P m k s s')
    (hn : WritesAs P n l (s'.wrote k) (s''.wrote k)) : WritesAs P (m >>= fun _ => n) (k ++ l) s s'' := by
  obtain ⟨hwp, hfits, hfull⟩ := hm
  obtain ⟨hwp', hfits', hfull'⟩ := hn
  simp only [State.wrote_work] at hwp' hfits' hfull'
  rw [WritesAs, List.length_append, State.wrote_append]
  refine ⟨by omega, fun h => ?_, fun h hw => ?_⟩
  · rw [bind_of_ok (hfits (by omega))]
    exact hfits' (by omega)
  · by_cases hk : s.work.wp + k.length ≤ P.outCap
    · rw [bind_of_ok (hfits hk)]
      exact hfull' (by omega) (by omega)
    · exact (hfull (by omega) hw).imp fun _ => bind_of_error

/-- The payload of both coding encoders is `Pack` of the codes of the input (R141, R203). -/
theorem codedPayload_writesAs (P : Params) (s : State) :
    WritesAs P (codedPayload P) (pack (payloadBits s.work.codes s.inBytes)) s ((s.setPhase .payload).withBuffer 0 0) :=
  (putCodes_flushBits_writes P s.work.codes s.inBytes rfl rfl).after rfl rfl

theorem huffHeader_writesAs (P : Params) (s : State) :
    WritesAs P (huffHeader P) (bigEndian 8 s.inLen.toNat ++ bigEndian 4 (present s.freq).length) s (s.setPhase .header) :=
  ((outU_writes P 8 s.inLen.toNat _).seq (outU_writes P 4 (present s.freq).length _)).after rfl rfl

theorem huffTable_writesAs (P : Params) (s : State) :
    WritesAs P (huffTable P) (huffTableBytes s.freq s.work.codes) s (s.setPhase .table) :=
  (huffEntries_writes P s.work.codes (present s.freq) _).after rfl rfl

/-- The three writing phases of `HUFF.ENC` write the container of the table in `FREQ` and the codes in the code table. -/
theorem huffOutput_writesAs (P : Params) (s : State) :
    WritesAs P (do huffHeader P; huffTable P; codedPayload P)
      (bigEndian 8 s.inLen.toNat ++ bigEndian 4 (present s.freq).length ++
        (huffTableBytes s.freq s.work.codes ++ pack (payloadBits s.work.codes s.inBytes)))
      s ((s.setPhase .payload).withBuffer 0 0) := by
  refine (huffHeader_writesAs P s).seq ?_
  generalize bigEndian 8 s.inLen.toNat ++ bigEndian 4 (present s.freq).length = header
  have htable : WritesAs P (huffTable P) (huffTableBytes s.freq s.work.codes) ((s.setPhase .header).wrote header)
      ((s.setPhase .table).wrote header) := huffTable_writesAs P ((s.setPhase .header).wrote header)
  exact htable.seq (codedPayload_writesAs P (((s.setPhase .table).wrote header).wrote (huffTableBytes s.freq s.work.codes)))

/-! ### The run of `HUFF.ENC` -/

/-- The state at the start of an operation: the working state is initialised (R30). -/
def State.begun (s : State) : State := { s with work := Work.init }

/-- The state after the phase `CHECK`: `FREQ` is cleared (R131). -/
def State.huffChecked (s : State) : State := { s.setPhase .check with freq := zeroFreq }

/-- The state after the scan of the input (R120). -/
def State.counted (s : State) : State := { s with freq := countBytes s.inBytes s.freq }

/-- The state after the phase `BUILD`: the arena and the queue of the table in `FREQ` (R133 to R135). -/
def State.huffBuilt (s : State) : State :=
  { s with work := { s.work with phase := .build, nodes := (huffBuild s.freq).1, queue := (huffBuild s.freq).2 } }

/-- The state after the phase `CODEGEN` as well: the codes of the table in `FREQ` (R136, R137). -/
def State.huffCoded (s : State) : State :=
  { s with work := { s.huffBuilt.work with phase := .codegen, codes := huffCodes s.freq } }

/-- The state of `HUFF.ENC` when the phase `HEADER` begins (R130). -/
def State.huffReady (s : State) : State :=
  { s with
    freq := histogram s.inBytes
    work := { Work.init with
      phase := .codegen
      nodes := (huffBuild (histogram s.inBytes)).1
      queue := (huffBuild (histogram s.inBytes)).2
      codes := huffCodes (histogram s.inBytes) } }

theorem State.huffReady_freq (s : State) : s.huffReady.freq = histogram s.inBytes := rfl
theorem State.huffReady_wp (s : State) : s.huffReady.work.wp = 0 := rfl
theorem State.huffReady_codes (s : State) : s.huffReady.work.codes = huffCodes (histogram s.inBytes) := rfl

/-- The phases up to `CODEGEN`, one after the other, come to that state. -/
theorem State.phases_huffReady (s : State) : (s.begun.huffChecked.setPhase .count).counted.huffCoded = s.huffReady := by
  simp only [State.huffReady, State.huffCoded, State.huffBuilt, State.counted, State.huffChecked, State.begun, State.setPhase,
    State.inBytes, histogram]

theorem State.huffReady_sameOutside (s : State) : SameOutside s s.huffReady := (SameOutside.refl s).with _ s.outMem _

theorem countInput_run (s : State) : countInput s = .ok () s.counted := rfl

theorem beginOp_run (s : State) : beginOp s = .ok () s.begun := rfl

theorem huffBuildPhase_run (s : State) : huffBuildPhase s = .ok () s.huffBuilt := rfl

/-- R131: the checks, after `IN_LEN ≤ IN_CAP`. -/
theorem huffCheck_run {P : Params} {s : State} (h : s.inLen.toNat ≤ P.inCap) :
    huffCheck P s = if s.inLen = 0 then .error .emptyInput s.huffChecked else .ok () s.huffChecked := by
  have hrun : huffCheck P s = (if s.inLen = 0 then raise .emptyInput else pure () : Eng Unit) s.huffChecked := by
    unfold huffCheck
    rw [bind_of_ok (phase_run .check s), bind_of_ok ((checkRange_run P (s.setPhase .check)).1 h)]
    rfl
  rw [hrun]
  split <;> rfl

/-- Phase `CODEGEN` on the arena and the queue of the table `f` (R136). -/
theorem huffCodegenPhase_run {f : FreqTable} {s : State} (h : (s.work.nodes, s.work.queue) = huffBuild f) :
    huffCodegenPhase s = .ok () { s with work := { s.work with phase := .codegen, codes := huffCodes f } } := by
  unfold huffCodegenPhase huffCodes
  rw [← h, bind_of_ok (phase_run .codegen s), changeWork_run]
  cases hq : s.work.queue <;> simp only [State.setPhase, hq]

/-- On a non-empty input within `IN_CAP` the operation comes to the phase `HEADER` (R131 to R137). -/
theorem huffEnc_of_nonempty {P : Params} {s : State} (hcap : s.inLen.toNat ≤ P.inCap) (hne : s.inLen ≠ 0) :
    huffEnc P s = (do huffHeader P; huffTable P; codedPayload P : Eng Unit) s.huffReady := by
  have hcheck : huffCheck P s.begun = .ok () s.begun.huffChecked := (huffCheck_run (s := s.begun) hcap).trans (if_neg hne)
  unfold huffEnc
  rw [bind_of_ok (beginOp_run s), bind_of_ok hcheck, bind_of_ok (phase_run .count _), bind_of_ok (countInput_run _),
    bind_of_ok (huffBuildPhase_run _), bind_of_ok (huffCodegenPhase_run rfl), ← State.phases_huffReady]
  rfl

/-- R139 to R142, R144: on a non-empty input within `IN_CAP` the phases write the Huffman container, or raise `IoWrite`. -/
theorem huffEnc_run {P : Params} {s : State} (hcap : s.inLen.toNat ≤ P.inCap) (hne : s.inLen ≠ 0) :
    ((huffContainer s.inBytes).length ≤ P.outCap →
      huffEnc P s = .ok () (((s.huffReady.setPhase .payload).withBuffer 0 0).wrote (huffContainer s.inBytes))) ∧
    (P.outCap < (huffContainer s.inBytes).length → ∃ t, huffEnc P s = .error .ioWrite t) := by
  obtain ⟨-, hfits, hfull⟩ := huffOutput_writesAs P s.huffReady
  have houtside := s.huffReady_sameOutside
  simp only [houtside.inLen, houtside.inBytes, State.huffReady_codes, State.huffReady_freq, State.huffReady_wp,
    Nat.zero_add, ← State.inBytes_length, ← List.append_assoc, Nat.zero_le, true_imp_iff] at hfits hfull
  rw [huffEnc_of_nonempty hcap hne]
  exact ⟨hfits, hfull⟩

/-- R131: an empty input ends `HUFF.ENC` with `EmptyInput`, after `FREQ` has been cleared. -/
theorem huffEnc_of_empty {P : Params} {s : State} (h : s.inLen = 0) :
    huffEnc P s = .error .emptyInput s.begun.huffChecked := by
  have hcheck : huffCheck P s.begun = .error .emptyInput s.begun.huffChecked :=
    (huffCheck_run (s := s.begun) (by simp [State.begun, h])).trans (if_pos h)
  unfold huffEnc
  rw [bind_of_ok (beginOp_run s), bind_of_error hcheck]

/-- `HUFF.ENC` ends in `DONE` only with the Huffman container as its output and the histogram in `FREQ`. -/
theorem huffEnc_done {s t : State} (h : exec .huffEnc s = .next t) (hdone : t.status = 2) :
    DoneWith t (huffContainer s.inBytes) ∧ t.freq = histogram s.inBytes := by
  rw [exec_eq] at h
  rcases runOp_cases h with ⟨u, hu, rfl⟩ | ⟨e, u, -, rfl⟩
  · change huffEnc params s = .ok () u at hu
    have hcap : s.inLen.toNat ≤ params.inCap := by
      by_contra hover
      obtain ⟨v, hv⟩ := RaisesRange.phases params .huffEnc s (Nat.lt_of_not_le hover)
      cases hu.symm.trans hv
    have hne : s.inLen ≠ 0 := fun h0 => nomatch hu.symm.trans (huffEnc_of_empty h0)
    obtain ⟨hfits, hfull⟩ := huffEnc_run hcap hne
    have hroom : (huffContainer s.inBytes).length ≤ params.outCap := by
      by_contra hover
      obtain ⟨v, hv⟩ := hfull (Nat.lt_of_not_le hover)
      cases hu.symm.trans hv
    cases hu.symm.trans (hfits hroom)
    exact ⟨doneWith_finishCoded true rfl (hroom.trans_lt (by decide)), rfl⟩
  · simp [statusWord, EngState.code] at hdone

/-- Settles O29: `Range` is the check of all nine operations; `EmptyInput` is raised after `FREQ` has been cleared. -/
theorem huffEncChecksItsInput : Obligations.HuffEncChecksItsInput := by
  unfold Obligations.HuffEncChecksItsInput
  refine fun s => ⟨exec_range .huffEnc, fun h => ?_⟩
  exact ⟨_, (exec_eq .huffEnc s).trans (runOp_of_error (huffEnc_of_empty h)), failedWith_raiseError _ _, rfl⟩

/-! ### The histogram and the symbols present -/

theorem present_sublist (f : FreqTable) : (present f).Sublist symbols := by
  have hfst : (symbols.zip f.toList).map Prod.fst = symbols := List.map_fst_zip (by simp [symbols])
  rw [← hfst]
  exact (List.filter_sublist).map Prod.fst

theorem symbols_nodup : symbols.Nodup := by
  refine List.Nodup.map_on (fun i hi j hj h => ?_) List.nodup_range
  simpa [Nat.mod_eq_of_lt (List.mem_range.mp hi), Nat.mod_eq_of_lt (List.mem_range.mp hj)] using congrArg BitVec.toNat h

theorem present_nodup (f : FreqTable) : (present f).Nodup := symbols_nodup.sublist (present_sublist f)

theorem present_length_le (f : FreqTable) : (present f).length ≤ nsym := by
  simpa [symbols] using (present_sublist f).length_le

/-- The scan adds to each counter the number of its symbol, modulo `2^CNT_W` (R28, R120). -/
theorem countOf_countBytes (x : List Byte) (f : FreqTable) (c : Byte) :
    countOf (countBytes x f) c = countOf f c + BitVec.ofNat cntW (x.count c) := by
  induction x generalizing f with
  | nil => simp [countBytes]
  | cons b x ih =>
    have hscan : countBytes (b :: x) f = countBytes x (increment f b) := rfl
    rw [hscan, ih, countOf_increment, List.count_cons]
    by_cases h : c = b
    · subst h
      simp [BitVec.ofNat_add, add_assoc, add_comm, add_left_comm]
    · simp [h, Ne.symm h]

/-- R29: each counter of the histogram is the number of its symbol. -/
theorem countOf_histogram {x : List Byte} (hx : x.length < 2 ^ cntW) (c : Byte) :
    (countOf (histogram x) c).toNat = x.count c := by
  rw [histogram, countOf_countBytes, countOf_zeroFreq, zero_add, BitVec.toNat_ofNat,
    Nat.mod_eq_of_lt (List.count_le_length.trans_lt hx)]

theorem mem_present_histogram {x : List Byte} (hx : x.length < 2 ^ cntW) (c : Byte) :
    c ∈ present (histogram x) ↔ c ∈ x := by
  rw [mem_present, ← List.count_pos_iff, ← countOf_histogram hx, Nat.pos_iff_ne_zero]
  exact BitVec.toNat_ne_iff_ne.symm

/-! ### The length of the container -/

theorem payloadBits_length (t : CodeTable) (x : List Byte) :
    (payloadBits t x).length = (x.map fun c => (codeOf t c).length).sum := List.length_flatMap

/-- R143, R202: the exact number of bits of the payload. -/
theorem bitTotal_histogram {x : List Byte} (hx : x.length < 2 ^ cntW) (t : CodeTable) :
    bitTotal (histogram x) t = (payloadBits t x).length := by
  have hsymbols : (present (histogram x)).toFinset = x.toFinset := by
    ext c
    simp [mem_present_histogram hx]
  calc bitTotal (histogram x) t
      = ((present (histogram x)).map fun c => x.count c * (codeOf t c).length).sum := by
        simp only [bitTotal, countOf_histogram hx]
    _ = ∑ c ∈ x.toFinset, x.count c * (codeOf t c).length := by
        rw [← hsymbols, List.sum_toFinset _ (present_nodup _)]
    _ = (x.map fun c => (codeOf t c).length).sum := by simp [Finset.sum_list_map_count]
    _ = (payloadBits t x).length := (payloadBits_length t x).symm

theorem huffTableBytes_length (f : FreqTable) (t : CodeTable) :
    (huffTableBytes f t).length = ((present f).map fun c => 2 + ceil8 (codeOf t c).length).sum := by
  rw [huffTableBytes, List.length_flatMap]
  simp only [List.length_cons, pack_length, Nat.add_comm 2]

/-- R143, for the container of any byte string. -/
theorem huffContainer_length {x : List Byte} (hx : x.length < 2 ^ cntW) :
    (huffContainer x).length =
      12 + ((present (histogram x)).map fun c => 2 + ceil8 (codeOf (huffCodes (histogram x)) c).length).sum +
        ceil8 (bitTotal (histogram x) (huffCodes (histogram x))) := by
  rw [bitTotal_histogram hx, ← huffTableBytes_length, huffContainer]
  simp only [List.length_append, bigEndian_length, pack_length]

/-! ### No code is longer than 255 bits -/

/-- `Q.insert` adds one element (R134). -/
theorem enqueue_perm (nodes : List HuffNode) (k : Nat) : ∀ q, (enqueue nodes k q).Perm (k :: q)
  | [] => .refl _
  | j :: q => by
    unfold enqueue
    split
    · exact .refl _
    · exact ((enqueue_perm nodes k q).cons j).trans (.swap k j q)

/-- The queue starts with all the leaves (R134). -/
theorem huffQueue_perm (nodes : List HuffNode) (n : Nat) : (huffQueue nodes n).Perm (List.range n) := by
  induction n with
  | zero => exact .refl _
  | succ n ih =>
    have hlast : huffQueue nodes (n + 1) = enqueue nodes n (huffQueue nodes n) := by
      simp [huffQueue, List.range_succ]
    rw [hlast, List.range_succ]
    exact (enqueue_perm nodes n _).trans ((ih.cons n).trans (List.perm_append_singleton n _).symm)

theorem huffLeaves_length (f : FreqTable) : ∀ (k : Nat) (l : List Byte), (huffLeaves f k l).length = l.length
  | _, [] => rfl
  | k, _ :: l => congrArg (· + 1) (huffLeaves_length f (k + 1) l)

theorem not_inner_mem_huffLeaves (f : FreqTable) (w o a b : Nat) :
    ∀ (k : Nat) (l : List Byte), HuffNode.inner w o a b ∉ huffLeaves f k l
  | _, [] => List.not_mem_nil
  | k, _ :: l => by
    rw [huffLeaves, List.mem_cons, not_or]
    exact ⟨nofun, not_inner_mem_huffLeaves f w o a b (k + 1) l⟩

/-- The arena and the queue in the middle of the merge of `n` leaves: every internal node stands after the leaves and after its
children, and each merge has made one node and shortened the queue by one (R134). -/
structure MergeState (n : Nat) (nodes : List HuffNode) (q : List Nat) : Prop where
  size : nodes.length + q.length = 2 * n
  leaves : n ≤ nodes.length
  queued : ∀ k ∈ q, k < nodes.length
  inner : ∀ v w o a b, nodes[v]? = some (.inner w o a b) → n ≤ v ∧ a < v ∧ b < v

theorem mergeState_leaves (f : FreqTable) (l : List Byte) :
    MergeState l.length (huffLeaves f 0 l) (huffQueue (huffLeaves f 0 l) l.length) where
  size := by rw [huffLeaves_length, (huffQueue_perm _ _).length_eq, List.length_range, Nat.two_mul]
  leaves := (huffLeaves_length f 0 l).ge
  queued k hk := by
    rw [huffLeaves_length]
    exact List.mem_range.mp ((huffQueue_perm _ _).mem_iff.mp hk)
  inner v w o a b h := absurd (List.mem_of_getElem? h) (not_inner_mem_huffLeaves f w o a b 0 l)

/-- One turn of the merge loop keeps it. -/
theorem MergeState.merge {n : Nat} {nodes : List HuffNode} {a b : Nat} {q : List Nat} (h : MergeState n nodes (a :: b :: q))
    (w : Nat) :
    MergeState n (nodes ++ [.inner w nodes.length a b])
      (enqueue (nodes ++ [.inner w nodes.length a b]) nodes.length q) where
  size := by
    have hsize := h.size
    rw [(enqueue_perm _ _ _).length_eq]
    simp only [List.length_append, List.length_cons, List.length_nil] at hsize ⊢
    omega
  leaves := by
    rw [List.length_append]
    exact h.leaves.trans (Nat.le_add_right _ _)
  queued k hk := by
    rw [List.length_append, List.length_singleton]
    rcases List.mem_cons.mp ((enqueue_perm _ _ _).mem_iff.mp hk) with rfl | hq
    · exact Nat.lt_succ_self _
    · exact (h.queued k (by simp [hq])).trans (Nat.lt_succ_self _)
  inner v w' o' c d hv := by
    rcases Nat.lt_trichotomy v nodes.length with hold | rfl | hover
    · exact h.inner v w' o' c d (by rwa [List.getElem?_append_left hold] at hv)
    · rw [List.getElem?_concat_length] at hv
      cases hv
      exact ⟨h.leaves, h.queued a (by simp), h.queued b (by simp)⟩
    · rw [List.getElem?_eq_none (by simpa using hover)] at hv
      cases hv

theorem MergeState.huffMerge {n : Nat} : ∀ (fuel : Nat) {nodes : List HuffNode} {q : List Nat}, MergeState n nodes q →
    MergeState n (huffMerge fuel nodes q).1 (huffMerge fuel nodes q).2
  | 0, _, _, h => h
  | _ + 1, _, [], h => h
  | _ + 1, _, [_], h => h
  | fuel + 1, _, _ :: _ :: _, h => MergeState.huffMerge fuel (h.merge _)

theorem huffBuild_mergeState (f : FreqTable) : MergeState (present f).length (huffBuild f).1 (huffBuild f).2 := by
  unfold huffBuild
  have h := (mergeState_leaves f (present f)).huffMerge (huffLeaves f 0 (present f)).length
  rwa [← huffLeaves_length f 0 (present f)] at h ⊢

/-- A path goes down to smaller nodes, and only internal nodes prolong it. -/
theorem MergeState.path_length_le {n : Nat} {nodes : List HuffNode} {q : List Nat} (h : MergeState n nodes q) :
    ∀ (fuel v : Nat) (path : Bits), ∀ e ∈ huffPaths nodes fuel v path, e.2.length ≤ path.length + (v + 1 - n)
  | 0, _, _ => by simp [huffPaths]
  | fuel + 1, v, path => by
    intro e he
    unfold huffPaths at he
    split at he
    · next s hv =>
      rw [List.mem_singleton.mp he]
      exact Nat.le_add_right _ _
    · next l r hv =>
      obtain ⟨hn, hl, hr⟩ := h.inner _ _ _ _ _ hv
      rcases List.mem_append.mp he with he | he
      · have := h.path_length_le fuel l _ e he
        rw [List.length_append, List.length_singleton] at this
        omega
      · have := h.path_length_le fuel r _ e he
        rw [List.length_append, List.length_singleton] at this
        omega
    · simp at he

theorem forceCode_length_le {m : Nat} (hm : 1 ≤ m) {path : Bits} (h : path.length ≤ m) : (forceCode path).length ≤ m := by
  unfold forceCode
  split
  · exact hm
  · exact h

/-- A bound on the paths bounds the codes. -/
theorem codeOf_tableOfPaths_length_le {m : Nat} (hm : 1 ≤ m) {ps : List (Byte × Bits)} (h : ∀ e ∈ ps, e.2.length ≤ m)
    (c : Byte) : (codeOf (tableOfPaths ps) c).length ≤ m := by
  refine List.foldlRecOn (motive := fun t => ∀ c, (codeOf t c).length ≤ m) ps _ (fun c => ?_) (fun t ht e he c => ?_) c
  · simp [codeOf]
  · rw [codeOf_setCode]
    split
    · exact forceCode_length_le hm (h e he)
    · exact ht c

/-- R138 (a): no code is longer than 255 bits. -/
theorem huffCodes_length_le (f : FreqTable) (c : Byte) : (codeOf (huffCodes f) c).length ≤ 255 := by
  have h := huffBuild_mergeState f
  have hn : (present f).length ≤ 256 := present_length_le f
  unfold huffCodes
  dsimp only
  split
  · next root rest hq =>
    rw [hq] at h
    have hroot := h.queued root List.mem_cons_self
    have hsize := h.size
    rw [List.length_cons] at hsize
    refine codeOf_tableOfPaths_length_le (by decide) (fun e he => ?_) c
    have hpath := h.path_length_le _ _ _ e he
    rw [List.length_nil] at hpath
    omega
  · exact codeOf_tableOfPaths_length_le (by decide) (by simp) c

/-- R143: the payload has at most `255·IN_LEN` bits. -/
theorem huffPayload_length_le (x : List Byte) (f : FreqTable) : (payloadBits (huffCodes f) x).length ≤ 255 * x.length := by
  have hsum := List.sum_le_card_nsmul (x.map fun c => (codeOf (huffCodes f) c).length) 255 (by
    simpa using fun c _ => huffCodes_length_le f c)
  rw [payloadBits_length]
  simpa [Nat.mul_comm] using hsum

/-- Settles O34: at the end in `DONE` the output is the Huffman container. -/
theorem huffEncOutputLength : Obligations.HuffEncOutputLength := by
  unfold Obligations.HuffEncOutputLength
  intro s t hrun hdone
  obtain ⟨⟨-, -, hlen, -⟩, hfreq⟩ := huffEnc_done hrun hdone
  have hx : s.inBytes.length < 2 ^ cntW := s.inBytes_length ▸ s.inLen.isLt
  rw [hfreq, hlen]
  refine ⟨huffContainer_length hx, ?_⟩
  rw [bitTotal_histogram hx, ← s.inBytes_length]
  exact huffPayload_length_le _ _

end Sys2Proof.Machine
end

section
/-! PROOFS. What `HUFF.DEC` rejects: the header and containers cut short (O35), bad table entries (O37), a payload bit that
selects an absent child (O38). The decode arena is described by what stands at the end of each path from its root, and after
the table has been read these are exactly the codes of its entries and their proper prefixes. -/

namespace Sys2Proof.Machine

variable {α β : Type}

/-! ### The numbers of the header (R86) -/

/-- The sum of R86 over the bytes of `BE(n, v)` is `v`, as far as `n` bytes hold it. -/
theorem bigEndian_sum (n v : Nat) :
    ((List.range n).map fun i => v / 2 ^ (8 * (n - 1 - i)) % 256 * 2 ^ (8 * (n - 1 - i))).sum = v % 2 ^ (8 * n) := by
  induction n with
  | zero => simp [Nat.mod_one]
  | succ n ih =>
    have hshift : ∀ i, n + 1 - 1 - (i + 1) = n - 1 - i := fun i => by omega
    have hpow : ∀ k, 2 ^ (8 * k) = 256 ^ k := fun k => by rw [Nat.pow_mul]
    simp only [List.range_succ_eq_map, List.map_cons, List.map_map, Function.comp_def, List.sum_cons, Nat.succ_eq_add_one,
      hshift, ih]
    simp only [hpow, Nat.add_sub_cancel, Nat.sub_zero, Nat.mod_pow_succ]
    ring

/-- A field that holds `BE(n, v)` reads as `v`. -/
theorem memRead_of_bigEndian {m : Mem} {a n v : Nat} (hv : v < 2 ^ (8 * n))
    (h : ∀ i < n, some (m.read (a + i)) = (bigEndian n v)[i]?) : memRead m a n = v := by
  have hbyte : ∀ i ∈ List.range n, (m.read (a + i)).toNat * 2 ^ (8 * (n - 1 - i)) =
      v / 2 ^ (8 * (n - 1 - i)) % 256 * 2 ^ (8 * (n - 1 - i)) := fun i hi => by
    have hi' := List.mem_range.mp hi
    have hread := h i hi'
    rw [bigEndian, List.getElem?_map, List.getElem?_range hi', Option.map_some, Option.some_inj] at hread
    rw [hread, BitVec.toNat_ofNat]
  rw [memRead, List.map_congr_left hbyte, bigEndian_sum, Nat.mod_eq_of_lt hv]

/-- A field of the input that holds `BE(n, v)` reads as `v`. -/
theorem memRead_of_inBytes {s : State} {k r : List Byte} {n v : Nat} (hv : v < 2 ^ (8 * n))
    (h : s.inBytes = k ++ bigEndian n v ++ r) : memRead s.inMem k.length n = v := by
  refine memRead_of_bigEndian hv fun i hi => ?_
  have hlen : k.length + i < s.inLen.toNat := by
    rw [← s.inBytes_length, h]
    simp
    omega
  have hbyte := s.inBytes_getElem? (k.length + i)
  rw [if_pos hlen, h, List.append_assoc, List.getElem?_append_right (by omega), List.getElem?_append_left (by simp; omega),
    Nat.add_sub_cancel_left] at hbyte
  exact hbyte.symm

/-! ### Raising an error -/

/-- Computations that run alike go on alike. -/
theorem bind_congr_run {m n : Eng α} {s t : State} (h : m s = n t) (f : α → Eng β) : (m >>= f) s = (n >>= f) t := by
  show EStateM.bind m f s = EStateM.bind n f t
  simp only [EStateM.bind, h]

/-- From `s` the computation raises `e`. -/
def Raises (m : Eng α) (e : ErrKind) (s : State) : Prop := ∃ t, m s = .error e t

theorem Raises.bind {m : Eng α} {f : α → Eng β} {e : ErrKind} {s : State} (h : Raises m e s) : Raises (m >>= f) e s :=
  h.imp fun _ => bind_of_error

theorem Raises.after {m : Eng α} {f : α → Eng β} {e : ErrKind} {s t : State} {a : α} (hm : m s = .ok a t)
    (h : Raises (f a) e t) : Raises (m >>= f) e s :=
  h.imp fun _ ht => (bind_of_ok hm).trans ht

theorem raises_raise (e : ErrKind) (s : State) : Raises (raise e : Eng α) e s := ⟨s, rfl⟩

/-- An operation whose phases raise an error fails with it (R304). -/
theorem exec_failedWith {i : Instr} {s : State} {e : ErrKind} (h : Raises (phases params i) e s) :
    ∃ t, exec i s = .next t ∧ FailedWith t e := by
  obtain ⟨u, hu⟩ := h
  exact ⟨_, (exec_eq i s).trans (runOp_of_error hu), failedWith_raiseError e u⟩

/-! ### The input not read yet -/

/-- The bytes of the input at and after the read cursor. -/
def State.left (s : State) : List Byte := s.inBytes.drop s.work.rp

@[simp] theorem State.left_advance (n : Nat) (s : State) : (s.advance n).left = s.left.drop n := by
  simp [State.left, List.drop_drop]

theorem inByte_of_left {s : State} {b : Byte} {r : List Byte} (h : s.left = b :: r) : inByte s = .ok b (s.advance 1) := by
  have hb : s.inBytes[s.work.rp]? = some b := by rw [← List.head?_drop, ← State.left, h, List.head?_cons]
  rw [inByte_run, hb]

theorem inByte_raises {s : State} (h : s.left = []) : Raises inByte .ioRead s := by
  refine ⟨s, ?_⟩
  rw [inByte_run, ← List.head?_drop, ← State.left, h, List.head?_nil]

theorem inBytesN_of_left : ∀ (bs : List Byte) {s : State} {r : List Byte}, s.left = bs ++ r →
    inBytesN bs.length s = .ok bs (s.advance bs.length)
  | [], _, _, _ => rfl
  | b :: bs, s, r, h => by
    have hrest := inBytesN_of_left bs (s := s.advance 1) (r := r) (by rw [State.left_advance, h]; rfl)
    rw [List.length_cons, inBytesN, bind_of_ok (inByte_of_left h), bind_of_ok hrest, pure_run, State.advance_advance,
      Nat.add_comm]

theorem inBytesN_raises : ∀ {n : Nat} {s : State}, s.left.length < n → Raises (inBytesN n) .ioRead s
  | 0, _, h => absurd h (Nat.not_lt_zero _)
  | n + 1, s, h => by
    rw [inBytesN]
    rcases hl : s.left with _ | ⟨b, r⟩
    · exact (inByte_raises hl).bind
    · have hrest : (s.advance 1).left.length < n := by
        rw [hl, List.length_cons] at h
        rw [State.left_advance, hl, List.drop_one, List.tail_cons]
        omega
      exact Raises.after (inByte_of_left hl) (inBytesN_raises hrest).bind

/-! ### Entries of the table (R93, R163) -/

theorem HuffEntry.wf_iff (e : HuffEntry) : e.wf = true ↔ e.len ≠ 0 ∧ e.bits.length = ceil8 e.len.toNat := by
  simp [HuffEntry.wf]

theorem HuffEntry.code_ne_nil {e : HuffEntry} (h : e.wf = true) : e.code ≠ [] := by
  have hlen : e.len.toNat ≠ 0 := fun h0 => ((e.wf_iff).mp h).1 (BitVec.eq_of_toNat_eq h0)
  rw [HuffEntry.code, unpack, Ne, List.map_eq_nil_iff, List.range_eq_nil]
  exact hlen

/-- A whole entry of legal length is read, and its code is inserted (R163, R164). -/
theorem huffReadEntry_run {e : HuffEntry} {s : State} {r : List Byte} (he : e.wf = true) (h : s.left = e.bytes ++ r) :
    huffReadEntry s = insertCode e.sym e.code (s.advance e.bytes.length) := by
  obtain ⟨hlen, hbits⟩ := e.wf_iff.mp he
  have hsym : inByte s = .ok e.sym (s.advance 1) := inByte_of_left h
  have hcount : inByte (s.advance 1) = .ok e.len ((s.advance 1).advance 1) :=
    inByte_of_left (r := e.bits ++ r) (by rw [State.left_advance, h]; rfl)
  have hcode : inBytesN (ceil8 e.len.toNat) ((s.advance 1).advance 1) = .ok e.bits (s.advance e.bytes.length) := by
    rw [← hbits, inBytesN_of_left e.bits (r := r) (by simp only [State.left_advance, h]; rfl), State.advance_advance,
      State.advance_advance, HuffEntry.bytes, List.length_cons, List.length_cons]
    congr 2
    omega
  rw [huffReadEntry, bind_of_ok hsym, bind_of_ok hcount, if_neg hlen, bind_of_ok hcode, HuffEntry.code]

/-- R164: an entry of length 0. -/
theorem huffReadEntry_of_zero_length {sym : Byte} {s : State} {r : List Byte} (h : s.left = sym :: 0 :: r) :
    Raises huffReadEntry .invalidContainer s := by
  have hcount : inByte (s.advance 1) = .ok 0 ((s.advance 1).advance 1) :=
    inByte_of_left (r := r) (by rw [State.left_advance, h]; rfl)
  exact (Raises.after (inByte_of_left h)) (Raises.after hcount (raises_raise _ _))

/-- R174: an entry of which only a proper part is there. -/
theorem huffReadEntry_of_part {e : HuffEntry} {s : State} (he : e.wf = true) (hpart : s.left <+: e.bytes)
    (hlt : s.left.length < e.bytes.length) : Raises huffReadEntry .ioRead s := by
  obtain ⟨hlen, hbits⟩ := e.wf_iff.mp he
  rw [huffReadEntry]
  rcases hl : s.left with _ | ⟨sym, _ | ⟨len, bs⟩⟩
  · exact (inByte_raises hl).bind
  · exact Raises.after (inByte_of_left hl) (inByte_raises (by rw [State.left_advance, hl]; rfl)).bind
  · rw [hl, HuffEntry.bytes] at hpart hlt
    obtain ⟨rfl, htail⟩ := List.cons_prefix_cons.mp hpart
    obtain ⟨rfl, -⟩ := List.cons_prefix_cons.mp htail
    have hcount : inByte (s.advance 1) = .ok e.len ((s.advance 1).advance 1) :=
      inByte_of_left (r := bs) (by rw [State.left_advance, hl]; rfl)
    refine Raises.after (inByte_of_left hl) (Raises.after hcount ?_)
    rw [if_neg hlen]
    refine (inBytesN_raises ?_).bind
    simp only [State.left_advance, hl, List.drop_succ_cons, List.drop_zero, List.length_cons] at hlt ⊢
    omega

/-! ### The decode arena as a set of paths (R34, R166) -/

/-- The node that a path leads to from node `v`. -/
def nodeBelow (tree : List DecNode) (v : Nat) (p : Bits) : Option Nat := p.foldlM (childOf tree) v

/-- What stands at the end of a path from the root: nothing, an internal node, or the leaf of a symbol. -/
def symAt (tree : List DecNode) (p : Bits) : Option (Option Byte) := (nodeBelow tree 0 p).map (leafSym tree)

@[simp] theorem nodeBelow_nil (tree : List DecNode) (v : Nat) : nodeBelow tree v [] = some v := rfl

theorem nodeBelow_cons (tree : List DecNode) (v : Nat) (d : Bool) (p : Bits) :
    nodeBelow tree v (d :: p) = (childOf tree v d).bind fun w => nodeBelow tree w p := List.foldlM_cons ..

theorem nodeBelow_append (tree : List DecNode) (v : Nat) (p q : Bits) :
    nodeBelow tree v (p ++ q) = (nodeBelow tree v p).bind fun w => nodeBelow tree w q := List.foldlM_append ..

theorem nodeBelow_concat (tree : List DecNode) (v : Nat) (p : Bits) (d : Bool) :
    nodeBelow tree v (p ++ [d]) = (nodeBelow tree v p).bind fun w => childOf tree w d := by
  simp [nodeBelow_append, nodeBelow_cons]

/-- A leaf has no child. -/
theorem leafSym_of_child {tree : List DecNode} {v w : Nat} {d : Bool} (h : childOf tree v d = some w) :
    leafSym tree v = none := by
  unfold childOf at h
  unfold leafSym
  split at h
  · next hv => rw [hv]
  · cases h

/-- A path that goes on leaves no leaf. -/
theorem leafSym_of_path {tree : List DecNode} {v u : Nat} {p : Bits} (h : nodeBelow tree v p = some u)
    (hu : leafSym tree u = none) : leafSym tree v = none := by
  cases p with
  | nil => rwa [Option.some_inj.mp h]
  | cons d p =>
    rw [nodeBelow_cons] at h
    obtain ⟨w, hw, -⟩ := Option.bind_eq_some_iff.mp h
    exact leafSym_of_child hw

theorem isLeafNode_eq (tree : List DecNode) (w : Nat) : isLeafNode tree w = (leafSym tree w).isSome := by
  unfold isLeafNode leafSym
  split
  · rfl
  · next h => cases hw : tree[w]? with
    | none => rfl
    | some m => cases m with
      | leaf s => exact absurd hw (h s)
      | inner c0 c1 => rfl

/-- Nothing stands below an absent path. -/
theorem symAt_append_of_absent {tree : List DecNode} {p : Bits} (h : symAt tree p = none) (q : Bits) :
    symAt tree (p ++ q) = none := by
  rw [symAt, Option.map_eq_none_iff] at h ⊢
  rw [nodeBelow_append, h, Option.bind_none]

/-- The arena is a tree: every path from the root ends at a node of its own. -/
structure Arena (tree : List DecNode) : Prop where
  lt : ∀ {p v}, nodeBelow tree 0 p = some v → v < tree.length
  inj : ∀ {p q v}, nodeBelow tree 0 p = some v → nodeBelow tree 0 q = some v → p = q

/-- The arena with a new node, which becomes child `d` of node `v`. -/
def attachNode (tree : List DecNode) (v : Nat) (d : Bool) (n : DecNode) : List DecNode :=
  setChild (tree ++ [n]) v d tree.length

/-- A node with no child. -/
def DecNode.childless : DecNode → Prop
  | .leaf _ => True
  | .inner c0 c1 => c0 = none ∧ c1 = none

theorem DecNode.leaf_childless (s : Byte) : (DecNode.leaf s).childless := trivial
theorem DecNode.inner_childless : (DecNode.inner none none).childless := ⟨rfl, rfl⟩

section

variable {tree : List DecNode} {n : DecNode} {v : Nat} {d : Bool}

/-- The records of the arena after a node has been attached below an internal one. -/
theorem getElem?_attachNode (hv : v < tree.length) (hin : leafSym tree v = none) :
    ∃ c0 c1, tree[v]? = some (.inner c0 c1) ∧ ∀ x, (attachNode tree v d n)[x]? =
      if x = v then some (if d then .inner c0 (some tree.length) else .inner (some tree.length) c1)
      else if x = tree.length then some n else tree[x]? := by
  obtain ⟨m, hm⟩ : ∃ m, tree[v]? = some m := ⟨_, List.getElem?_eq_getElem hv⟩
  cases m with
  | leaf s => simp [leafSym, hm] at hin
  | inner c0 c1 =>
    refine ⟨c0, c1, hm, fun x => ?_⟩
    rw [attachNode, setChild, List.getElem?_append_left hv, hm]
    by_cases hxv : x = v
    · subst hxv
      simp only [if_true]
      exact List.getElem?_set_self (by simp; omega)
    · rw [if_neg hxv]
      refine (List.getElem?_set_ne (Ne.symm hxv)).trans ?_
      rcases Nat.lt_trichotomy x tree.length with hx | rfl | hx
      · rw [List.getElem?_append_left hx, if_neg hx.ne]
      · rw [List.getElem?_concat_length, if_pos rfl]
      · rw [List.getElem?_eq_none (by simp; omega), if_neg hx.ne', List.getElem?_eq_none hx.le]

/-- Attaching a node adds one child and leaves the others. -/
theorem childOf_attachNode (hv : v < tree.length) (hin : leafSym tree v = none) (hn : n.childless) (x : Nat) (b : Bool) :
    childOf (attachNode tree v d n) x b = if x = v ∧ b = d then some tree.length else childOf tree x b := by
  obtain ⟨c0, c1, hm, hget⟩ := getElem?_attachNode (d := d) (n := n) hv hin
  unfold childOf
  rw [hget x]
  by_cases hxv : x = v
  · subst hxv
    rw [hm]
    cases d <;> cases b <;> simp
  · by_cases hxl : x = tree.length
    · subst hxl
      cases n with
      | leaf s => simp [hxv]
      | inner c0' c1' =>
        obtain ⟨rfl, rfl⟩ := hn
        simp [hxv]
    · simp [hxv, hxl]

/-- Attaching a node adds its symbol and leaves the others. -/
theorem leafSym_attachNode (hv : v < tree.length) (hin : leafSym tree v = none) (x : Nat) :
    leafSym (attachNode tree v d n) x = if x = tree.length then leafSym [n] 0 else leafSym tree x := by
  obtain ⟨c0, c1, hm, hget⟩ := getElem?_attachNode (d := d) (n := n) hv hin
  unfold leafSym
  rw [hget x]
  by_cases hxv : x = v
  · subst hxv
    rw [hm]
    cases d <;> simp [hv.ne]
  · rw [if_neg hxv]
    by_cases hxl : x = tree.length
    · rw [if_pos hxl, if_pos hxl]
      rfl
    · rw [if_neg hxl, if_neg hxl]

variable {p : Bits}

/-- The paths after a node has been attached at the end of the absent path `p ++ [d]`. -/
theorem Arena.nodeBelow_attachNode (h : Arena tree) (hp : nodeBelow tree 0 p = some v) (hin : leafSym tree v = none)
    (hn : n.childless) (habs : childOf tree v d = none) (q : Bits) :
    nodeBelow (attachNode tree v d n) 0 q = if q = p ++ [d] then some tree.length else nodeBelow tree 0 q := by
  have hchild := childOf_attachNode (d := d) (n := n) (h.lt hp) hin hn
  have hnew : ∀ b, childOf tree tree.length b = none := fun b => by simp [childOf]
  induction q using List.reverseRecOn with
  | nil => simp
  | append_singleton q b ih =>
    rw [nodeBelow_concat, nodeBelow_concat, ih]
    by_cases hq : q = p ++ [d]
    · subst hq
      have hne : tree.length ≠ v := (h.lt hp).ne'
      simp [hchild, hne, hnew, nodeBelow_concat, hp, habs]
    · rw [if_neg hq]
      cases hx : nodeBelow tree 0 q with
      | none =>
        have hqp : q ≠ p := by rintro rfl; rw [hp] at hx; cases hx
        simp [hqp]
      | some x =>
        have hxv : x = v ↔ q = p := by
          refine ⟨fun e => h.inj hx (e ▸ hp), fun e => ?_⟩
          rw [e, hp] at hx
          exact (Option.some_inj.mp hx).symm
        simp [hchild, hxv]

theorem Arena.attach (h : Arena tree) (hp : nodeBelow tree 0 p = some v) (hin : leafSym tree v = none)
    (hn : n.childless) (habs : childOf tree v d = none) : Arena (attachNode tree v d n) := by
  have hpath := h.nodeBelow_attachNode hp hin hn habs
  have hlen : (attachNode tree v d n).length = tree.length + 1 := by
    unfold attachNode setChild
    split <;> simp
  refine ⟨fun {q x} hq => ?_, fun {q r x} hq hr => ?_⟩
  · rw [hpath] at hq
    split at hq
    · rw [hlen, ← Option.some_inj.mp hq]
      exact Nat.lt_succ_self _
    · exact hlen ▸ Nat.lt_succ_of_lt (h.lt hq)
  · rw [hpath] at hq hr
    split at hq <;> split at hr
    · next h1 h2 => rw [h1, h2]
    · exact absurd (Option.some_inj.mp hq) (h.lt hr).ne'
    · exact absurd (Option.some_inj.mp hr) (h.lt hq).ne'
    · exact h.inj hq hr

/-- What stands at the end of a path after a node has been attached. -/
theorem Arena.symAt_attachNode (h : Arena tree) (hp : nodeBelow tree 0 p = some v) (hin : leafSym tree v = none)
    (hn : n.childless) (habs : childOf tree v d = none) (q : Bits) :
    symAt (attachNode tree v d n) q = if q = p ++ [d] then some (leafSym [n] 0) else symAt tree q := by
  rw [symAt, h.nodeBelow_attachNode hp hin hn habs, symAt]
  split
  · simp [leafSym_attachNode (h.lt hp) hin]
  · cases hq : nodeBelow tree 0 q with
    | none => rfl
    | some x => simp [leafSym_attachNode (h.lt hp) hin, (h.lt hq).ne]

end

/-! ### Insertion of a code (R166, R167) -/

/-- A conflict of R167 below the path `p`: something stands at the end of the code, or a leaf on the way. -/
def Conflict (tree : List DecNode) (p c : Bits) : Prop :=
  symAt tree (p ++ c) ≠ none ∨ ∃ q s, q <+: c ∧ symAt tree (p ++ q) = some (some s)

/-- What stands at the end of the path `q` once the code `c` has been given to a symbol. -/
def symAfter (tree : List DecNode) (sym : Byte) (c q : Bits) : Option (Option Byte) :=
  if q = c then some (some sym) else if q <+: c ∧ symAt tree q = none then some none else symAt tree q

section

variable {tree : List DecNode} {v w : Nat} {p c : Bits} {d : Bool} {sym : Byte}

theorem insertPath_single : insertPath tree sym v [d] =
    if childOf tree v d = none then some (attachNode tree v d (.leaf sym)) else none := by
  rw [insertPath]
  cases childOf tree v d <;> rfl

theorem insertPath_of_absent (hc : c ≠ []) (habs : childOf tree v d = none) :
    insertPath tree sym v (d :: c) = insertPath (attachNode tree v d (.inner none none)) sym tree.length c := by
  cases c with
  | nil => exact absurd rfl hc
  | cons e c => rw [insertPath, habs]; rfl

theorem insertPath_of_child (hc : c ≠ []) (hw : childOf tree v d = some w) :
    insertPath tree sym v (d :: c) = if (leafSym tree w).isSome then none else insertPath tree sym w c := by
  cases c with
  | nil => exact absurd rfl hc
  | cons e c => rw [insertPath, hw, ← isLeafNode_eq]

theorem symAt_concat (hp : nodeBelow tree 0 p = some v) : symAt tree (p ++ [d]) = (childOf tree v d).map (leafSym tree) := by
  rw [symAt, nodeBelow_concat, hp]
  rfl

theorem not_conflict_of_absent (h : symAt tree p = none) : ¬ Conflict tree p c := by
  rintro (hpres | ⟨q, s, -, hs⟩)
  · exact hpres (symAt_append_of_absent h c)
  · rw [symAt_append_of_absent h] at hs
    cases hs

/-- Below an internal node a conflict is one below the child that the first bit selects. -/
theorem conflict_cons (hp : nodeBelow tree 0 p = some v) (hin : leafSym tree v = none) :
    Conflict tree p (d :: c) ↔ Conflict tree (p ++ [d]) c := by
  unfold Conflict
  rw [List.append_assoc, List.singleton_append]
  refine or_congr_right ⟨?_, ?_⟩
  · rintro ⟨q, s, hpre, hs⟩
    rcases List.prefix_cons_iff.mp hpre with rfl | ⟨r, rfl, hpre'⟩
    · simp [symAt, hp, hin] at hs
    · exact ⟨r, s, hpre', by rwa [List.append_assoc]⟩
  · rintro ⟨q, s, hpre, hs⟩
    exact ⟨d :: q, s, List.cons_prefix_cons.mpr ⟨rfl, hpre⟩, by rwa [List.append_assoc] at hs⟩

/-- A conflicting code is rejected (R167). -/
theorem insertPath_of_conflict : ∀ {c p : Bits} {v : Nat}, nodeBelow tree 0 p = some v → leafSym tree v = none → c ≠ [] →
    Conflict tree p c → insertPath tree sym v c = none
  | d :: c, p, v, hp, hin, _, hconf => by
    rw [conflict_cons hp hin] at hconf
    cases hw : childOf tree v d with
    | none => exact absurd hconf (not_conflict_of_absent (by rw [symAt_concat hp, hw]; rfl))
    | some w =>
      cases c with
      | nil => rw [insertPath_single, hw, if_neg (Option.some_ne_none w)]
      | cons e c =>
        rw [insertPath_of_child (List.cons_ne_nil e c) hw]
        cases hl : leafSym tree w with
        | some s => rfl
        | none =>
          have hpd : nodeBelow tree 0 (p ++ [d]) = some w := by rw [nodeBelow_concat, hp]; exact hw
          exact insertPath_of_conflict hpd hl (List.cons_ne_nil e c) hconf

/-- The last step of an insertion. -/
theorem Arena.symAt_attachNode_leaf (h : Arena tree) (hp : nodeBelow tree 0 p = some v) (hin : leafSym tree v = none)
    (habs : childOf tree v d = none) (q : Bits) :
    symAt (attachNode tree v d (.leaf sym)) q = symAfter tree sym (p ++ [d]) q := by
  rw [h.symAt_attachNode hp hin (DecNode.leaf_childless sym) habs, symAfter]
  by_cases hq : q = p ++ [d]
  · rw [if_pos hq, if_pos hq]
    rfl
  · rw [if_neg hq, if_neg hq, if_neg]
    rintro ⟨hpre, hnone⟩
    obtain ⟨r, rfl⟩ := (List.prefix_concat_iff.mp hpre).resolve_left hq
    have hend := symAt_append_of_absent hnone r
    simp [symAt, hp] at hend

/-- A step of an insertion that makes an internal node. -/
theorem Arena.symAfter_attachNode_inner (h : Arena tree) (hp : nodeBelow tree 0 p = some v) (hin : leafSym tree v = none)
    (habs : childOf tree v d = none) (q : Bits) :
    symAfter (attachNode tree v d (.inner none none)) sym (p ++ [d] ++ c) q = symAfter tree sym (p ++ [d] ++ c) q := by
  rw [symAfter, symAfter, h.symAt_attachNode hp hin DecNode.inner_childless habs]
  by_cases hq : q = p ++ [d]
  · subst hq
    simp [symAt_concat hp, habs, leafSym]
  · simp only [if_neg hq]

/-- A code without conflict is inserted: it leads to a leaf of its symbol, its proper beginnings to internal nodes, and every
other path leads where it did (R166). -/
theorem insertPath_of_not_conflict : ∀ {c p : Bits} {tree : List DecNode} {v : Nat}, Arena tree →
    nodeBelow tree 0 p = some v → leafSym tree v = none → c ≠ [] → ¬ Conflict tree p c →
    ∃ t, insertPath tree sym v c = some t ∧ Arena t ∧ ∀ q, symAt t q = symAfter tree sym (p ++ c) q
  | [d], p, tree, v, ha, hp, hin, _, hconf => by
    have habs : childOf tree v d = none := by
      by_contra h
      exact hconf (.inl (by rwa [symAt_concat hp, Ne, Option.map_eq_none_iff]))
    exact ⟨_, by rw [insertPath_single, if_pos habs], ha.attach hp hin (DecNode.leaf_childless sym) habs,
      ha.symAt_attachNode_leaf hp hin habs⟩
  | d :: e :: c, p, tree, v, ha, hp, hin, _, hconf => by
    have hne : e :: c ≠ [] := List.cons_ne_nil e c
    rw [List.append_cons]
    cases hw : childOf tree v d with
    | none =>
      have hn := DecNode.inner_childless
      have hpd : nodeBelow (attachNode tree v d (.inner none none)) 0 (p ++ [d]) = some tree.length := by
        rw [ha.nodeBelow_attachNode hp hin hn hw, if_pos rfl]
      have hl : leafSym (attachNode tree v d (.inner none none)) tree.length = none := by
        rw [leafSym_attachNode (ha.lt hp) hin, if_pos rfl]
        rfl
      have hconf' : ¬ Conflict (attachNode tree v d (.inner none none)) (p ++ [d]) (e :: c) := by
        rw [conflict_cons hpd hl]
        refine not_conflict_of_absent ?_
        rw [ha.symAt_attachNode hp hin hn hw, if_neg (by simp)]
        exact symAt_append_of_absent (by rw [symAt_concat hp, hw]; rfl) [e]
      obtain ⟨t, ht, hta, hts⟩ := insertPath_of_not_conflict (ha.attach hp hin hn hw) hpd hl hne hconf'
      exact ⟨t, (insertPath_of_absent hne hw).trans ht, hta, fun q =>
        (hts q).trans (ha.symAfter_attachNode_inner hp hin hw q)⟩
    | some w =>
      have hpd : nodeBelow tree 0 (p ++ [d]) = some w := by rw [nodeBelow_concat, hp]; exact hw
      have hl : leafSym tree w = none := by
        by_contra h
        obtain ⟨s, hs⟩ := Option.ne_none_iff_exists'.mp h
        exact hconf (.inr ⟨[d], s, ⟨e :: c, rfl⟩, by rw [symAt, hpd, Option.map_some, hs]⟩)
      obtain ⟨t, ht, hta, hts⟩ := insertPath_of_not_conflict ha hpd hl hne ((conflict_cons hp hin).not.mp hconf)
      refine ⟨t, ?_, hta, hts⟩
      rw [insertPath_of_child hne hw, hl]
      exact ht

end

/-! ### The arena of a table -/

/-- The arena holds exactly the codes of the entries (R165, R166). -/
structure HoldsCodes (tree : List DecNode) (es : List HuffEntry) : Prop where
  arena : Arena tree
  leaf_iff : ∀ q s, symAt tree q = some (some s) ↔ ∃ e ∈ es, e.code = q ∧ e.sym = s
  absent_iff : ∀ q, symAt tree q = none ↔ q ≠ [] ∧ ∀ e ∈ es, ¬ q <+: e.code

/-- The root alone. -/
theorem holdsCodes_nil : HoldsCodes [.inner none none] [] := by
  have hpath : ∀ {q v}, nodeBelow [.inner none none] 0 q = some v → q = [] ∧ v = 0 := fun {q v} h => by
    cases q with
    | nil => exact ⟨rfl, (Option.some_inj.mp h).symm⟩
    | cons d q => simp [nodeBelow_cons, childOf] at h
  have hsym : ∀ q, symAt [.inner none none] q = if q = [] then some none else none := fun q => by
    cases q with
    | nil => rfl
    | cons d q => simp [symAt, nodeBelow_cons, childOf]
  have harena : Arena [.inner none none] :=
    ⟨fun h => (hpath h).2 ▸ Nat.zero_lt_one, fun h1 h2 => (hpath h1).1.trans (hpath h2).1.symm⟩
  exact ⟨harena, fun q s => by simp [hsym], fun q => by simp [hsym]⟩

section

variable {tree : List DecNode} {es : List HuffEntry} {e : HuffEntry} (h : HoldsCodes tree es)
include h

theorem HoldsCodes.root_not_leaf (hne : ∀ e ∈ es, e.code ≠ []) : leafSym tree 0 = none := by
  by_contra hs
  obtain ⟨s, hs⟩ := Option.ne_none_iff_exists'.mp hs
  obtain ⟨e, he, hcode, -⟩ := (h.leaf_iff [] s).mp (by simp [symAt, hs])
  exact hne e he hcode

/-- R167: a code that equals, extends or begins one of the table's is a conflict; no other code is. -/
theorem HoldsCodes.conflict_iff {c : Bits} (hc : c ≠ []) :
    Conflict tree [] c ↔ ∃ d ∈ es, d.code <+: c ∨ c <+: d.code := by
  unfold Conflict
  constructor
  · rintro (hpres | ⟨q, s, hpre, hs⟩)
    · simp only [List.nil_append, Ne, h.absent_iff, hc, not_false_eq_true, true_and, not_forall, not_not] at hpres
      obtain ⟨d, hd, hpre⟩ := hpres
      exact ⟨d, hd, .inr hpre⟩
    · obtain ⟨d, hd, rfl, -⟩ := (h.leaf_iff q s).mp hs
      exact ⟨d, hd, .inl hpre⟩
  · rintro ⟨d, hd, hpre | hpre⟩
    · exact .inr ⟨d.code, d.sym, hpre, (h.leaf_iff _ _).mpr ⟨d, hd, rfl, rfl⟩⟩
    · exact .inl fun habs => ((h.absent_iff c).mp habs).2 d hd hpre

/-- The code of one more entry without conflict is inserted. -/
theorem HoldsCodes.insert (hc : e.code ≠ []) (hne : ∀ e ∈ es, e.code ≠ [])
    (hfree : ∀ d ∈ es, ¬ d.code <+: e.code ∧ ¬ e.code <+: d.code) :
    ∃ t, insertPath tree e.sym 0 e.code = some t ∧ HoldsCodes t (es ++ [e]) := by
  have hconf : ¬ Conflict tree [] e.code := by
    rw [h.conflict_iff hc]
    rintro ⟨d, hd, hpre | hpre⟩
    · exact (hfree d hd).1 hpre
    · exact (hfree d hd).2 hpre
  obtain ⟨t, ht, hta, hts⟩ := insertPath_of_not_conflict (sym := e.sym) h.arena rfl (h.root_not_leaf hne) hc hconf
  refine ⟨t, ht, hta, fun q s => ?_, fun q => ?_⟩
  · rw [hts, List.nil_append, symAfter]
    by_cases hq : q = e.code
    · subst hq
      have hnot : ∀ d ∈ es, d.code ≠ e.code := fun d hd heq => (hfree d hd).1 (heq ▸ List.prefix_rfl)
      simp only [if_true, Option.some_inj, List.mem_append, List.mem_singleton]
      refine ⟨fun hs => ⟨e, .inr rfl, rfl, hs⟩, ?_⟩
      rintro ⟨d, hd | rfl, hcode, hs⟩
      · exact absurd hcode (hnot d hd)
      · exact hs
    · rw [if_neg hq]
      have hold : symAt tree q = some (some s) ↔ ∃ d ∈ es ++ [e], d.code = q ∧ d.sym = s := by
        rw [h.leaf_iff]
        simp [or_and_right, exists_or, Ne.symm hq]
      split
      · next hnew => rw [← hold, hnew.2]; simp
      · exact hold
  · rw [hts, List.nil_append, symAfter]
    have hmem : (∀ d ∈ es ++ [e], ¬ q <+: d.code) ↔ (∀ d ∈ es, ¬ q <+: d.code) ∧ ¬ q <+: e.code := by
      simp [or_imp, forall_and]
    rw [hmem, ← and_assoc, ← h.absent_iff]
    by_cases hq : q = e.code
    · simp [hq]
    · rw [if_neg hq]
      split
      · next hnew => simp [hnew.1]
      · next hold => exact ⟨fun habs => ⟨habs, fun hpre => hold ⟨hpre, habs⟩⟩, And.left⟩

end

/-! ### The table (R163) -/

/-- The state with another decode arena. -/
def State.withTree (t : List DecNode) (s : State) : State := { s with work := { s.work with tree := t } }

@[simp] theorem State.withTree_inBytes (t : List DecNode) (s : State) : (s.withTree t).inBytes = s.inBytes := rfl
@[simp] theorem State.withTree_inLen (t : List DecNode) (s : State) : (s.withTree t).inLen = s.inLen := rfl
@[simp] theorem State.withTree_left (t : List DecNode) (s : State) : (s.withTree t).left = s.left := rfl
@[simp] theorem State.withTree_tree (t : List DecNode) (s : State) : (s.withTree t).work.tree = t := rfl
@[simp] theorem State.withTree_wp (t : List DecNode) (s : State) : (s.withTree t).work.wp = s.work.wp := rfl
@[simp] theorem State.advance_tree (n : Nat) (s : State) : (s.advance n).work.tree = s.work.tree := rfl

theorem insertCode_of_some {sym : Byte} {c : Bits} {t : List DecNode} {s : State}
    (h : insertPath s.work.tree sym 0 c = some t) : insertCode sym c s = .ok () (s.withTree t) := by
  rw [insertCode, bind_of_ok (getWork_run s), h]
  rfl

theorem insertCode_of_none {sym : Byte} {c : Bits} {s : State} (h : insertPath s.work.tree sym 0 c = none) :
    Raises (insertCode sym c) .invalidContainer s := by
  rw [Raises, insertCode, bind_of_ok (getWork_run s), h]
  exact raises_raise _ s

theorem HoldsCodes.insertCode_raises {es : List HuffEntry} {e : HuffEntry} {s : State} (h : HoldsCodes s.work.tree es)
    (hes : ∀ d ∈ es, d.wf = true) (he : e.wf = true) (hconf : ∃ d ∈ es, d.code <+: e.code ∨ e.code <+: d.code) :
    Raises (insertCode e.sym e.code) .invalidContainer s :=
  have hc := e.code_ne_nil he
  have hroot := h.root_not_leaf fun d hd => d.code_ne_nil (hes d hd)
  insertCode_of_none (insertPath_of_conflict rfl hroot hc ((h.conflict_iff hc).mpr hconf))

/-- R163 to R166: whole entries of a `PrefixFree` table are read and their codes inserted, after those of `done`. -/
theorem huffReadTable_append {rest : List Byte} : ∀ (es done : List HuffEntry) {s : State}, HoldsCodes s.work.tree done →
    (∀ e ∈ done ++ es, e.wf = true) → PrefixFree ((done ++ es).map HuffEntry.code) →
    s.left = es.flatMap HuffEntry.bytes ++ rest →
    ∃ t, HoldsCodes t (done ++ es) ∧ ∀ n, huffReadTable (n + es.length) s =
      huffReadTable n ((s.advance (es.flatMap HuffEntry.bytes).length).withTree t)
  | [], done, s, h, _, _, _ => ⟨s.work.tree, by simpa using h, fun n => rfl⟩
  | e :: es, done, s, h, hwf, hfree, hleft => by
    have he : e.wf = true := hwf e (by simp)
    have hdone : ∀ d ∈ done, d.code ≠ [] := fun d hd => d.code_ne_nil (hwf d (by simp [hd]))
    have hnew : ∀ d ∈ done, ¬ d.code <+: e.code ∧ ¬ e.code <+: d.code := fun d hd => by
      rw [PrefixFree, List.map_append, List.pairwise_append] at hfree
      exact hfree.2.2 _ (List.mem_map_of_mem hd) _ (by simp)
    obtain ⟨t, ht, hhold⟩ := h.insert (e.code_ne_nil he) hdone hnew
    rw [List.flatMap_cons, List.append_assoc] at hleft
    have hentry : huffReadEntry s = .ok () ((s.advance e.bytes.length).withTree t) :=
      (huffReadEntry_run he hleft).trans (insertCode_of_some ht)
    rw [List.append_cons] at hwf hfree ⊢
    obtain ⟨t', hhold', hrest⟩ := huffReadTable_append es (done ++ [e]) (s := (s.advance e.bytes.length).withTree t) hhold
      hwf hfree (by rw [State.withTree_left, State.left_advance, hleft, List.drop_left])
    refine ⟨t', hhold', fun n => ?_⟩
    rw [List.length_cons, ← Nat.add_assoc, huffReadTable, bind_of_ok hentry, hrest, List.flatMap_cons, List.length_append,
      ← State.advance_advance]
    rfl

/-! ### The header (R161, R162) -/

/-- The last phase of `HUFF.DEC` but one, `WALK` (R168). -/
def huffPayload (P : Params) (origLen : Nat) : Eng Unit := do
  phase .walk
  startPayload
  let s ← get
  huffWalk P (8 * s.inLen.toNat + 1) origLen 0

/-- `HUFF.DEC` after the two fields of its header. -/
def huffAfterHeader (P : Params) (origLen ts : Nat) : Eng Unit := do
  if s32 ts ≤ 0 then raise .invalidContainer
  else if P.hdecTableMax < ts then raise .invalidContainer
  else do
    phase .table
    changeWork fun w => { w with tree := [.inner none none] }
    huffReadTable ts
    huffPayload P origLen

/-- The state in which `HUFF.DEC` reads its table. -/
def State.tableBegun (s : State) : State :=
  ((((s.begun.setPhase .header).advance 8).advance 4).setPhase .table).withTree [.inner none none]

@[simp] theorem State.left_setPhase (p : Phase) (s : State) : (s.setPhase p).left = s.left := rfl
@[simp] theorem State.left_begun (s : State) : s.begun.left = s.inBytes := rfl
@[simp] theorem State.begun_wp (s : State) : s.begun.work.wp = 0 := rfl
@[simp] theorem State.begun_inLen (s : State) : s.begun.inLen = s.inLen := rfl

@[simp] theorem State.left_tableBegun (s : State) : s.tableBegun.left = s.inBytes.drop 12 := by simp [State.tableBegun]
@[simp] theorem State.tableBegun_tree (s : State) : s.tableBegun.work.tree = [.inner none none] := rfl
@[simp] theorem State.tableBegun_wp (s : State) : s.tableBegun.work.wp = 0 := by simp [State.tableBegun]
@[simp] theorem State.tableBegun_inLen (s : State) : s.tableBegun.inLen = s.inLen := by simp [State.tableBegun]

section

variable {P : Params} {s : State}

theorem huffDec_of_inCap (hcap : s.inLen.toNat ≤ P.inCap) :
    huffDec P s = (do let origLen ← inU 8; let ts ← inU 4; huffAfterHeader P origLen ts) (s.begun.setPhase .header) := by
  have hrange : checkRange P (s.begun.setPhase .header) = .ok () (s.begun.setPhase .header) := (checkRange_run P _).1 hcap
  rw [huffDec, bind_of_ok (beginOp_run s), bind_of_ok (phase_run _ _), bind_of_ok hrange]
  rfl

/-- R161: a header cut short. -/
theorem huffDec_of_short_header (hcap : s.inLen.toNat ≤ P.inCap) (hlen : s.inLen.toNat < 12) :
    Raises (huffDec P) .ioRead s := by
  obtain ⟨hfst, hfst'⟩ := inU_run 8 (s.begun.setPhase .header)
  obtain ⟨-, hsnd⟩ := inU_run 4 ((s.begun.setPhase .header).advance 8)
  rw [Raises, huffDec_of_inCap hcap]
  by_cases h8 : 8 ≤ s.inLen.toNat
  · exact Raises.after (hfst (show 0 + 8 ≤ s.inLen.toNat by omega))
      (Raises.bind ⟨_, hsnd (show s.inLen.toNat < 0 + 8 + 4 by omega)⟩)
  · exact Raises.bind ⟨_, hfst' (show s.inLen.toNat < 0 + 8 by omega)⟩

theorem huffDec_of_header (hcap : s.inLen.toNat ≤ P.inCap) (hlen : 12 ≤ s.inLen.toNat) :
    huffDec P s = huffAfterHeader P (memRead s.inMem 0 8) (memRead s.inMem 8 4)
      (((s.begun.setPhase .header).advance 8).advance 4) := by
  have hfst := (inU_run 8 (s.begun.setPhase .header)).1 (show 0 + 8 ≤ s.inLen.toNat by omega)
  have hsnd := (inU_run 4 ((s.begun.setPhase .header).advance 8)).1 (show 0 + 8 + 4 ≤ s.inLen.toNat by omega)
  rw [huffDec_of_inCap hcap, bind_of_ok hfst, bind_of_ok hsnd]
  rfl

/-- R162: a number of entries that is not positive, or above the bound. -/
theorem huffAfterHeader_raises {ts : Nat} (origLen : Nat) (h : s32 ts ≤ 0 ∨ P.hdecTableMax < ts) :
    Raises (huffAfterHeader P origLen ts) .invalidContainer s := by
  unfold huffAfterHeader
  split
  · exact raises_raise _ s
  · rw [if_pos (by tauto)]
    exact raises_raise _ s

/-- R162: a number of entries within the bound. -/
theorem huffAfterHeader_run {ts : Nat} (origLen : Nat) (hpos : 0 < s32 ts) (hmax : ts ≤ P.hdecTableMax) :
    huffAfterHeader P origLen ts s =
      (huffReadTable ts >>= fun _ => huffPayload P origLen) ((s.setPhase .table).withTree [.inner none none]) := by
  rw [huffAfterHeader, if_neg (by omega), if_neg (by omega)]
  rfl

end

/-- A Huffman container within `IN_CAP` whose header declares `len` symbols and 1 to 256 entries, and whose table begins with
`es`, whole entries of a `PrefixFree` table; `ahead` entries more are declared, and `rest` follows (R92, R93, R162, R165). -/
structure HuffInput (P : Params) (s : State) (len ahead : Nat) (es : List HuffEntry) (rest : List Byte) : Prop where
  cap : s.inLen.toNat ≤ P.inCap
  max : 256 ≤ P.hdecTableMax
  len_lt : len < 2 ^ 64
  pos : 1 ≤ ahead + es.length
  le : ahead + es.length ≤ 256
  wf : ∀ e ∈ es, e.wf = true
  free : PrefixFree (es.map HuffEntry.code)
  bytes : s.inBytes = bigEndian 8 len ++ bigEndian 4 (ahead + es.length) ++ es.flatMap HuffEntry.bytes ++ rest

/-- In the middle of `HUFF.DEC`: the arena holds the codes of `es`, nothing is written, and `rest` has not been read. -/
structure TableRead (s t : State) (es : List HuffEntry) (rest : List Byte) : Prop where
  tree : HoldsCodes t.work.tree es
  wp : t.work.wp = 0
  inLen : t.inLen = s.inLen
  left : t.left = rest

/-- The whole entries at the front of a table are read. -/
theorem HuffInput.huffDec_run {P : Params} {s : State} {len ahead : Nat} {es : List HuffEntry} {rest : List Byte}
    (h : HuffInput P s len ahead es rest) :
    ∃ t, TableRead s t es rest ∧ huffDec P s = (huffReadTable ahead >>= fun _ => huffPayload P len) t := by
  obtain ⟨hcap, hmax, hlen, hpos, hle, hwf, hfree, hbytes⟩ := h
  have hts : ahead + es.length < 2 ^ (8 * 4) := by omega
  have hsigned : 0 < s32 (ahead + es.length) := by
    rw [s32, if_pos (by omega)]
    omega
  have hread8 : memRead s.inMem 0 8 = len :=
    memRead_of_inBytes (k := []) hlen (by rw [hbytes, List.append_assoc, List.append_assoc]; rfl)
  have hread4 : memRead s.inMem 8 4 = ahead + es.length := by
    have := memRead_of_inBytes (s := s) (k := bigEndian 8 len) hts (by rw [hbytes, List.append_assoc])
    rwa [bigEndian_length] at this
  have h12 : 12 ≤ s.inLen.toNat := by
    rw [← s.inBytes_length, hbytes]
    simp
    omega
  have hleft : s.tableBegun.left = es.flatMap HuffEntry.bytes ++ rest := by
    rw [State.left_tableBegun, hbytes, List.append_assoc, List.drop_left' (by simp)]
  obtain ⟨t, ht, hrun⟩ := huffReadTable_append es [] (s := s.tableBegun) holdsCodes_nil hwf hfree hleft
  refine ⟨(s.tableBegun.advance (es.flatMap HuffEntry.bytes).length).withTree t, ⟨ht, by simp, by simp, ?_⟩, ?_⟩
  · rw [State.withTree_left, State.left_advance, hleft, List.drop_left]
  · rw [huffDec_of_header hcap h12, hread8, hread4, huffAfterHeader_run len hsigned (hle.trans hmax)]
    exact bind_congr_run (hrun ahead) _

/-- An error in reading the next entry of a table ends the operation. -/
theorem HuffInput.exec_failedWith {s : State} {len ahead : Nat} {es : List HuffEntry} {rest : List Byte} {e : ErrKind}
    (h : HuffInput params s len (ahead + 1) es rest) (he : ∀ t, TableRead s t es rest → Raises huffReadEntry e t) :
    ∃ t, exec .huffDec s = .next t ∧ FailedWith t e := by
  obtain ⟨t, ht, hrun⟩ := h.huffDec_run
  refine Machine.exec_failedWith ?_
  rw [Raises, phases, hrun]
  exact Raises.bind (Raises.bind (he t ht))

/-- Settles O37: the entry is read after the good ones, and its length or its insertion is an error. -/
theorem huffDecRejectsBadEntries : Obligations.HuffDecRejectsBadEntries := by
  unfold Obligations.HuffDecRejectsBadEntries
  intro s es len ts rest hcap hlen hlt hle hwf hfree hbad
  obtain ⟨ahead, rfl⟩ : ∃ ahead, ts = ahead + 1 + es.length := ⟨ts - es.length - 1, by omega⟩
  rcases hbad with ⟨sym, hbytes⟩ | ⟨e, d, he, hd, hconf, hbytes⟩
  · rw [List.append_assoc] at hbytes
    have hin : HuffInput params s len (ahead + 1) es _ := ⟨hcap, le_rfl, hlen, by omega, hle, hwf, hfree, hbytes⟩
    exact hin.exec_failedWith fun t ht => huffReadEntry_of_zero_length ht.left
  · rw [List.append_assoc] at hbytes
    have hin : HuffInput params s len (ahead + 1) es _ := ⟨hcap, le_rfl, hlen, by omega, hle, hwf, hfree, hbytes⟩
    refine hin.exec_failedWith fun t ht => ?_
    rw [Raises, huffReadEntry_run he ht.left]
    exact HoldsCodes.insertCode_raises (s := t.advance _) ht.tree hwf he ⟨d, hd, hconf⟩

/-! ### The payload (R91, R168) -/

/-- The bits of the payload that have not been read. -/
def State.bitsLeft (s : State) : Bits :=
  (unpack (8 * (s.inBytes.drop s.work.base).length) (s.inBytes.drop s.work.base)).drop s.work.brp

/-- The state with `n` more bits of the payload read. -/
def State.skipBits (n : Nat) (s : State) : State := { s with work := { s.work with brp := s.work.brp + n } }

@[simp] theorem State.skipBits_wp (n : Nat) (s : State) : (s.skipBits n).work.wp = s.work.wp := rfl
@[simp] theorem State.skipBits_tree (n : Nat) (s : State) : (s.skipBits n).work.tree = s.work.tree := rfl
@[simp] theorem State.skipBits_zero (s : State) : s.skipBits 0 = s := rfl
@[simp] theorem State.bitsLeft_wrote (l : List Byte) (s : State) : (s.wrote l).bitsLeft = s.bitsLeft := rfl
@[simp] theorem State.skipBits_wrote (n : Nat) (l : List Byte) (s : State) :
    (s.wrote l).skipBits n = (s.skipBits n).wrote l := rfl

theorem State.skipBits_skipBits (m n : Nat) (s : State) : (s.skipBits m).skipBits n = s.skipBits (m + n) := by
  simp [State.skipBits, Nat.add_assoc]

@[simp] theorem State.bitsLeft_skipBits (n : Nat) (s : State) : (s.skipBits n).bitsLeft = s.bitsLeft.drop n := by
  rw [State.bitsLeft, State.bitsLeft, List.drop_drop]
  rfl

@[simp] theorem unpack_length (n : Nat) (bytes : List Byte) : (unpack n bytes).length = n := by simp [unpack]

/-- Fewer bits of packed bytes are the first ones. -/
theorem unpack_prefix {n m : Nat} (h : n ≤ m) (bytes : List Byte) : unpack n bytes <+: unpack m bytes := by
  obtain ⟨k, rfl⟩ := Nat.exists_eq_add_of_le h
  rw [unpack, unpack, List.range_add, List.map_append]
  exact List.prefix_append _ _

theorem getBit_of_bitsLeft {s : State} {d : Bool} {r : Bits} (h : s.bitsLeft = d :: r) :
    getBit s = .ok d (s.skipBits 1) := by
  have hbit : (unpack (8 * (s.inBytes.drop s.work.base).length) (s.inBytes.drop s.work.base))[s.work.brp]? = some d := by
    rw [← List.head?_drop, ← State.bitsLeft, h, List.head?_cons]
  obtain ⟨hlt, hd⟩ := List.getElem?_eq_some_iff.mp hbit
  have hin : s.work.base + s.work.brp / 8 < s.inLen.toNat := by
    simp only [unpack_length, List.length_drop, State.inBytes_length] at hlt
    omega
  have hread : s.inBytes[s.work.base + s.work.brp / 8]? = some (s.inMem.read (s.work.base + s.work.brp / 8)) := by
    rw [State.inBytes_getElem?, if_pos hin]
  have hd' : (s.inMem.read (s.work.base + s.work.brp / 8)).getLsbD (7 - s.work.brp % 8) = d := by
    simp only [← hd, unpack, List.getElem_map, List.getElem_range, packedBit, List.getElem?_drop, hread, Option.getD_some]
  rw [(getBit_run s).1 hin, hd']
  rfl

theorem getBit_raises {s : State} (h : s.bitsLeft = []) : Raises getBit .ioRead s := by
  rw [State.bitsLeft, List.drop_eq_nil_iff, unpack_length, List.length_drop, State.inBytes_length] at h
  exact ⟨s, (getBit_run s).2 (by omega)⟩

/-! ### The walk (R168 to R172) -/

/-- A path that leads to nothing leaves the arena at an absent child. -/
theorem exists_absent_child {tree : List DecNode} : ∀ {q : Bits} {v : Nat}, nodeBelow tree v q = none →
    ∃ p d c u, q = p ++ d :: c ∧ nodeBelow tree v p = some u ∧ childOf tree u d = none
  | [], _, h => nomatch h
  | d :: q, v, h => by
    cases hw : childOf tree v d with
    | none => exact ⟨[], d, q, v, rfl, rfl, hw⟩
    | some w =>
      rw [nodeBelow_cons, hw, Option.bind_some] at h
      obtain ⟨p, e, c, u, rfl, hu, habs⟩ := exists_absent_child h
      exact ⟨d :: p, e, c, u, rfl, by rw [nodeBelow_cons, hw, Option.bind_some, hu], habs⟩

section

variable {P : Params} {s : State} {d : Bool} {r : Bits} {fuel left v u : Nat}

theorem huffWalk_of_end (h : s.bitsLeft = []) : Raises (huffWalk P fuel (left + 1) v) .ioRead s := by
  cases fuel with
  | zero => exact raises_raise _ s
  | succ fuel => exact (getBit_raises h).bind

theorem huffWalk_of_absent (h : s.bitsLeft = d :: r) (hu : childOf s.work.tree v d = none) :
    Raises (huffWalk P (fuel + 1) (left + 1) v) .corruptStream s := by
  rw [Raises, huffWalk, bind_of_ok (getBit_of_bitsLeft h), bind_of_ok (getWork_run _), State.skipBits_tree, hu]
  exact raises_raise _ _

theorem huffWalk_of_inner (h : s.bitsLeft = d :: r) (hu : childOf s.work.tree v d = some u)
    (hin : leafSym s.work.tree u = none) :
    huffWalk P (fuel + 1) (left + 1) v s = huffWalk P fuel (left + 1) u (s.skipBits 1) := by
  rw [huffWalk, bind_of_ok (getBit_of_bitsLeft h), bind_of_ok (getWork_run _), State.skipBits_tree, hu]
  simp only [hin]

theorem huffWalk_of_leaf {b : Byte} (h : s.bitsLeft = d :: r) (hu : childOf s.work.tree v d = some u)
    (hleaf : leafSym s.work.tree u = some b) (hfit : s.work.wp < P.outCap) :
    huffWalk P (fuel + 1) (left + 1) v s = huffWalk P fuel left 0 ((s.skipBits 1).wrote [b]) := by
  rw [huffWalk, bind_of_ok (getBit_of_bitsLeft h), bind_of_ok (getWork_run _), State.skipBits_tree, hu]
  simp only [hleaf]
  exact bind_of_ok ((outByte_writes P b (s.skipBits 1)).1 hfit)

/-- The walk follows a path to an internal node. -/
theorem huffWalk_path : ∀ (p : Bits) {v : Nat} {s : State}, nodeBelow s.work.tree v p = some u →
    leafSym s.work.tree u = none → s.bitsLeft = p ++ r →
    huffWalk P (fuel + p.length) (left + 1) v s = huffWalk P fuel (left + 1) u (s.skipBits p.length)
  | [], v, s, hp, _, _ => by
    cases hp
    rfl
  | d :: p, v, s, hp, hu, hbits => by
    rw [nodeBelow_cons] at hp
    obtain ⟨w, hw, hpath⟩ := Option.bind_eq_some_iff.mp hp
    have hrest := huffWalk_path p (s := s.skipBits 1) hpath hu (by simp [hbits])
    rw [List.length_cons, ← Nat.add_assoc, huffWalk_of_inner hbits hw (leafSym_of_path hpath hu), hrest,
      State.skipBits_skipBits, Nat.add_comm 1]

end

section

variable {P : Params} {es : List HuffEntry} {s : State} {r : Bits} {fuel left : Nat}

/-- R168, R170: the walk from the root over one code emits its symbol. -/
theorem HoldsCodes.huffWalk_code {e : HuffEntry} (h : HoldsCodes s.work.tree es) (he : e ∈ es) (hne : e.code ≠ [])
    (hbits : s.bitsLeft = e.code ++ r) (hfit : s.work.wp < P.outCap) :
    huffWalk P (fuel + e.code.length) (left + 1) 0 s =
      huffWalk P fuel left 0 ((s.skipBits e.code.length).wrote [e.sym]) := by
  obtain ⟨u, hu, hleaf⟩ := Option.map_eq_some_iff.mp ((h.leaf_iff e.code e.sym).mpr ⟨e, he, rfl, rfl⟩)
  obtain ⟨p, d, hcode⟩ : ∃ p d, e.code = p ++ [d] := ⟨_, _, (List.dropLast_append_getLast hne).symm⟩
  rw [hcode, nodeBelow_concat] at hu
  obtain ⟨v, hv, hchild⟩ := Option.bind_eq_some_iff.mp hu
  rw [hcode, List.append_assoc] at hbits
  have hlast := huffWalk_of_leaf (P := P) (fuel := fuel) (left := left) (s := s.skipBits p.length) (d := d) (r := r)
    (by simp [hbits]) hchild hleaf hfit
  rw [hcode, List.length_append, List.length_singleton, ← State.skipBits_skipBits, ← hlast, Nat.add_comm p.length,
    ← Nat.add_assoc]
  exact huffWalk_path p hv (leafSym_of_child hchild) hbits

/-- R168, R170: the walk from the root over the codes of a message emits its symbols. -/
theorem HoldsCodes.huffWalk_message : ∀ (msg : List HuffEntry) {s : State}, HoldsCodes s.work.tree es →
    (∀ e ∈ msg, e ∈ es ∧ e.code ≠ []) → s.bitsLeft = msg.flatMap HuffEntry.code ++ r →
    s.work.wp + msg.length ≤ P.outCap →
    huffWalk P (fuel + (msg.flatMap HuffEntry.code).length) (left + msg.length) 0 s =
      huffWalk P fuel left 0 ((s.skipBits (msg.flatMap HuffEntry.code).length).wrote (msg.map HuffEntry.sym))
  | [], _, _, _, _, _ => rfl
  | e :: msg, s, h, hmem, hbits, hfit => by
    obtain ⟨he, hne⟩ := hmem e List.mem_cons_self
    rw [List.flatMap_cons, List.append_assoc] at hbits
    rw [List.length_cons] at hfit
    have hrest := huffWalk_message msg (s := (s.skipBits e.code.length).wrote [e.sym])
      h (fun d hd => hmem d (List.mem_cons_of_mem e hd)) (by simp [hbits]) (by simp; omega)
    rw [List.flatMap_cons, List.length_append, Nat.add_comm e.code.length, ← Nat.add_assoc, List.length_cons,
      ← Nat.add_assoc, h.huffWalk_code he hne hbits (by omega), hrest, State.skipBits_wrote, State.skipBits_skipBits,
      ← State.wrote_append]
    simp [Nat.add_comm]

/-- R172: the payload ends before or inside a code. -/
theorem HoldsCodes.huffWalk_part {e : HuffEntry} {q : Bits} (h : HoldsCodes s.work.tree es) (he : e ∈ es)
    (hpart : q <+: e.code) (hq : q ≠ e.code) (hbits : s.bitsLeft = q) :
    Raises (huffWalk P (fuel + q.length) (left + 1) 0) .ioRead s := by
  obtain ⟨w, hw, -⟩ := Option.map_eq_some_iff.mp ((h.leaf_iff e.code e.sym).mpr ⟨e, he, rfl, rfl⟩)
  obtain ⟨c, hc⟩ := hpart
  rw [← hc, nodeBelow_append] at hw
  obtain ⟨u, hu, hgo⟩ := Option.bind_eq_some_iff.mp hw
  have hin : leafSym s.work.tree u = none := by
    cases c with
    | nil => exact absurd (q.append_nil.symm.trans hc) hq
    | cons d c =>
      rw [nodeBelow_cons] at hgo
      obtain ⟨x, hx, -⟩ := Option.bind_eq_some_iff.mp hgo
      exact leafSym_of_child hx
  rw [Raises, huffWalk_path q hu hin (r := []) (by simpa using hbits)]
  exact huffWalk_of_end (by simp [hbits])

/-- R169: bits that lead to nothing, with no code before them. -/
theorem HoldsCodes.huffWalk_absent {q : Bits} (h : HoldsCodes s.work.tree es) (hq : symAt s.work.tree q = none)
    (hno : ∀ e ∈ es, ¬ e.code <+: q) (hbits : s.bitsLeft = q ++ r) :
    Raises (huffWalk P (fuel + q.length) (left + 1) 0) .corruptStream s := by
  obtain ⟨p, d, c, u, rfl, hu, hchild⟩ := exists_absent_child (Option.map_eq_none_iff.mp hq)
  have hin : leafSym s.work.tree u = none := by
    by_contra hs
    obtain ⟨b, hb⟩ := Option.ne_none_iff_exists'.mp hs
    obtain ⟨e, he, hcode, -⟩ := (h.leaf_iff p b).mp (by rw [symAt, hu, Option.map_some, hb])
    exact hno e he (hcode ▸ List.prefix_append _ _)
  rw [List.append_assoc] at hbits
  have hpath := huffWalk_path (P := P) (fuel := fuel + c.length + 1) (left := left) p hu hin hbits
  rw [Raises, List.length_append, List.length_cons, Nat.add_comm p.length, ← Nat.add_assoc, ← Nat.add_assoc, hpath]
  exact huffWalk_of_absent (d := d) (r := c ++ r) (by simp [hbits]) hchild

end

/-- The state at the start of the payload. -/
def State.payloadBegun (s : State) : State :=
  { s with work := { s.work with phase := .walk, base := s.work.rp, brp := 0 } }

theorem State.bitsLeft_payloadBegun (s : State) : s.payloadBegun.bitsLeft = unpack (8 * s.left.length) s.left := rfl

/-- The state after the walk over the codes of a message, from the start of the payload. -/
def State.afterMessage (msg : List HuffEntry) (s : State) : State :=
  (s.payloadBegun.skipBits (msg.flatMap HuffEntry.code).length).wrote (msg.map HuffEntry.sym)

@[simp] theorem State.afterMessage_tree (msg : List HuffEntry) (s : State) :
    (s.afterMessage msg).work.tree = s.work.tree := rfl

/-- The phase `WALK` over the codes of a message, with turns enough for all bits of the payload. -/
theorem huffPayload_message {P : Params} {es msg : List HuffEntry} {s : State} {n left : Nat} {q : Bits}
    (h : HoldsCodes s.work.tree es) (hmem : ∀ e ∈ msg, e ∈ es ∧ e.code ≠ []) (hfit : s.work.wp + msg.length ≤ P.outCap)
    (hn : n ≤ 8 * s.left.length) (hbits : unpack n s.left = msg.flatMap HuffEntry.code ++ q) :
    ∃ fuel r, (s.afterMessage msg).bitsLeft = q ++ r ∧
      (msg.flatMap HuffEntry.code ++ q ++ r).length = 8 * s.left.length ∧
      huffPayload P (left + msg.length) s = huffWalk P (fuel + q.length) left 0 (s.afterMessage msg) := by
  obtain ⟨r, hr⟩ := unpack_prefix hn s.left
  have hlen : (msg.flatMap HuffEntry.code ++ q ++ r).length = 8 * s.left.length := by rw [← hbits, hr, unpack_length]
  have hall : s.payloadBegun.bitsLeft = msg.flatMap HuffEntry.code ++ (q ++ r) := by
    rw [State.bitsLeft_payloadBegun, ← hr, hbits, List.append_assoc]
  have hfuel : ∃ fuel, 8 * s.inLen.toNat + 1 = fuel + q.length + (msg.flatMap HuffEntry.code).length := by
    refine ⟨8 * s.inLen.toNat + 1 - q.length - (msg.flatMap HuffEntry.code).length, ?_⟩
    have hle : s.left.length ≤ s.inLen.toNat := by simp [State.left]
    rw [List.length_append, List.length_append] at hlen
    omega
  obtain ⟨fuel, hfuel⟩ := hfuel
  refine ⟨fuel, r, by simp [State.afterMessage, hall], hlen, ?_⟩
  rw [State.afterMessage, ← HoldsCodes.huffWalk_message msg (s := s.payloadBegun) h hmem hall hfit, ← hfuel]
  rfl

/-- An error in the walk after the codes of a message, with bits `q` and then `r` left, ends the operation. -/
theorem HuffInput.exec_walk_failedWith {s : State} {len n : Nat} {es msg : List HuffEntry} {payload : List Byte} {q : Bits}
    {e : ErrKind} (h : HuffInput params s len 0 es payload) (hlen : msg.length < len) (hcap : msg.length ≤ params.outCap)
    (hmem : ∀ d ∈ msg, d ∈ es) (hn : n ≤ 8 * payload.length) (hbits : unpack n payload = msg.flatMap HuffEntry.code ++ q)
    (he : ∀ fuel left r t, HoldsCodes t.work.tree es → t.bitsLeft = q ++ r → r.length = 8 * payload.length - n →
      Raises (huffWalk params (fuel + q.length) (left + 1) 0) e t) :
    ∃ t, exec .huffDec s = .next t ∧ FailedWith t e := by
  obtain ⟨t, ht, hrun⟩ := h.huffDec_run
  obtain ⟨left, rfl⟩ : ∃ left, len = left + 1 + msg.length := ⟨len - msg.length - 1, by omega⟩
  have hcodes : ∀ d ∈ msg, d ∈ es ∧ d.code ≠ [] := fun d hd => ⟨hmem d hd, d.code_ne_nil (h.wf d (hmem d hd))⟩
  rw [← ht.left] at hn hbits
  obtain ⟨fuel, r, hleft, hall, hwalk⟩ :=
    huffPayload_message (P := params) (left := left + 1) ht.tree hcodes (by rw [ht.wp]; omega) hn hbits
  have hr : r.length = 8 * payload.length - n := by
    rw [← hbits, List.length_append, unpack_length, ht.left] at hall
    omega
  refine Machine.exec_failedWith ?_
  rw [Raises, phases, hrun, huffReadTable, bind_of_ok (pure_run () t), hwalk]
  exact he fuel left r (t.afterMessage msg) ht.tree hleft hr

/-- Settles O38: the walk comes to the absent child after the codes of the message. -/
theorem huffDecAbsentChildIsCorrupt : Obligations.HuffDecAbsentChildIsCorrupt := by
  unfold Obligations.HuffDecAbsentChildIsCorrupt
  intro s es msg payload n len q hcap hlen hlt hout hpos hle hwf hfree hmem hq hn hbits hbytes
  have hin : HuffInput params s len 0 es payload := ⟨hcap, le_rfl, hlt, by omega, by omega, hwf, hfree, by rwa [Nat.zero_add]⟩
  refine hin.exec_walk_failedWith hlen hout hmem hn hbits fun fuel left r t ht hleft _ => ?_
  have hne : q ≠ [] := by
    rintro rfl
    obtain ⟨e, he⟩ := List.exists_mem_of_length_pos hpos
    exact (hq e he).2 List.nil_prefix
  exact ht.huffWalk_absent ((ht.absent_iff q).mpr ⟨hne, fun e he => (hq e he).2⟩) (fun e he => (hq e he).1) hleft

/-- R172, R174: a container that is cut short in its table. -/
theorem huffDec_of_cut_entry {s : State} {len ahead : Nat} {es : List HuffEntry} {e : HuffEntry} {part : List Byte}
    (h : HuffInput params s len (ahead + 1) es part) (he : e.wf = true) (hpart : part <+: e.bytes)
    (hlt : part.length < e.bytes.length) : ∃ t, exec .huffDec s = .next t ∧ FailedWith t .ioRead :=
  h.exec_failedWith fun t ht => huffReadEntry_of_part he (by rwa [ht.left]) (by rwa [ht.left])

/-- R172: a container that is cut short in its payload. -/
theorem huffDec_of_cut_payload {s : State} {len : Nat} {es msg : List HuffEntry} {e : HuffEntry} {payload : List Byte}
    {q : Bits} (h : HuffInput params s len 0 es payload) (hlen : msg.length < len) (hcap : msg.length ≤ params.outCap)
    (hmem : ∀ d ∈ msg, d ∈ es) (he : e ∈ es) (hpart : q <+: e.code) (hq : q ≠ e.code)
    (hbits : unpack (8 * payload.length) payload = msg.flatMap HuffEntry.code ++ q) :
    ∃ t, exec .huffDec s = .next t ∧ FailedWith t .ioRead :=
  h.exec_walk_failedWith hlen hcap hmem le_rfl hbits fun _ _ r t ht hleft hr => by
    rw [Nat.sub_self, List.length_eq_zero_iff] at hr
    rw [hr, List.append_nil] at hleft
    exact ht.huffWalk_part he hpart hq hleft

/-- Settles O35: the checks of the header come first; then the container ends in an entry, or in the payload. -/
theorem huffDecChecksTheHeader : Obligations.HuffDecChecksTheHeader := by
  unfold Obligations.HuffDecChecksTheHeader
  intro s
  refine ⟨exec_range .huffDec, fun hlen => ?_, fun hlen hcap hts => ?_, ?_, ?_⟩
  · have hcap : s.inLen.toNat ≤ params.inCap := hlen.le.trans (by decide)
    exact exec_failedWith (huffDec_of_short_header hcap hlen)
  · refine exec_failedWith ?_
    rw [Raises, phases, huffDec_of_header hcap hlen]
    exact huffAfterHeader_raises _ hts
  · intro es e len ts part hcap hlen hlt hle hwf hfree he hpart hshort hbytes
    obtain ⟨ahead, rfl⟩ : ∃ ahead, ts = ahead + 1 + es.length := ⟨ts - es.length - 1, by omega⟩
    exact huffDec_of_cut_entry ⟨hcap, le_rfl, hlen, by omega, hle, hwf, hfree, hbytes⟩ he hpart hshort
  · intro es msg e payload len q hcap hlen hlt hout hle hwf hfree hmem he hpart hq hbits hbytes
    have hpos := List.length_pos_of_mem he
    have hin : HuffInput params s len 0 es payload :=
      ⟨hcap, le_rfl, hlt, by omega, by omega, hwf, hfree, by rwa [Nat.zero_add]⟩
    exact huffDec_of_cut_payload hin hlen hout hmem he hpart hq hbits

end Sys2Proof.Machine
end

section
/-! PROOFS. The split of the Shannon-Fano bisection (O43), which is the first reach of the threshold, and the phase `BITCOUNT` of
`SF.ENC` (O44). -/

namespace Sys2Proof.Machine

/-! ### The split of a sub-list (R194, R197) -/

theorem sfSplit_cons (half acc f : Nat) (l : List Nat) :
    sfSplit half acc (f :: l) = if half ≤ acc + f then 1 else 1 + sfSplit half (acc + f) l := rfl

theorem sfSplit_pos {half acc : Nat} : ∀ {l : List Nat}, l ≠ [] → 1 ≤ sfSplit half acc l
  | f :: l, _ => by
    rw [sfSplit_cons]
    split <;> omega

/-- Before the split the running sum has not reached the threshold. -/
theorem sum_take_lt_of_lt_sfSplit {half : Nat} : ∀ {l : List Nat} {acc j : Nat}, 1 ≤ j → j < sfSplit half acc l →
    acc + (l.take j).sum < half
  | [], _, _, _, h => absurd h (Nat.not_lt_zero _)
  | f :: l, acc, j + 1, _, h => by
    rw [sfSplit_cons] at h
    split at h
    · omega
    · next hf =>
      rw [List.take_succ_cons, List.sum_cons, ← Nat.add_assoc]
      cases j with
      | zero => simpa using hf
      | succ j => exact sum_take_lt_of_lt_sfSplit (by omega) (by omega)

/-- So any one or more first elements that reach the threshold include the split. -/
theorem sfSplit_le_of_reach {half acc j : Nat} {l : List Nat} (hj : 1 ≤ j) (h : half ≤ acc + (l.take j).sum) :
    sfSplit half acc l ≤ j := by
  by_contra hlt
  have := sum_take_lt_of_lt_sfSplit hj (by omega : j < sfSplit half acc l)
  omega

/-- At the split the running sum has reached a threshold that the whole list reaches. -/
theorem le_sum_take_sfSplit {half : Nat} : ∀ {l : List Nat} {acc : Nat}, half ≤ acc + l.sum →
    half ≤ acc + (l.take (sfSplit half acc l)).sum
  | [], _, h => h
  | f :: l, acc, h => by
    rw [sfSplit_cons]
    split
    · next hf => simpa using hf
    · rw [List.sum_cons, ← Nat.add_assoc] at h
      rw [Nat.add_comm 1, List.take_succ_cons, List.sum_cons, ← Nat.add_assoc]
      exact le_sum_take_sfSplit h

/-- The threshold is at most any number that is at least half of the total, under either rounding (R196). -/
theorem sfHalf_le {tot n : Nat} (P : Params) (h : tot ≤ 2 * n) : sfHalf P tot ≤ n := by
  unfold sfHalf
  split <;> omega

/-- In a descending list of two or more the last element is at most half of the total: the element before it is as large. -/
theorem sum_le_two_mul_sum_dropLast {l : List Nat} (hlen : 2 ≤ l.length) (hdesc : l.Pairwise (· ≥ ·)) :
    l.sum ≤ 2 * l.dropLast.sum := by
  rcases List.eq_nil_or_concat' l with rfl | ⟨init, last, rfl⟩
  · simp at hlen
  · rw [List.dropLast_concat, List.sum_append, List.sum_singleton]
    obtain ⟨f, hf⟩ := List.exists_mem_of_length_pos (l := init) (by simp at hlen; omega)
    have hlast : last ≤ f := (List.pairwise_append.mp hdesc).2.2 f hf last (List.mem_singleton_self _)
    have hsum : f ≤ init.sum := List.le_sum_of_mem hf
    omega

/-- Settles O43: the split is the first reach by induction along the list, and all elements but the last reach the threshold. -/
theorem sfSplitIsFirstReachAndProper : Obligations.SfSplitIsFirstReachAndProper := by
  unfold Obligations.SfSplitIsFirstReachAndProper
  intro P l hlen hdesc _
  have hproper : sfSplit (sfHalf P l.sum) 0 l ≤ l.length - 1 := by
    refine sfSplit_le_of_reach (by omega) ?_
    rw [Nat.zero_add, ← List.dropLast_eq_take]
    exact sfHalf_le P (sum_le_two_mul_sum_dropLast hlen hdesc)
  have hreach := le_sum_take_sfSplit (half := sfHalf P l.sum) (l := l) (acc := 0)
    (by rw [Nat.zero_add]; exact sfHalf_le P (by omega))
  rw [Nat.zero_add] at hreach
  refine ⟨sfSplit_pos (by rintro rfl; simp at hlen), by omega, hreach, fun j hj hlt => ?_⟩
  simpa using sum_take_lt_of_lt_sfSplit hj hlt

/-! ### The phase `BITCOUNT` (R202) -/

/-- A field reads back as the number written to it (R86). -/
theorem memRead_writeAll_bigEndian {n v : Nat} (hv : v < 2 ^ (8 * n)) (m : Mem) (a : Nat) :
    memRead (m.writeAll a (bigEndian n v)) a n = v := by
  refine memRead_of_bigEndian hv fun i hi => ?_
  rw [Mem.read_writeAll, if_pos (by simp; omega), Nat.add_sub_cancel_left, List.getElem?_eq_getElem (by simpa using hi),
    Option.getD_some]

theorem sfBitCount_run (P : Params) (s : State) :
    sfBitCount P s = (if 2 ^ 31 ≤ bitTotal s.freq s.work.codes then raise .range
      else outU P 4 (bitTotal s.freq s.work.codes)) (s.setPhase .bitcount) := by
  rw [sfBitCount, bind_of_ok (phase_run _ s), bind_of_ok (get_run _)]
  rfl

theorem sfBitCount_of_limit {s : State} (P : Params) (h : 2 ^ 31 ≤ bitTotal s.freq s.work.codes) :
    sfBitCount P s = .error .range (s.setPhase .bitcount) := by
  rw [sfBitCount_run, if_pos h, raise_run]

/-- Below the limit the phase writes the bit count and nothing else. -/
theorem sfBitCount_writesAs {s : State} (P : Params) (h : bitTotal s.freq s.work.codes < 2 ^ 31) :
    WritesAs P (sfBitCount P) (bigEndian 4 (bitTotal s.freq s.work.codes)) s (s.setPhase .bitcount) :=
  (outU_writes P 4 _ _).after (by rw [sfBitCount_run, if_neg (by omega)]) rfl

/-- Settles O44: at the limit the phase raises before it writes, below it the field reads back as the count. -/
theorem sfBitCountLimit : Obligations.SfBitCountLimit := by
  unfold Obligations.SfBitCountLimit
  intro P s
  refine ⟨fun h => ⟨_, sfBitCount_of_limit P h, rfl⟩, fun h hroom => ?_⟩
  obtain ⟨-, hfits, -⟩ := sfBitCount_writesAs P h
  refine ⟨_, hfits (by rwa [bigEndian_length]), memRead_writeAll_bigEndian (by omega) _ _, ?_⟩
  rw [State.wrote_work, bigEndian_length]
  rfl

end Sys2Proof.Machine
end

section
/-! PROOFS. What `SF.DEC` does with a container: the header, bad keys and containers cut short (O45), and the scan of the payload
(O46). The reverse map is described by what a key finds in it, which is the symbol of the last entry read with that key. -/

namespace Sys2Proof.Machine

/-! ### The numbers of a container (R86) -/

/-- A field that the unread input begins with is read as its number. -/
theorem inU_of_left {s : State} {n v : Nat} {r : List Byte} (hn : 0 < n) (hv : v < 2 ^ (8 * n))
    (h : s.left = bigEndian n v ++ r) : inU n s = .ok v (s.advance n) := by
  have hfield : ∀ i < n, some (s.inMem.read (s.work.rp + i)) = (bigEndian n v)[i]? := fun i hi => by
    have hbyte : s.inBytes[s.work.rp + i]? = (bigEndian n v)[i]? := by
      rw [← List.getElem?_drop, ← State.left, h, List.getElem?_append_left (by simpa using hi)]
    rw [← hbyte, State.inBytes_getElem?]
    split
    · rfl
    · next hout => simp [hout, bigEndian, hi] at hbyte
  have hroom : s.work.rp + n ≤ s.inLen.toNat := by
    have hlen := congrArg List.length h
    simp only [State.left, List.length_drop, State.inBytes_length, List.length_append, bigEndian_length] at hlen
    omega
  rw [(inU_run n s).1 hroom, memRead_of_bigEndian hv hfield]

/-- A field of which not all bytes are there. -/
theorem inU_raises {s : State} {n : Nat} (h : s.left.length < n) : Raises (inU n) .ioRead s := by
  rw [State.left, List.length_drop, State.inBytes_length] at h
  exact ⟨s, (inU_run n s).2 (by omega)⟩

/-! ### The reverse map (R36, R224) -/

theorem lookup_cons_key (key k : List Byte) (v : Byte) (m : List (List Byte × Byte)) :
    ((k, v) :: m).lookup key = if key = k then some v else m.lookup key := by
  rw [List.lookup_cons]
  by_cases h : key = k
  · simp [h]
  · rw [beq_false_of_ne h, if_neg h]

/-- A key put into the map finds its new symbol, every other key what it found before. -/
theorem lookup_mapPut (key k : List Byte) (sym : Byte) (m : List (List Byte × Byte)) :
    (mapPut k sym m).lookup key = if key = k then some sym else m.lookup key := by
  induction m with
  | nil => exact lookup_cons_key key k sym []
  | cons e m ih =>
    obtain ⟨j, v⟩ := e
    rw [mapPut]
    split
    · next hj =>
      rw [lookup_cons_key, lookup_cons_key, hj]
      split <;> rfl
    · next hj =>
      simp only [lookup_cons_key, ih]
      by_cases h : key = k
      · simp [h, Ne.symm hj]
      · simp [h]

/-- The reverse map after the entries of a list have been put into it, one by one. -/
def mapWith (m : List (List Byte × Byte)) (es : List SfEntry) : List (List Byte × Byte) :=
  es.foldl (fun m e => mapPut e.2 e.1 m) m

theorem sfLookup_concat (es : List SfEntry) (e : SfEntry) (key : List Byte) :
    sfLookup (es ++ [e]) key = if key = e.2 then some e.1 else sfLookup es key := by
  rw [sfLookup, List.reverse_append, List.reverse_singleton, List.singleton_append, List.find?_cons]
  by_cases h : key = e.2
  · simp [h]
  · simp [h, Ne.symm h, sfLookup]

/-- R224: a key finds the symbol of the last entry with that key. -/
theorem lookup_mapWith_nil (es : List SfEntry) (key : List Byte) : (mapWith [] es).lookup key = sfLookup es key := by
  induction es using List.reverseRecOn with
  | nil => rfl
  | append_singleton es e ih =>
    rw [sfLookup_concat, ← ih, mapWith, List.foldl_concat]
    exact lookup_mapPut key e.2 e.1 _

/-- The state with another reverse map. -/
def State.withMap (m : List (List Byte × Byte)) (s : State) : State := { s with work := { s.work with sfMap := m } }

@[simp] theorem State.withMap_left (m : List (List Byte × Byte)) (s : State) : (s.withMap m).left = s.left := rfl

/-! ### Entries of the table (R96, R223) -/

theorem sfEntryBytes_length (e : SfEntry) : (sfEntryBytes e).length = e.2.length + 3 := by
  simp [sfEntryBytes]
  omega

section

variable {P : Params} {s : State} {r : List Byte}

/-- After its symbol and its length field an entry is rejected, or its key is read and put into the map (R223). -/
theorem sfReadEntry_of_length {sym : Byte} {len : Nat} (hlen : len < 2 ^ 16) (h : s.left = sym :: (bigEndian 2 len ++ r)) :
    sfReadEntry P s = (if P.sfdecCodeMax < len then raise .invalidContainer
      else do
        let str ← inBytesN len
        changeWork fun w => { w with sfMap := mapPut str sym w.sfMap }) (s.advance 3) := by
  have hcount : inU 2 (s.advance 1) = .ok len ((s.advance 1).advance 2) :=
    inU_of_left (r := r) (by decide) hlen (by rw [State.left_advance, h]; rfl)
  rw [sfReadEntry, bind_of_ok (inByte_of_left h), bind_of_ok hcount, State.advance_advance]

/-- R223, R224: a whole entry is read into the map. -/
theorem sfReadEntry_run {e : SfEntry} (hmax : 255 ≤ P.sfdecCodeMax) (hkey : e.2.length ≤ 255)
    (h : s.left = sfEntryBytes e ++ r) :
    sfReadEntry P s = .ok () ((s.advance (sfEntryBytes e).length).withMap (mapPut e.2 e.1 s.work.sfMap)) := by
  rw [sfEntryBytes, List.cons_append, List.append_assoc] at h
  have hstr : inBytesN e.2.length (s.advance 3) = .ok e.2 ((s.advance 3).advance e.2.length) :=
    inBytesN_of_left e.2 (r := r) (by rw [State.left_advance, h]; rfl)
  rw [sfReadEntry_of_length (by omega) h, if_neg (by omega), bind_of_ok hstr, State.advance_advance, sfEntryBytes_length,
    Nat.add_comm]
  rfl

/-- R223, R230: an entry whose length field is above the bound. -/
theorem sfReadEntry_of_long_key {sym : Byte} {len : Nat} (hlong : P.sfdecCodeMax < len) (hlen : len < 2 ^ 16)
    (h : s.left = sym :: (bigEndian 2 len ++ r)) : Raises (sfReadEntry P) .invalidContainer s := by
  rw [Raises, sfReadEntry_of_length hlen h, if_pos hlong]
  exact raises_raise _ _

/-- R230: an entry of which only a proper part is there. -/
theorem sfReadEntry_of_part {e : SfEntry} (hmax : 255 ≤ P.sfdecCodeMax) (hkey : e.2.length ≤ 255)
    (hpart : s.left <+: sfEntryBytes e) (hlt : s.left.length < (sfEntryBytes e).length) :
    Raises (sfReadEntry P) .ioRead s := by
  rcases hl : s.left with _ | ⟨sym, bs⟩
  · exact (inByte_raises hl).bind
  · rw [hl, sfEntryBytes] at hpart
    rw [hl, sfEntryBytes_length, List.length_cons] at hlt
    obtain ⟨-, htail⟩ := List.cons_prefix_cons.mp hpart
    by_cases hshort : bs.length < 2
    · exact Raises.after (inByte_of_left hl) (inU_raises (by rw [State.left_advance, hl]; exact hshort)).bind
    · obtain ⟨q, rfl⟩ : bigEndian 2 e.2.length <+: bs :=
        List.prefix_of_prefix_length_le (List.prefix_append _ _) htail (by rw [bigEndian_length]; omega)
      rw [Raises, sfReadEntry_of_length (by omega) hl, if_neg (by omega)]
      refine (inBytesN_raises ?_).bind
      rw [List.length_append, bigEndian_length] at hlt
      rw [State.left_advance, hl]
      show q.length < e.2.length
      omega

/-- R223: whole entries at the front of a table are read into the map. -/
theorem sfReadTable_append (hmax : 255 ≤ P.sfdecCodeMax) (n : Nat) : ∀ (es : List SfEntry) {s : State},
    (∀ e ∈ es, e.2.length ≤ 255) → s.left = es.flatMap sfEntryBytes ++ r →
    sfReadTable P (n + es.length) s =
      sfReadTable P n ((s.advance (es.flatMap sfEntryBytes).length).withMap (mapWith s.work.sfMap es))
  | [], _, _, _ => rfl
  | e :: es, s, hkeys, hleft => by
    rw [List.flatMap_cons, List.append_assoc] at hleft
    have hentry := sfReadEntry_run hmax (hkeys e List.mem_cons_self) hleft
    have hrest := sfReadTable_append hmax n es
      (s := (s.advance (sfEntryBytes e).length).withMap (mapPut e.2 e.1 s.work.sfMap))
      (fun d hd => hkeys d (List.mem_cons_of_mem e hd)) (by rw [State.withMap_left, State.left_advance, hleft, List.drop_left])
    rw [List.length_cons, ← Nat.add_assoc, sfReadTable, bind_of_ok hentry, hrest, List.flatMap_cons, List.length_append,
      ← State.advance_advance]
    rfl

end

/-! ### The header (R221, R222) -/

/-- `SF.DEC` after its table: the phases `BITCOUNT` and `SCAN` (R225, R226). -/
def sfPayload (P : Params) : Eng Unit := do
  phase .bitcount
  let tb ← inU 4
  phase .scan
  startPayload
  changeWork fun w => { w with sfAcc := [] }
  sfScan P (s32 tb).toNat

/-- `SF.DEC` after `tableSize` (R221). -/
def sfAfterSize (P : Params) (ts : Nat) : Eng Unit := if s32 ts ≤ 0 then pure () else sfDecTable P ts

/-- The state in which `SF.DEC` has read `tableSize`. -/
def State.sizeRead (s : State) : State := (s.begun.setPhase .header).advance 4

@[simp] theorem State.sizeRead_left (s : State) : s.sizeRead.left = s.inBytes.drop 4 := by simp [State.sizeRead]
@[simp] theorem State.sizeRead_wp (s : State) : s.sizeRead.work.wp = 0 := rfl

/-- An `SF.DEC` that has written `l` from the start of `OUT` on ends with the output `l`. -/
theorem exec_sfDec_doneWith {s t : State} {l : List Byte} (h : sfDec params s = .ok () (t.wrote l)) (hwp : t.work.wp = 0)
    (hl : l.length ≤ params.outCap) : ∃ u, exec .sfDec s = .next u ∧ DoneWith u l :=
  ⟨_, (exec_eq .sfDec s).trans (runOp_of_ok h), doneWith_finishCoded false hwp (hl.trans_lt (by decide))⟩

section

variable {P : Params} {s : State} {ts : Nat}

theorem sfDec_of_inCap (hcap : s.inLen.toNat ≤ P.inCap) :
    sfDec P s = (inU 4 >>= sfAfterSize P) (s.begun.setPhase .header) := by
  have hrange : checkRange P (s.begun.setPhase .header) = .ok () (s.begun.setPhase .header) := (checkRange_run P _).1 hcap
  rw [sfDec, bind_of_ok (beginOp_run s), bind_of_ok (phase_run _ _), bind_of_ok hrange]
  rfl

/-- R221: a `tableSize` cut short. -/
theorem sfDec_of_short_header (hcap : s.inLen.toNat ≤ P.inCap) (hlen : s.inLen.toNat < 4) : Raises (sfDec P) .ioRead s := by
  rw [Raises, sfDec_of_inCap hcap]
  exact (inU_raises (by simpa using hlen)).bind

theorem sfDec_of_header (hcap : s.inLen.toNat ≤ P.inCap) (hlen : 4 ≤ s.inLen.toNat) :
    sfDec P s = sfAfterSize P (memRead s.inMem 0 4) s.sizeRead := by
  have hsize := (inU_run 4 (s.begun.setPhase .header)).1 (show 0 + 4 ≤ s.inLen.toNat by omega)
  rw [sfDec_of_inCap hcap, bind_of_ok hsize]
  rfl

/-- R221: a `tableSize` that is not positive as a signed number. -/
theorem sfAfterSize_of_not_positive (h : s32 ts ≤ 0) : sfAfterSize P ts s = .ok () s := by
  rw [sfAfterSize, if_pos h, pure_run]

/-- R222: a `tableSize` above the bound. -/
theorem sfAfterSize_raises (hpos : 0 < s32 ts) (hmax : P.sfdecTableMax < ts) :
    Raises (sfAfterSize P ts) .invalidContainer s := by
  rw [Raises, sfAfterSize, if_neg (by omega), sfDecTable, if_pos hmax]
  exact raises_raise _ s

/-- R222: a `tableSize` within the bound. -/
theorem sfAfterSize_run (hpos : 0 < s32 ts) (hmax : ts ≤ P.sfdecTableMax) :
    sfAfterSize P ts s = (sfReadTable P ts >>= fun _ => sfPayload P) ((s.setPhase .table).withMap []) := by
  rw [sfAfterSize, if_neg (by omega), sfDecTable, if_neg (by omega)]
  rfl

end

/-- A Shannon-Fano container within `IN_CAP` that declares 1 to 256 entries and whose table begins with `es`, whole entries of
legal length; `ahead` entries more are declared, and `rest` follows (R95, R96, R222, R223). -/
structure SfInput (P : Params) (s : State) (ahead : Nat) (es : List SfEntry) (rest : List Byte) : Prop where
  cap : s.inLen.toNat ≤ P.inCap
  tableMax : 256 ≤ P.sfdecTableMax
  codeMax : 255 ≤ P.sfdecCodeMax
  pos : 1 ≤ ahead + es.length
  le : ahead + es.length ≤ 256
  keys : ∀ e ∈ es, e.2.length ≤ 255
  bytes : s.inBytes = bigEndian 4 (ahead + es.length) ++ es.flatMap sfEntryBytes ++ rest

/-- In the middle of `SF.DEC`: the map holds the keys of `es`, nothing is written, and `rest` has not been read. -/
structure SfTableRead (t : State) (es : List SfEntry) (rest : List Byte) : Prop where
  map : ∀ key, t.work.sfMap.lookup key = sfLookup es key
  wp : t.work.wp = 0
  left : t.left = rest

/-- The whole entries at the front of a table are read. -/
theorem SfInput.sfDec_run {P : Params} {s : State} {ahead : Nat} {es : List SfEntry} {rest : List Byte}
    (h : SfInput P s ahead es rest) :
    ∃ t, SfTableRead t es rest ∧ sfDec P s = (sfReadTable P ahead >>= fun _ => sfPayload P) t := by
  obtain ⟨hcap, htable, hcode, hpos, hle, hkeys, hbytes⟩ := h
  have hsigned : 0 < s32 (ahead + es.length) := by
    rw [s32, if_pos (by omega)]
    omega
  have hsize : inU 4 (s.begun.setPhase .header) = .ok (ahead + es.length) s.sizeRead :=
    inU_of_left (by decide) (by omega) (by rw [State.left_setPhase, State.left_begun, hbytes, List.append_assoc])
  have hleft : ((s.sizeRead.setPhase .table).withMap []).left = es.flatMap sfEntryBytes ++ rest := by
    rw [State.withMap_left, State.left_setPhase, State.sizeRead_left, hbytes, List.append_assoc, List.drop_left' (by simp)]
  refine ⟨(((s.sizeRead.setPhase .table).withMap []).advance (es.flatMap sfEntryBytes).length).withMap (mapWith [] es),
    ⟨lookup_mapWith_nil es, rfl, by rw [State.withMap_left, State.left_advance, hleft, List.drop_left]⟩, ?_⟩
  rw [sfDec_of_inCap hcap, bind_of_ok hsize, sfAfterSize_run hsigned (hle.trans htable)]
  exact bind_congr_run (sfReadTable_append hcode ahead es hkeys hleft) _

/-- After its whole table the operation goes on with the bit count. -/
theorem SfInput.sfDec_whole {P : Params} {s : State} {es : List SfEntry} {rest : List Byte} (h : SfInput P s 0 es rest) :
    ∃ t, SfTableRead t es rest ∧ sfDec P s = sfPayload P t := h.sfDec_run

/-- An error in reading the next entry of a table ends the operation. -/
theorem SfInput.exec_failedWith {s : State} {ahead : Nat} {es : List SfEntry} {rest : List Byte} {e : ErrKind}
    (h : SfInput params s (ahead + 1) es rest) (he : ∀ t, t.left = rest → Raises (sfReadEntry params) e t) :
    ∃ t, exec .sfDec s = .next t ∧ FailedWith t e := by
  obtain ⟨t, ht, hrun⟩ := h.sfDec_run
  refine Machine.exec_failedWith ?_
  rw [Raises, phases, hrun]
  exact Raises.bind (Raises.bind (he t ht.left))

/-! ### The scan (R225 to R227) -/

/-- The state with another accumulator string. -/
def State.withAcc (acc : List Byte) (s : State) : State := { s with work := { s.work with sfAcc := acc } }

@[simp] theorem State.withAcc_sfAcc (acc : List Byte) (s : State) : (s.withAcc acc).work.sfAcc = acc := rfl
@[simp] theorem State.withAcc_sfMap (acc : List Byte) (s : State) : (s.withAcc acc).work.sfMap = s.work.sfMap := rfl
@[simp] theorem State.withAcc_wp (acc : List Byte) (s : State) : (s.withAcc acc).work.wp = s.work.wp := rfl
@[simp] theorem State.withAcc_bitsLeft (acc : List Byte) (s : State) : (s.withAcc acc).bitsLeft = s.bitsLeft := rfl

theorem State.wrote_withAcc (acc l : List Byte) (s : State) : (s.wrote l).withAcc acc = (s.withAcc acc).wrote l := rfl

/-- More bits read, with the accumulator string replaced again. -/
theorem State.skipBits_withAcc (m n : Nat) (a b : List Byte) (s : State) :
    (((s.skipBits m).withAcc a).skipBits n).withAcc b = (s.skipBits (m + n)).withAcc b := by
  simp [State.withAcc, State.skipBits, Nat.add_assoc]

@[simp] theorem State.skipBits_sfMap (n : Nat) (s : State) : (s.skipBits n).work.sfMap = s.work.sfMap := rfl
@[simp] theorem State.skipBits_sfAcc (n : Nat) (s : State) : (s.skipBits n).work.sfAcc = s.work.sfAcc := rfl

/-- The character of the bit read is put after the accumulator string (R226). -/
theorem appendBitChar_run (b : Bool) (s : State) :
    changeWork (fun w => { w with sfAcc := w.sfAcc ++ [0x30 + BitVec.ofNat 8 b.toNat] }) s =
      .ok () (s.withAcc (s.work.sfAcc ++ [bitChar b])) := by
  cases b <;> rfl

section

variable {P : Params} {es : List SfEntry} {s : State} {b : Bool} {r : Bits}

theorem sfDecodeBits_of_match {acc : List Byte} {sym : Byte} (h : sfLookup es (acc ++ [bitChar b]) = some sym) :
    sfDecodeBits es acc (b :: r) = sym :: sfDecodeBits es [] r := by rw [sfDecodeBits, h]

theorem sfDecodeBits_of_no_match {acc : List Byte} (h : sfLookup es (acc ++ [bitChar b]) = none) :
    sfDecodeBits es acc (b :: r) = sfDecodeBits es (acc ++ [bitChar b]) r := by rw [sfDecodeBits, h]

/-- R226: a bit after which the accumulator is a key: its symbol is written and the accumulator emptied. -/
theorem sfScanBit_of_match {sym : Byte} (hbits : s.bitsLeft = b :: r)
    (hkey : s.work.sfMap.lookup (s.work.sfAcc ++ [bitChar b]) = some sym) (hfit : s.work.wp < P.outCap) :
    sfScanBit P s = .ok () (((s.skipBits 1).withAcc []).wrote [sym]) := by
  have hout := (outByte_writes P sym ((s.skipBits 1).withAcc (s.work.sfAcc ++ [bitChar b]))).1 hfit
  rw [sfScanBit, bind_of_ok (getBit_of_bitsLeft hbits), bind_of_ok (appendBitChar_run b _), bind_of_ok (getWork_run _),
    State.withAcc_sfMap, State.withAcc_sfAcc, State.skipBits_sfMap, State.skipBits_sfAcc, hkey]
  exact bind_of_ok hout

/-- R226: a bit after which the accumulator is no key. -/
theorem sfScanBit_of_no_match (hbits : s.bitsLeft = b :: r)
    (hkey : s.work.sfMap.lookup (s.work.sfAcc ++ [bitChar b]) = none) :
    sfScanBit P s = .ok () ((s.skipBits 1).withAcc (s.work.sfAcc ++ [bitChar b])) := by
  rw [sfScanBit, bind_of_ok (getBit_of_bitsLeft hbits), bind_of_ok (appendBitChar_run b _), bind_of_ok (getWork_run _),
    State.withAcc_sfMap, State.withAcc_sfAcc, State.skipBits_sfMap, State.skipBits_sfAcc, hkey]
  rfl

/-- R230: the payload has ended. -/
theorem sfScan_of_end {n : Nat} (hn : 0 < n) (h : s.bitsLeft = []) : Raises (sfScan P n) .ioRead s := by
  obtain ⟨m, rfl⟩ := Nat.exists_eq_add_of_lt hn
  exact Raises.bind (getBit_raises h).bind

/-- R226: the scan of some bits writes what they decode to after the accumulator string `acc`; it leaves some other one. -/
theorem sfScan_append (n : Nat) : ∀ (bits : Bits) {acc : List Byte} {s : State}, s.work.sfAcc = acc →
    (∀ key, s.work.sfMap.lookup key = sfLookup es key) → s.bitsLeft = bits ++ r →
    s.work.wp + (sfDecodeBits es acc bits).length ≤ P.outCap →
    ∃ acc', sfScan P (n + bits.length) s =
      sfScan P n (((s.skipBits bits.length).withAcc acc').wrote (sfDecodeBits es acc bits))
  | [], acc, s, hacc, _, _, _ => ⟨acc, by subst hacc; rfl⟩
  | b :: bits, acc, s, hacc, hmap, hbits, hfit => by
    subst hacc
    rw [List.length_cons, ← Nat.add_assoc, sfScan]
    cases hkey : sfLookup es (s.work.sfAcc ++ [bitChar b]) with
    | some sym =>
      rw [sfDecodeBits_of_match hkey, List.length_cons] at hfit
      obtain ⟨acc', hrest⟩ := sfScan_append n bits (acc := []) (s := ((s.skipBits 1).withAcc []).wrote [sym]) rfl hmap
        (by simp [hbits]) (by simp; omega)
      refine ⟨acc', ?_⟩
      rw [bind_of_ok (sfScanBit_of_match hbits ((hmap _).trans hkey) (by omega)), hrest, sfDecodeBits_of_match hkey,
        State.skipBits_wrote, State.wrote_withAcc, State.skipBits_withAcc, ← State.wrote_append, Nat.add_comm,
        List.singleton_append]
    | none =>
      rw [sfDecodeBits_of_no_match hkey] at hfit
      obtain ⟨acc', hrest⟩ := sfScan_append n bits (acc := s.work.sfAcc ++ [bitChar b])
        (s := (s.skipBits 1).withAcc (s.work.sfAcc ++ [bitChar b])) rfl hmap (by simp [hbits]) hfit
      refine ⟨acc', ?_⟩
      rw [bind_of_ok (sfScanBit_of_no_match hbits ((hmap _).trans hkey)), hrest, sfDecodeBits_of_no_match hkey,
        State.skipBits_withAcc, Nat.add_comm]

end

/-- The state at the start of the scan, the bit count having been read. -/
def State.scanBegun (s : State) : State :=
  { s with work := { s.work with phase := .scan, rp := s.work.rp + 4, base := s.work.rp + 4, brp := 0, sfAcc := [] } }

theorem State.bitsLeft_scanBegun (s : State) :
    s.scanBegun.bitsLeft = unpack (8 * (s.left.drop 4).length) (s.left.drop 4) := by
  rw [State.left, List.drop_drop]
  rfl

/-- After the bit count the scan begins (R225, R226). -/
theorem sfPayload_run {P : Params} {s : State} {tb : Nat} {payload : List Byte} (htb : tb < 2 ^ 32)
    (h : s.left = bigEndian 4 tb ++ payload) : sfPayload P s = sfScan P (s32 tb).toNat s.scanBegun := by
  have hcount : inU 4 (s.setPhase .bitcount) = .ok tb ((s.setPhase .bitcount).advance 4) :=
    inU_of_left (by decide) htb h
  rw [sfPayload, bind_of_ok (phase_run _ s), bind_of_ok hcount]
  rfl

/-- The scan of the first `n` bits of a payload, with at least `n` of them to be read (R226). -/
theorem SfTableRead.sfScan_run {P : Params} {t : State} {es : List SfEntry} {tb n : Nat} {payload : List Byte}
    (h : SfTableRead t es (bigEndian 4 tb ++ payload)) (htb : tb < 2 ^ 31) (hn : n ≤ tb) (hlen : n ≤ 8 * payload.length)
    (hfit : (sfDecodeBits es [] (unpack n payload)).length ≤ P.outCap) :
    ∃ u : State, u.work.wp = 0 ∧ u.bitsLeft = (unpack (8 * payload.length) payload).drop n ∧
      sfPayload P t = sfScan P (tb - n) (u.wrote (sfDecodeBits es [] (unpack n payload))) := by
  obtain ⟨hmap, hwp, hleft⟩ := h
  have hbits : t.scanBegun.bitsLeft = unpack (8 * payload.length) payload := by
    rw [State.bitsLeft_scanBegun, hleft, List.drop_left' (by simp)]
  obtain ⟨r, hr⟩ := unpack_prefix hlen payload
  obtain ⟨acc, hscan⟩ := sfScan_append (P := P) (r := r) (tb - n) (unpack n payload) (s := t.scanBegun) rfl hmap
    (hbits.trans hr.symm) (by rw [show t.scanBegun.work.wp = 0 from hwp, Nat.zero_add]; exact hfit)
  have hcount : (s32 tb).toNat = tb - n + (unpack n payload).length := by
    rw [s32, if_pos htb, unpack_length, Int.toNat_natCast]
    omega
  refine ⟨(t.scanBegun.skipBits n).withAcc acc, hwp, by simp [hbits], ?_⟩
  rw [sfPayload_run (by omega) hleft, hcount, hscan, unpack_length]
  rfl

/-! ### Containers cut short (R230) -/

theorem sfDec_of_cut_bit_count {s : State} {es : List SfEntry} {part : List Byte} (h : SfInput params s 0 es part)
    (hpart : part.length < 4) : ∃ t, exec .sfDec s = .next t ∧ FailedWith t .ioRead := by
  obtain ⟨t, ht, hrun⟩ := h.sfDec_whole
  refine exec_failedWith ?_
  rw [Raises, phases, hrun]
  exact Raises.after (phase_run _ t) (inU_raises (by rwa [State.left_setPhase, ht.left])).bind

theorem sfDec_of_cut_payload {s : State} {es : List SfEntry} {tb : Nat} {payload : List Byte}
    (h : SfInput params s 0 es (bigEndian 4 tb ++ payload)) (htb : tb < 2 ^ 31) (hlen : 8 * payload.length < tb)
    (hfit : (sfDecodeBits es [] (unpack (8 * payload.length) payload)).length ≤ params.outCap) :
    ∃ t, exec .sfDec s = .next t ∧ FailedWith t .ioRead := by
  obtain ⟨t, ht, hrun⟩ := h.sfDec_whole
  obtain ⟨u, -, hbits, hscan⟩ := ht.sfScan_run htb hlen.le le_rfl hfit
  refine exec_failedWith ?_
  rw [Raises, phases, hrun, hscan]
  exact sfScan_of_end (by omega) (by simp [hbits])

/-- Settles O45: the checks of `tableSize` come first; then an entry is rejected, or the container ends in an entry, in the bit
count or in the payload. -/
theorem sfDecChecksHeaderAndKeys : Obligations.SfDecChecksHeaderAndKeys := by
  unfold Obligations.SfDecChecksHeaderAndKeys
  intro s
  refine ⟨exec_range .sfDec, fun hlen => ?_, fun hlen hcap hts => ?_, fun hlen hcap hpos hmax => ?_, ?_, ?_, ?_, ?_⟩
  · have hcap : s.inLen.toNat ≤ params.inCap := hlen.le.trans (by decide)
    exact exec_failedWith (sfDec_of_short_header hcap hlen)
  · have hrun := (sfDec_of_header hcap hlen).trans (sfAfterSize_of_not_positive hts)
    exact exec_sfDec_doneWith (t := s.sizeRead) (l := []) hrun s.sizeRead_wp (Nat.zero_le _)
  · refine exec_failedWith ?_
    rw [Raises, phases, sfDec_of_header hcap hlen]
    exact sfAfterSize_raises hpos hmax
  · intro es ts len sym rest hcap hlt hle hkeys hlong hlen hbytes
    obtain ⟨ahead, rfl⟩ : ∃ ahead, ts = ahead + 1 + es.length := ⟨ts - es.length - 1, by omega⟩
    rw [List.append_assoc, List.append_assoc] at hbytes
    have hin : SfInput params s (ahead + 1) es _ := ⟨hcap, le_rfl, le_rfl, by omega, hle, hkeys, hbytes⟩
    exact hin.exec_failedWith fun t ht => sfReadEntry_of_long_key hlong hlen ht
  · intro es e ts part hcap hlt hle hkeys hkey hpart hshort hbytes
    obtain ⟨ahead, rfl⟩ : ∃ ahead, ts = ahead + 1 + es.length := ⟨ts - es.length - 1, by omega⟩
    have hin : SfInput params s (ahead + 1) es part := ⟨hcap, le_rfl, le_rfl, by omega, hle, hkeys, hbytes⟩
    exact hin.exec_failedWith fun t ht => sfReadEntry_of_part le_rfl hkey (by rwa [ht]) (by rwa [ht])
  · intro es part hcap hpos hle hkeys hpart hbytes
    exact sfDec_of_cut_bit_count ⟨hcap, le_rfl, le_rfl, by omega, by omega, hkeys, by rwa [Nat.zero_add]⟩ hpart
  · intro es tb payload hcap hpos hle hkeys htb hlen hfit hbytes
    rw [List.append_assoc] at hbytes
    exact sfDec_of_cut_payload ⟨hcap, le_rfl, le_rfl, by omega, by omega, hkeys, by rwa [Nat.zero_add]⟩ htb hlen hfit

/-- Settles O46: after the table the scan runs over the declared bits, which are none when their number is negative. -/
theorem sfDecDecodesAnyTable : Obligations.SfDecDecodesAnyTable := by
  unfold Obligations.SfDecDecodesAnyTable
  intro s es payload tb hcap hpos hle hkeys hbytes
  rw [List.append_assoc] at hbytes
  have hin : SfInput params s 0 es (bigEndian 4 tb ++ payload) :=
    ⟨hcap, le_rfl, le_rfl, by omega, by omega, hkeys, by rwa [Nat.zero_add]⟩
  obtain ⟨t, ht, hrun⟩ := hin.sfDec_whole
  refine ⟨fun htb hlen hfit => ?_, fun hneg htb => ?_⟩
  · obtain ⟨u, hwp, -, hscan⟩ := ht.sfScan_run htb le_rfl hlen hfit
    rw [Nat.sub_self] at hscan
    exact exec_sfDec_doneWith (hrun.trans hscan) hwp hfit
  · have hnone : (s32 tb).toNat = 0 := by
      rw [s32, if_neg (by omega)]
      omega
    have hscan : sfPayload params t = .ok () t.scanBegun := by
      rw [sfPayload_run htb ht.left, hnone]
      rfl
    exact exec_sfDec_doneWith (t := t.scanBegun) (l := []) (hrun.trans hscan) ht.wp (Nat.zero_le _)

end Sys2Proof.Machine
end

section
/-! PROOFS. The match search and the tokens of LZ77 (O48, O49). What a candidate's length says is stated once, as an
equivalence; the candidate loop keeps the best of the candidates seen; and the tokens parse the input, each of them standing for
some bytes that occur before the cursor and the byte after them. -/

namespace Sys2Proof.Machine

/-! ### The match search (R244, R245) -/

/-- The input at `c` equals the input at `p` for `l` bytes (R244). -/
def Agrees (x : Array Byte) (c p l : Nat) : Prop := ∀ k < l, x[c + k]? = x[p + k]?

/-- The comparison gets as far as `l` exactly when its bound allows it and all bytes up to there are equal. -/
theorem le_matchLength_iff (x : Array Byte) (c p : Nat) : ∀ (fuel k l : Nat), k ≤ l →
    (l ≤ matchLength x c p fuel k ↔ l ≤ k + fuel ∧ ∀ i, k ≤ i → i < l → x[c + i]? = x[p + i]?)
  | 0, k, l, hl => by
    rw [matchLength]
    exact ⟨fun h => ⟨h, fun i hk hi => by omega⟩, fun h => h.1⟩
  | fuel + 1, k, l, hl => by
    rw [matchLength]
    split
    · next heq =>
      obtain rfl | hlt := hl.eq_or_lt
      · have hself := (le_matchLength_iff x c p fuel (k + 1) (k + 1) le_rfl).2 ⟨by omega, fun i _ _ => by omega⟩
        exact ⟨fun _ => ⟨by omega, fun i _ _ => by omega⟩, fun _ => by omega⟩
      · rw [le_matchLength_iff x c p fuel (k + 1) l hlt]
        refine ⟨fun ⟨hle, h⟩ => ⟨by omega, fun i hk hi => ?_⟩, fun ⟨hle, h⟩ => ⟨by omega, fun i hk hi => h i (by omega) hi⟩⟩
        obtain rfl | hki := hk.eq_or_lt
        · exact heq
        · exact h i hki hi
    · next hne =>
      refine ⟨fun h => ⟨by omega, fun i _ _ => by omega⟩, fun ⟨_, h⟩ => ?_⟩
      by_contra hlt
      exact hne (h k le_rfl (by omega))

/-- A candidate's match length is at least `l` exactly when `l` bytes agree and the bound allows them. -/
theorem le_matchLength_zero_iff (x : Array Byte) (c p maxLen l : Nat) :
    l ≤ matchLength x c p maxLen 0 ↔ l ≤ maxLen ∧ Agrees x c p l := by
  rw [le_matchLength_iff x c p maxLen 0 l (Nat.zero_le l), Nat.zero_add]
  exact and_congr_right' ⟨fun h k hk => h k (Nat.zero_le k) hk, fun h i _ hi => h i hi⟩

/-- The offset and length `best` are the best of the candidates nearer than `d`: the longest, and of equally long ones the
nearest; `(0, 0)` if none of them matches (R244). -/
structure BestBelow (x : Array Byte) (p maxLen d : Nat) (best : Nat × Nat) : Prop where
  zero : best.2 = 0 → best.1 = 0
  window : 1 ≤ best.2 → 1 ≤ best.1 ∧ best.1 < d
  reached : best.2 ≤ matchLength x (p - best.1) p maxLen 0
  optimal : ∀ o, 1 ≤ o → o < d → matchLength x (p - o) p maxLen 0 ≤ best.2 ∧
    (1 ≤ best.2 → matchLength x (p - o) p maxLen 0 = best.2 → best.1 ≤ o)

section

variable {x : Array Byte} {p maxLen d : Nat} {best : Nat × Nat}

theorem bestBelow_one : BestBelow x p maxLen 1 (0, 0) :=
  ⟨fun _ => rfl, fun h => absurd h (by decide), Nat.zero_le _, fun o h1 h2 => by omega⟩

theorem matchLength_le (x : Array Byte) (c p maxLen : Nat) : matchLength x c p maxLen 0 ≤ maxLen :=
  ((le_matchLength_zero_iff x c p maxLen _).1 le_rfl).1

/-- A candidate that is longer than the best so far takes its place. -/
theorem BestBelow.replace (h : BestBelow x p maxLen d best) (hd : 1 ≤ d)
    (hlt : best.2 < matchLength x (p - d) p maxLen 0) :
    BestBelow x p maxLen (d + 1) (d, matchLength x (p - d) p maxLen 0) where
  zero h0 := by omega
  window _ := ⟨hd, Nat.lt_succ_self d⟩
  reached := le_rfl
  optimal o ho hod := by
    obtain rfl | hlt' := (Nat.le_of_lt_succ hod).eq_or_lt
    · exact ⟨le_rfl, fun _ _ => le_rfl⟩
    · have hle := (h.optimal o ho hlt').1
      exact ⟨by omega, fun _ heq => by omega⟩

/-- A candidate that is no longer than the best so far is passed over. -/
theorem BestBelow.keep (h : BestBelow x p maxLen d best) (hle : matchLength x (p - d) p maxLen 0 ≤ best.2) :
    BestBelow x p maxLen (d + 1) best where
  zero := h.zero
  window h1 := ⟨(h.window h1).1, (h.window h1).2.trans (Nat.lt_succ_self d)⟩
  reached := h.reached
  optimal o ho hod := by
    obtain rfl | hlt := (Nat.le_of_lt_succ hod).eq_or_lt
    · exact ⟨hle, fun h1 _ => (h.window h1).2.le⟩
    · exact h.optimal o ho hlt

/-- No farther candidate is better than one of the greatest length, so the loop may stop there. -/
theorem BestBelow.of_max (h : BestBelow x p maxLen d best) (hmax : best.2 = maxLen) {d' : Nat} (hd : d ≤ d') :
    BestBelow x p maxLen d' best where
  zero := h.zero
  window h1 := ⟨(h.window h1).1, (h.window h1).2.trans_le hd⟩
  reached := h.reached
  optimal o ho _ := by
    refine ⟨(matchLength_le x (p - o) p maxLen).trans_eq hmax.symm, fun h1 heq => ?_⟩
    obtain hlt | hge := Nat.lt_or_ge o d
    · exact (h.optimal o ho hlt).2 h1 heq
    · exact (h.window h1).2.le.trans hge

end

/-- The candidate loop ends with the best of all its candidates (R244). -/
theorem searchMatch_bestBelow (x : Array Byte) (p maxLen : Nat) : ∀ (fuel d : Nat) (best : Nat × Nat), 1 ≤ d →
    BestBelow x p maxLen d best → BestBelow x p maxLen (d + fuel) (searchMatch x p maxLen fuel d best)
  | 0, _, _, _, h => h
  | fuel + 1, d, best, hd, h => by
    rw [show d + (fuel + 1) = d + 1 + fuel by omega, searchMatch]
    split
    · next hlt =>
      have hnew := h.replace hd hlt
      split
      · next hmax => exact hnew.of_max hmax (by omega)
      · exact searchMatch_bestBelow x p maxLen fuel (d + 1) _ (by omega) hnew
    · next hge => exact searchMatch_bestBelow x p maxLen fuel (d + 1) best (by omega) (h.keep (by omega))

/-- `Match(p)` is the best of the candidates in the window. -/
theorem findMatch_bestBelow (x : Array Byte) (p : Nat) :
    BestBelow x p (min 15 (x.size - p - 1)) (1 + min p 255) (findMatch x p) :=
  searchMatch_bestBelow x p _ _ 1 (0, 0) le_rfl bestBelow_one

/-- Settles O48: the candidate loop keeps the best of the candidates seen, and "at least `l` bytes agree" is what a candidate's
length says. -/
theorem lz77MatchIsLongestNearest : Obligations.Lz77MatchIsLongestNearest := by
  unfold Obligations.Lz77MatchIsLongestNearest
  intro x p _
  obtain ⟨hnone, hwindow, hmatch, hbest⟩ := findMatch_bestBelow x p
  obtain ⟨hle, hagrees⟩ := (le_matchLength_zero_iff ..).1 hmatch
  refine ⟨hle, hnone, fun hpos => ?_, fun o l ho hwin hl hag => ?_⟩
  · obtain ⟨h1, hlt⟩ := hwindow hpos
    exact ⟨h1, by omega, hagrees⟩
  · obtain ⟨hlong, hnear⟩ := hbest o ho (by omega)
    have hlen := (le_matchLength_zero_iff x (p - o) p _ l).2 ⟨hl, hag⟩
    exact ⟨hlen.trans hlong, fun hpos heq => hnear (by omega) (by omega)⟩

/-! ### The tokens (R242 to R246) -/

/-- R253: a token is legal when its offset does not reach before the output, and is not 0 with a length above 0. -/
theorem tokenLegal_iff (n : Nat) (t : Token) :
    tokenLegal n t = true ↔ t.offset.toNat ≤ n ∧ (t.offset.toNat = 0 → t.length.toNat = 0) := by
  simp [tokenLegal, ← BitVec.toNat_inj, or_iff_not_imp_left]

/-- At cursor `p` the token stands for the bytes that follow: `length` bytes that occur `offset` bytes before, and the symbol
(R243, R246). -/
structure TokenAt (x : List Byte) (p : Nat) (t : Token) : Prop where
  length_le : t.length.toNat ≤ 15
  legal : tokenLegal p t = true
  agrees : Agrees x.toArray (p - t.offset.toNat) p t.length.toNat
  symbol : x[p + t.length.toNat]? = some t.symbol

/-- The tokens stand for the input from `p` to its end, one after the other (R242). -/
inductive Parses (x : List Byte) : Nat → List Token → Prop
  | done : Parses x x.length []
  | token {p : Nat} {t : Token} {ts : List Token} (ht : TokenAt x p t) (hts : Parses x (p + t.length.toNat + 1) ts) :
      Parses x p (t :: ts)

/-- R243: the last byte of the input is a token of its own. -/
theorem tokenAt_last {x : List Byte} {p : Nat} {b : Byte} (h : x[p]? = some b) : TokenAt x p ⟨0, 0, b⟩ where
  length_le := Nat.zero_le 15
  legal := by simp [tokenLegal]
  agrees k hk := absurd hk (Nat.not_lt_zero k)
  symbol := h

/-- What `Match(p)` finds, when two or more bytes are left. -/
theorem findMatch_spec {x : Array Byte} {p : Nat} (hp : p + 2 ≤ x.size) :
    (findMatch x p).2 ≤ 15 ∧ p + (findMatch x p).2 < x.size ∧ (findMatch x p).1 ≤ min p 255 ∧
    ((findMatch x p).1 = 0 → (findMatch x p).2 = 0) ∧ Agrees x (p - (findMatch x p).1) p (findMatch x p).2 := by
  obtain ⟨hle, hnone, hmatch, -⟩ := lz77MatchIsLongestNearest x p hp
  obtain h0 | hpos := Nat.eq_zero_or_pos (findMatch x p).2
  · rw [h0, hnone h0]
    exact ⟨by decide, by omega, Nat.zero_le _, fun _ => rfl, fun k hk => absurd hk (Nat.not_lt_zero k)⟩
  · obtain ⟨h1, hwin, hagrees⟩ := hmatch hpos
    exact ⟨by omega, by omega, hwin, fun h => by omega, hagrees⟩

/-- R241, R247: the offset and the length of a match fit a byte each. -/
theorem findMatch_fits_bytes {x : Array Byte} {p : Nat} (hp : p + 2 ≤ x.size) :
    (BitVec.ofNat 8 (findMatch x p).1).toNat = (findMatch x p).1 ∧
    (BitVec.ofNat 8 (findMatch x p).2).toNat = (findMatch x p).2 := by
  obtain ⟨hle, -, hwin, -⟩ := findMatch_spec hp
  rw [BitVec.toNat_ofNat, BitVec.toNat_ofNat]
  exact ⟨Nat.mod_eq_of_lt (by omega), Nat.mod_eq_of_lt (by omega)⟩

/-- R244, R246: a match and the byte after it are a token. -/
theorem tokenAt_findMatch {x : List Byte} {p : Nat} {b : Byte} (hp : p + 2 ≤ x.length)
    (hb : x[p + (findMatch x.toArray p).2]? = some b) :
    TokenAt x p ⟨BitVec.ofNat 8 (findMatch x.toArray p).1, BitVec.ofNat 8 (findMatch x.toArray p).2, b⟩ := by
  obtain ⟨hle, -, hwin, hzero, hagrees⟩ := findMatch_spec (x := x.toArray) hp
  obtain ⟨hoff, hlen⟩ := findMatch_fits_bytes (x := x.toArray) hp
  refine ⟨by rwa [hlen], (tokenLegal_iff ..).2 ?_, by rwa [hlen, hoff], by rwa [hlen]⟩
  rw [hlen, hoff]
  exact ⟨by omega, hzero⟩

/-- One turn of the main loop emits a token for the bytes at the cursor and goes on after them (R242, R243, R246). -/
theorem tokensFrom_succ {x : List Byte} {p : Nat} (hp : p < x.length) (fuel : Nat) :
    ∃ t, TokenAt x p t ∧
      tokensFrom x.toArray (fuel + 1) p = t :: tokensFrom x.toArray fuel (p + t.length.toNat + 1) := by
  rw [tokensFrom, if_pos (by simpa using hp)]
  split
  · next hlast =>
    obtain rfl : p = x.length - 1 := hlast
    refine ⟨_, tokenAt_last (List.getElem?_eq_getElem hp), ?_⟩
    have hend : tokensFrom x.toArray fuel (x.length - 1 + 0 + 1) = [] := by
      cases fuel with
      | zero => rfl
      | succ fuel => rw [tokensFrom, if_neg (by simp; omega)]
    exact congrArg₂ _ (by simp [hp]) hend.symm
  · next hlast =>
    have hp2 : p + 2 ≤ x.length := by
      rw [List.size_toArray] at hlast
      omega
    obtain ⟨-, hlt, -⟩ := findMatch_spec (x := x.toArray) hp2
    have hb := List.getElem?_eq_getElem (l := x) hlt
    refine ⟨_, tokenAt_findMatch hp2 hb, ?_⟩
    rw [(findMatch_fits_bytes (x := x.toArray) hp2).2]
    simp [hb]

/-- The main loop parses the input from its cursor on. -/
theorem tokensFrom_parses {x : List Byte} : ∀ (fuel : Nat) {p : Nat}, p ≤ x.length → x.length ≤ p + fuel →
    Parses x p (tokensFrom x.toArray fuel p)
  | 0, p, hp, hfuel => by
    obtain rfl : p = x.length := by omega
    exact .done
  | fuel + 1, p, hp, hfuel => by
    obtain rfl | hlt := hp.eq_or_lt
    · rw [tokensFrom, if_neg (by simp)]
      exact .done
    · obtain ⟨t, ht, heq⟩ := tokensFrom_succ hlt fuel
      obtain ⟨hsym, -⟩ := List.getElem?_eq_some_iff.mp ht.symbol
      rw [heq]
      exact .token ht (tokensFrom_parses fuel (by omega) (by omega))

theorem lz77Tokens_parses (x : List Byte) : Parses x 0 (lz77Tokens x) :=
  tokensFrom_parses x.length (Nat.zero_le _) (by omega)

/-! ### The replay of the tokens (R249) -/

/-- Copying from before the cursor gives the bytes that follow it, when they agree with those copied, overlap included. -/
theorem copyBytes_take {x : List Byte} {off : Nat} (hoff : 1 ≤ off) : ∀ (n : Nat) {p : Nat}, off ≤ p → p + n ≤ x.length →
    Agrees x.toArray (p - off) p n → copyBytes off n (x.take p) = x.take (p + n)
  | 0, _, _, _, _ => rfl
  | n + 1, p, hp, hn, h => by
    have hbyte : (x.take p).getD ((x.take p).length - off) 0 = x[p] := by
      have h0 := h 0 (Nat.succ_pos n)
      rw [List.getElem?_toArray, List.getElem?_toArray, Nat.add_zero, Nat.add_zero,
        List.getElem?_eq_getElem (i := p) (by omega)] at h0
      rw [List.length_take_of_le (by omega), List.getD_eq_getElem?_getD, List.getElem?_take_of_lt (by omega), h0,
        Option.getD_some]
    have hnext : Agrees x.toArray (p + 1 - off) (p + 1) n := fun k hk => by
      have hk := h (k + 1) (Nat.succ_lt_succ hk)
      rwa [show p + 1 - off + k = p - off + (k + 1) by omega, Nat.add_assoc, Nat.add_comm 1 k]
    rw [copyBytes, hbyte, List.take_append_getElem, copyBytes_take hoff n (by omega) (by omega) hnext, Nat.add_assoc,
      Nat.add_comm 1 n]

/-- The replay of a token after the bytes before the cursor gives the bytes before the next cursor (R254, R255). -/
theorem TokenAt.replay {x : List Byte} {p : Nat} {t : Token} (h : TokenAt x p t) :
    copyBytes t.offset.toNat t.length.toNat (x.take p) ++ [t.symbol] = x.take (p + t.length.toNat + 1) := by
  obtain ⟨-, hlegal, hagrees, hsym⟩ := h
  obtain ⟨hoff, hzero⟩ := (tokenLegal_iff ..).1 hlegal
  obtain ⟨hlt, hsym⟩ := List.getElem?_eq_some_iff.mp hsym
  have hcopy : copyBytes t.offset.toNat t.length.toNat (x.take p) = x.take (p + t.length.toNat) := by
    obtain h0 | hpos := Nat.eq_zero_or_pos t.offset.toNat
    · rw [hzero h0]
      rfl
    · exact copyBytes_take hpos _ hoff hlt.le hagrees
  rw [hcopy, ← hsym, List.take_append_getElem]

section

variable {x : List Byte} {p : Nat} {ts : List Token}

theorem Parses.length_le (h : Parses x p ts) : ∀ t ∈ ts, t.length.toNat ≤ 15 := by
  induction h with
  | done => exact fun t ht => absurd ht List.not_mem_nil
  | token ht _ ih => exact List.forall_mem_cons.mpr ⟨ht.length_le, ih⟩

/-- R249 (b): the replay goes on from the bytes before the cursor to the whole input. -/
theorem Parses.replayBytes (h : Parses x p ts) : replayBytes (x.take p) ts = some x := by
  induction h with
  | done => rw [Machine.replayBytes, List.take_length]
  | @token p t ts ht _ ih =>
    obtain ⟨hlt, -⟩ := List.getElem?_eq_some_iff.mp ht.symbol
    rw [Machine.replayBytes, List.length_take_of_le (by omega), if_pos ht.legal, ht.replay, ih]

/-- R249 (c): a token stands for 1 to 16 bytes. -/
theorem Parses.count (h : Parses x p ts) : p + ts.length ≤ x.length ∧ x.length ≤ p + 16 * ts.length := by
  induction h with
  | done => exact ⟨le_rfl, le_rfl⟩
  | token ht _ ih =>
    have hle := ht.length_le
    rw [List.length_cons]
    omega

end

/-- Settles O49: the tokens parse the input from its first byte on. -/
theorem lz77TokensReplay : Obligations.Lz77TokensReplay := by
  unfold Obligations.Lz77TokensReplay
  intro x
  have h := lz77Tokens_parses x
  have hcount := h.count
  exact ⟨fun t ht => ⟨Nat.le_of_lt_succ t.offset.isLt, h.length_le t ht⟩, h.replayBytes, by omega, by omega⟩

end Sys2Proof.Machine
end

section
/-! PROOFS. What `LZ77.DEC` does with a container (O51, O52), and the round trip (O53). The state in the middle of the replay is
one in which nothing was written, with the output so far written to it; a legal token adds to that output what the replay of
byte strings adds. -/

namespace Sys2Proof.Machine

/-! ### One token (R253 to R255) -/

/-- What has been written to an output that was empty is read back. -/
theorem State.read_wrote {s : State} (h0 : s.work.wp = 0) (out : List Byte) {a : Nat} (ha : a < out.length) :
    (s.wrote out).outMem.read a = out.getD a 0 := by
  rw [State.wrote_outMem, Mem.read_writeAll, h0, if_pos ⟨Nat.zero_le a, by omega⟩, Nat.sub_zero, List.getD_eq_getElem?_getD]

section

variable {P : Params} {s : State} {out r : List Byte} {t : Token}

/-- R254: the copy loop writes what the copy of byte strings adds to the output so far. -/
theorem copyBack_writes {off : Nat} (h0 : s.work.wp = 0) : ∀ (n : Nat) (out : List Byte), off ≤ out.length →
    (off = 0 → n = 0) →
    ∃ l, copyBytes off n out = out ++ l ∧ Writes P (copyBack P n (out.length - off)) l (s.wrote out)
  | 0, out, _, _ => ⟨[], (List.append_nil out).symm, Writes.nothing P _⟩
  | n + 1, out, hoff, hzero => by
    have hread := State.read_wrote h0 out (a := out.length - off) (by omega)
    obtain ⟨l, hl, hw⟩ := copyBack_writes (off := off) h0 n (out ++ [out.getD (out.length - off) 0])
      (by rw [List.length_append]; omega) (fun hz => by omega)
    rw [List.length_append, List.length_singleton, Nat.sub_add_comm hoff, State.wrote_append] at hw
    refine ⟨out.getD (out.length - off) 0 :: l, by rw [copyBytes, hl, List.append_assoc]; rfl, ?_⟩
    have hstep := (outByte_writes P _ _).seq hw
    rw [← hread] at hstep ⊢
    exact hstep

/-- R253: a token is read whole before it is validated. -/
theorem replayToken_of_left (h : s.left = tokenBytes t ++ r) :
    replayToken P s = (if s.work.wp < t.offset.toNat ∨ (t.offset = 0 ∧ t.length ≠ 0) then raise .corruptStream
      else do
        copyBack P t.length.toNat (s.work.wp - t.offset.toNat)
        outByte P t.symbol) (s.advance 3) := by
  have h1 : inByte s = .ok t.offset (s.advance 1) := inByte_of_left h
  have h2 : inByte (s.advance 1) = .ok t.length ((s.advance 1).advance 1) :=
    inByte_of_left (r := t.symbol :: r) (by rw [State.left_advance, h]; rfl)
  have h3 : inByte ((s.advance 1).advance 1) = .ok t.symbol (((s.advance 1).advance 1).advance 1) :=
    inByte_of_left (r := r) (by rw [State.left_advance, State.left_advance, h]; rfl)
  rw [replayToken, bind_of_ok h1, bind_of_ok h2, bind_of_ok h3, bind_of_ok (getWork_run _), State.advance_advance,
    State.advance_advance]
  rfl

theorem tokenLegal_eq_false_iff (n : Nat) (t : Token) :
    tokenLegal n t = false ↔ n < t.offset.toNat ∨ (t.offset = 0 ∧ t.length ≠ 0) := by
  simp [tokenLegal, imp_iff_not_or]

/-- R253: a token that is not legal at its point. -/
theorem replayToken_of_illegal (hbad : tokenLegal s.work.wp t = false) (h : s.left = tokenBytes t ++ r) :
    Raises (replayToken P) .corruptStream s := by
  rw [Raises, replayToken_of_left h, if_pos ((tokenLegal_eq_false_iff ..).1 hbad)]
  exact raises_raise _ _

/-- R256: a token of which not all three bytes are there. -/
theorem replayToken_of_part (h : s.left.length < 3) : Raises (replayToken P) .ioRead s := by
  rcases hl : s.left with _ | ⟨off, _ | ⟨len, _ | ⟨sym, r⟩⟩⟩
  · exact (inByte_raises hl).bind
  · have h2 : (s.advance 1).left = [] := by rw [State.left_advance, hl]; rfl
    exact Raises.after (inByte_of_left hl) (inByte_raises h2).bind
  · have h2 : (s.advance 1).left = [len] := by rw [State.left_advance, hl]; rfl
    have h3 : ((s.advance 1).advance 1).left = [] := by rw [State.left_advance, h2]; rfl
    exact Raises.after (inByte_of_left hl) (Raises.after (inByte_of_left h2) (inByte_raises h3).bind)
  · rw [hl] at h
    exact absurd h (by simp)

/-- R253 to R255: a legal token writes its copy and its symbol after the output so far. -/
theorem replayToken_writesAs (h0 : s.work.wp = 0) (hlegal : tokenLegal out.length t = true)
    (h : s.left = tokenBytes t ++ r) :
    ∃ l, copyBytes t.offset.toNat t.length.toNat out ++ [t.symbol] = out ++ l ∧
      WritesAs P (replayToken P) l (s.wrote out) ((s.advance 3).wrote out) := by
  obtain ⟨hoff, hzero⟩ := (tokenLegal_iff ..).1 hlegal
  have hwp : (s.wrote out).work.wp = out.length := by rw [State.wrote_work, h0, Nat.zero_add]
  have hok : ¬ ((s.wrote out).work.wp < t.offset.toNat ∨ (t.offset = 0 ∧ t.length ≠ 0)) := by
    rw [hwp, ← tokenLegal_eq_false_iff, hlegal]
    decide
  obtain ⟨l, hl, hw⟩ := copyBack_writes (P := P) (s := s.advance 3) h0 t.length.toNat out hoff hzero
  refine ⟨l ++ [t.symbol], by rw [hl, List.append_assoc], (hw.seq (outByte_writes P t.symbol _)).after ?_ rfl⟩
  rw [replayToken_of_left (s := s.wrote out) h, if_neg hok, hwp]
  rfl

end

/-! ### The tokens of a container (R253) -/

/-- The output that a replay begins with stays at its front, and legal tokens write the rest of the replay after it. -/
theorem replayTokens_writesAs {P : Params} {r y : List Byte} : ∀ (ts : List Token) {s : State} {out : List Byte},
    s.work.wp = 0 → replayBytes out ts = some y → s.left = ts.flatMap tokenBytes ++ r →
    ∃ l, y = out ++ l ∧
      WritesAs P (replayTokens P ts.length) l (s.wrote out) ((s.advance (ts.flatMap tokenBytes).length).wrote out)
  | [], s, out, _, hy, _ => by
    cases hy
    exact ⟨[], (List.append_nil y).symm, (Writes.nothing P _).after rfl rfl⟩
  | t :: ts, s, out, h0, hy, hleft => by
    rw [List.flatMap_cons, List.append_assoc] at hleft
    rw [replayBytes] at hy
    split at hy
    · next hlegal =>
      obtain ⟨k, hk, htoken⟩ := replayToken_writesAs (P := P) h0 hlegal hleft
      rw [hk] at hy
      obtain ⟨l, rfl, hrest⟩ := replayTokens_writesAs (P := P) ts (s := s.advance 3) h0 hy
        (by rw [State.left_advance, hleft]; rfl)
      refine ⟨k ++ l, List.append_assoc .., ?_⟩
      rw [State.advance_advance, State.wrote_append, State.wrote_append] at hrest
      rw [List.flatMap_cons, List.length_append]
      exact htoken.seq hrest
    · cases hy

theorem replayTokens_add (P : Params) (n : Nat) : ∀ m : Nat,
    replayTokens P (m + n) = (replayTokens P m >>= fun _ => replayTokens P n)
  | 0 => by rw [Nat.zero_add]; rfl
  | m + 1 => by
    rw [Nat.add_right_comm, replayTokens, replayTokens_add P n m, replayTokens, bind_assoc]

/-! ### The header (R251, R252) -/

/-- `LZ77.DEC` after the number of tokens (R252). -/
def lz77AfterCount (P : Params) (tc : Nat) : Eng Unit :=
  if s32 tc ≤ 0 then raise .invalidContainer
  else do
    phase .replay
    replayTokens P tc

theorem lz77Dec_of_inCap {P : Params} {s : State} (hcap : s.inLen.toNat ≤ P.inCap) :
    lz77Dec P s = (inU 4 >>= lz77AfterCount P) (s.begun.setPhase .header) := by
  have hrange : checkRange P (s.begun.setPhase .header) = .ok () (s.begun.setPhase .header) := (checkRange_run P _).1 hcap
  rw [lz77Dec, bind_of_ok (beginOp_run s), bind_of_ok (phase_run _ _), bind_of_ok hrange]
  rfl

/-- R252: a number of tokens cut short. -/
theorem lz77Dec_of_short_header {P : Params} {s : State} (hcap : s.inLen.toNat ≤ P.inCap) (hlen : s.inLen.toNat < 4) :
    Raises (lz77Dec P) .ioRead s := by
  rw [Raises, lz77Dec_of_inCap hcap]
  exact (inU_raises (by simpa using hlen)).bind

/-- R252: a number of tokens that is not positive as a signed number. -/
theorem lz77Dec_of_not_positive {P : Params} {s : State} (hcap : s.inLen.toNat ≤ P.inCap) (hlen : 4 ≤ s.inLen.toNat)
    (htc : s32 (memRead s.inMem 0 4) ≤ 0) : Raises (lz77Dec P) .invalidContainer s := by
  have hcount := (inU_run 4 (s.begun.setPhase .header)).1 (show 0 + 4 ≤ s.inLen.toNat by omega)
  rw [Raises, lz77Dec_of_inCap hcap, bind_of_ok hcount, lz77AfterCount]
  exact (if_pos htc).symm ▸ raises_raise _ _

/-- The state in which the replay begins: the number of tokens has been read. -/
def State.replayBegun (s : State) : State := s.sizeRead.setPhase .replay

@[simp] theorem State.replayBegun_left (s : State) : s.replayBegun.left = s.inBytes.drop 4 := by simp [State.replayBegun]
@[simp] theorem State.replayBegun_wp (s : State) : s.replayBegun.work.wp = 0 := rfl

/-- An LZ77 container within `IN_CAP` whose tokens begin with `ts`, legal ones that replay to `y`; `ahead` tokens more are
declared, and `rest` follows (R98, R252, R253). -/
structure Lz77Input (P : Params) (s : State) (ahead : Nat) (ts : List Token) (y rest : List Byte) : Prop where
  cap : s.inLen.toNat ≤ P.inCap
  pos : 1 ≤ ts.length + ahead
  lt : ts.length + ahead < 2 ^ 31
  replay : replayBytes [] ts = some y
  bytes : s.inBytes = bigEndian 4 (ts.length + ahead) ++ ts.flatMap tokenBytes ++ rest

section

variable {P : Params} {s : State} {ahead : Nat} {ts : List Token} {y rest : List Byte}

/-- After its header the operation replays the tokens. -/
theorem Lz77Input.lz77Dec_run (h : Lz77Input P s ahead ts y rest) :
    lz77Dec P s = (replayTokens P ts.length >>= fun _ => replayTokens P ahead) s.replayBegun := by
  obtain ⟨hcap, hpos, hlt, -, hbytes⟩ := h
  have hsigned : 0 < s32 (ts.length + ahead) := by
    rw [s32, if_pos hlt]
    omega
  have hcount : inU 4 (s.begun.setPhase .header) = .ok (ts.length + ahead) s.sizeRead :=
    inU_of_left (by decide) (by omega) (by rw [State.left_setPhase, State.left_begun, hbytes, List.append_assoc])
  rw [lz77Dec_of_inCap hcap, bind_of_ok hcount, lz77AfterCount, if_neg (by omega), bind_of_ok (phase_run _ _),
    replayTokens_add]
  rfl

/-- R253 to R255: the legal tokens at the front are replayed, and `rest` has not been read yet. -/
theorem Lz77Input.replay_run (h : Lz77Input P s ahead ts y rest) (hfit : y.length ≤ P.outCap) :
    ∃ t : State, t.work.wp = 0 ∧ t.left = rest ∧ lz77Dec P s = replayTokens P ahead (t.wrote y) := by
  have hleft : s.replayBegun.left = ts.flatMap tokenBytes ++ rest := by
    rw [State.replayBegun_left, h.bytes, List.append_assoc, List.drop_left' (by simp)]
  obtain ⟨l, rfl, -, hfits, -⟩ := replayTokens_writesAs (P := P) ts s.replayBegun_wp h.replay hleft
  have hrun := hfits (by simpa using hfit)
  exact ⟨s.replayBegun.advance (ts.flatMap tokenBytes).length, s.replayBegun_wp,
    by rw [State.left_advance, hleft, List.drop_left], h.lz77Dec_run.trans (bind_of_ok hrun)⟩

/-- R257: a container of legal tokens is decoded to their replay. -/
theorem Lz77Input.lz77DecWith_done (h : Lz77Input P s 0 ts y rest) (hfit : y.length ≤ P.outCap) (hcap : P.outCap < 2 ^ 64) :
    ∃ t, lz77DecWith P s = .next t ∧ DoneWith t y := by
  obtain ⟨t, hwp, -, hrun⟩ := h.replay_run hfit
  exact ⟨_, runOp_of_ok hrun, doneWith_finishCoded false hwp (by omega)⟩

/-- After some legal tokens, a token that cannot be replayed. -/
theorem Lz77Input.exec_failedWith {e : ErrKind} (h : Lz77Input params s (ahead + 1) ts y rest)
    (hfit : y.length ≤ params.outCap)
    (he : ∀ t : State, t.work.wp = y.length → t.left = rest → Raises (replayToken params) e t) :
    ∃ t, exec .lz77Dec s = .next t ∧ FailedWith t e := by
  obtain ⟨t, hwp, hleft, hrun⟩ := h.replay_run hfit
  refine Machine.exec_failedWith ?_
  rw [Raises, phases, hrun]
  exact Raises.bind (he _ (by rw [State.wrote_work, hwp, Nat.zero_add]) hleft)

end

/-- Settles O51: every token is legal at its point, so each of them is replayed. -/
theorem lz77DecReplaysTokens : Obligations.Lz77DecReplaysTokens := by
  unfold Obligations.Lz77DecReplaysTokens
  intro s ts rest y hcap hpos hlt hreplay hfit hbytes
  have hin : Lz77Input params s 0 ts y rest := ⟨hcap, hpos, hlt, hreplay, hbytes⟩
  exact hin.lz77DecWith_done hfit (by decide)

/-- Settles O52: the checks of the number of tokens come first; then a token is not legal, or the container ends in it. -/
theorem lz77DecRejects : Obligations.Lz77DecRejects := by
  unfold Obligations.Lz77DecRejects
  intro s
  refine ⟨exec_range .lz77Dec, fun hlen => ?_, fun hlen hcap htc => exec_failedWith (lz77Dec_of_not_positive hcap hlen htc),
    ?_, ?_⟩
  · have hcap : s.inLen.toNat ≤ params.inCap := hlen.le.trans (by decide)
    exact exec_failedWith (lz77Dec_of_short_header hcap hlen)
  · intro ts bad tc rest y hcap hlt htc hreplay hfit hbad hbytes
    obtain ⟨ahead, rfl⟩ := Nat.exists_eq_add_of_lt hlt
    rw [List.append_assoc] at hbytes
    have hin : Lz77Input params s (ahead + 1) ts y _ := ⟨hcap, by omega, htc, hreplay, hbytes⟩
    exact hin.exec_failedWith hfit fun t hwp hleft => replayToken_of_illegal (by rwa [hwp]) hleft
  · intro ts tc part y hcap hlt htc hreplay hfit hpart hbytes
    obtain ⟨ahead, rfl⟩ := Nat.exists_eq_add_of_lt hlt
    have hin : Lz77Input params s (ahead + 1) ts y part := ⟨hcap, by omega, htc, hreplay, hbytes⟩
    exact hin.exec_failedWith hfit fun t _ hleft => replayToken_of_part (by rwa [hleft])

/-! ### The round trip (R258) -/

/-- R240, R247: on an input within `IN_CAP` the phases of `LZ77.ENC` come to writing the tokens of the input. -/
theorem lz77Enc_run {P : Params} {s : State} (hcap : s.inLen.toNat ≤ P.inCap) :
    lz77Enc P s = (outU P 4 (lz77Tokens s.inBytes).length >>= fun _ => outTokens P (lz77Tokens s.inBytes))
      (s.begun.setPhase .write) := by
  have hrange : checkRange P (s.begun.setPhase .check) = .ok () (s.begun.setPhase .check) := (checkRange_run P _).1 hcap
  rw [lz77Enc, bind_of_ok (beginOp_run s), bind_of_ok (phase_run _ _), bind_of_ok hrange, bind_of_ok (phase_run _ _),
    bind_of_ok (get_run _), bind_of_ok (phase_run _ _)]
  rfl

theorem lz77Tokens_writes (P : Params) (x : List Byte) (s : State) :
    Writes P (outU P 4 (lz77Tokens x).length >>= fun _ => outTokens P (lz77Tokens x)) (lz77Container x) s :=
  (outU_writes P 4 _ s).seq (outTokens_writes P _ _)

/-- R248: a container that fits is the output of `LZ77.ENC`. -/
theorem lz77EncWith_done {P : Params} {s : State} (hcap : s.inLen.toNat ≤ P.inCap)
    (hfit : (lz77Container s.inBytes).length ≤ P.outCap) (hout : P.outCap < 2 ^ 64) :
    ∃ t, lz77EncWith P s = .next t ∧ DoneWith t (lz77Container s.inBytes) := by
  have h0 : (s.begun.setPhase .write).work.wp = 0 := rfl
  have hrun := (lz77Tokens_writes P s.inBytes _).1 (by rwa [h0, Nat.zero_add])
  exact ⟨_, runOp_of_ok ((lz77Enc_run hcap).trans hrun), doneWith_finishCoded false h0 (by omega)⟩

/-- R8: the bounds on the capacities. -/
theorem caps_of_wf {P : Params} (h : P.wf = true) : P.inCap < 2 ^ 31 ∧ P.outCap < 2 ^ 63 := by
  simp only [Params.wf, Bool.and_eq_true, decide_eq_true_eq] at h
  omega

/-- What `LZ77.ENC` writes for a non-empty input is a container that replays to the input. -/
theorem lz77Input_of_container {P : Params} {r : State} {x : List Byte} (hne : x ≠ []) (hlen : x.length < 2 ^ 31)
    (hcap : (lz77Container x).length ≤ P.inCap) (h : r.inBytes = lz77Container x) :
    Lz77Input P r 0 (lz77Tokens x) x [] := by
  have hparse := lz77Tokens_parses x
  have hcount := hparse.count
  have hpos := List.length_pos_iff.mpr hne
  exact ⟨by rwa [← State.inBytes_length, h], by omega, by omega, hparse.replayBytes, by rw [h, List.append_nil]; rfl⟩

/-- Settles O53: the encoder's tokens parse the input, so they are legal and replay to it. -/
theorem lz77RoundTrip : Obligations.Lz77RoundTrip := by
  unfold Obligations.Lz77RoundTrip
  intro P s hwf hcap hfit hne hroom hback
  obtain ⟨hin, hout⟩ := caps_of_wf hwf
  obtain ⟨t, ht, hdone, -, -, hbytes⟩ := lz77EncWith_done hcap hroom (by omega)
  refine ⟨t, ht, hdone, fun r hr => ?_⟩
  have hlen : s.inBytes.length < 2 ^ 31 := by rw [State.inBytes_length]; omega
  exact (lz77Input_of_container hne hlen hback (hr.trans hbytes)).lz77DecWith_done (by rwa [State.inBytes_length]) (by omega)

end Sys2Proof.Machine
end

section
/-! PROOFS. What `LZW.DEC` does with a container (O57, O58). The state in the middle of the replay is one in which nothing was
written, with the output so far written to it; of its dictionary the errors depend on the size alone. -/

namespace Sys2Proof.Machine

/-! ### The dictionary (R37, R282, R285, R286) -/

@[simp] theorem lzwSeed_length : lzwSeed.length = 256 := by simp [lzwSeed, symbols]

theorem lzwAdd_length {d : List (List Byte)} (w : List Byte) (h : d.length ≤ 4096) :
    (lzwAdd d w).length = min 4096 (d.length + 1) := by
  rw [lzwAdd, lzwMax]
  split
  · rw [List.length_append, List.length_singleton]
    omega
  · omega

/-- R285: the codes without a string are those above the size of the dictionary. -/
theorem lzwString_eq_none_iff (d : List (List Byte)) (prev : List Byte) (c : Nat) :
    lzwString d prev c = none ↔ d.length < c := by
  rw [lzwString]
  split
  · next hlt => exact iff_of_false (by simp [hlt]) hlt.not_gt
  · split
    · next heq => exact iff_of_false (Option.some_ne_none _) heq.not_gt
    · exact iff_of_true rfl (by omega)

/-- The state with another dictionary. -/
def State.withDict (d : List (List Byte)) (s : State) : State := { s with work := { s.work with dict := d } }

@[simp] theorem State.withDict_dict (d : List (List Byte)) (s : State) : (s.withDict d).work.dict = d := rfl
@[simp] theorem State.withDict_wp (d : List (List Byte)) (s : State) : (s.withDict d).work.wp = s.work.wp := rfl
@[simp] theorem State.withDict_left (d : List (List Byte)) (s : State) : (s.withDict d).left = s.left := rfl
@[simp] theorem State.advance_dict (n : Nat) (s : State) : (s.advance n).work.dict = s.work.dict := rfl

/-! ### The codes after the first (R283 to R286) -/

section

variable {P : Params} {s : State} {n c : Nat} {prev cur r : List Byte}

/-- R285: a code without a string. -/
theorem lzwReplay_of_invalid (hc : c < 2 ^ 16) (h : s.left = bigEndian 2 c ++ r) (hbad : s.work.dict.length < c) :
    Raises (lzwReplay P (n + 1) prev) .corruptStream s := by
  have hnone : lzwString (s.advance 2).work.dict prev c = none := (lzwString_eq_none_iff ..).2 hbad
  rw [Raises, lzwReplay, bind_of_ok (inU_of_left (by decide) hc h), bind_of_ok (getWork_run _), hnone]
  exact raises_raise _ _

/-- R287: a code of which not both bytes are there. -/
theorem lzwReplay_of_part (h : s.left.length < 2) : Raises (lzwReplay P (n + 1) prev) .ioRead s :=
  (inU_raises h).bind

/-- R283, R286: a code with a string writes the string and adds an entry. -/
theorem lzwReplay_of_string (hc : c < 2 ^ 16) (h : s.left = bigEndian 2 c ++ r)
    (hcur : lzwString s.work.dict prev c = some cur) (hfit : s.work.wp + cur.length ≤ P.outCap) :
    lzwReplay P (n + 1) prev s =
      lzwReplay P n cur (((s.advance 2).withDict (lzwAdd s.work.dict (prev ++ cur.take 1))).wrote cur) := by
  have hsome : lzwString (s.advance 2).work.dict prev c = some cur := hcur
  rw [lzwReplay, bind_of_ok (inU_of_left (by decide) hc h), bind_of_ok (getWork_run _), hsome]
  exact bind_of_ok ((outString_writes P cur (s.advance 2)).1 hfit)

end

/-- In the middle of the replay: the dictionary has `size` entries, nothing is written, and `rest` has not been read. -/
structure LzwReplaying (t : State) (size : Nat) (rest : List Byte) : Prop where
  size : t.work.dict.length = size
  wp : t.work.wp = 0
  left : t.left = rest

/-- Codes with strings write them after the output so far, and each adds an entry as long as there is room. -/
theorem lzwReplay_append {P : Params} {rest : List Byte} (ahead : Nat) : ∀ (cs : List Nat) {s : State} {out prev y : List Byte},
    (∀ c ∈ cs, c < 2 ^ 16) → s.work.dict.length ≤ 4096 → s.work.wp = 0 → s.left = cs.flatMap (bigEndian 2) ++ rest →
    lzwStrings s.work.dict prev cs = some y → (out ++ y).length ≤ P.outCap →
    ∃ t last, LzwReplaying t (min 4096 (s.work.dict.length + cs.length)) rest ∧
      lzwReplay P (ahead + cs.length) prev (s.wrote out) = lzwReplay P ahead last (t.wrote (out ++ y))
  | [], s, out, prev, y, _, hsize, hwp, hleft, hy, _ => by
    cases hy
    exact ⟨s, prev, ⟨(min_eq_right hsize).symm, hwp, hleft⟩, by rw [List.append_nil]; rfl⟩
  | c :: cs, s, out, prev, y, hcs, hsize, hwp, hleft, hy, hfit => by
    rw [List.flatMap_cons, List.append_assoc] at hleft
    rw [lzwStrings] at hy
    split at hy
    · cases hy
    · next cur hcur =>
      obtain ⟨z, hz, rfl⟩ := Option.map_eq_some_iff.mp hy
      rw [← List.append_assoc] at hfit ⊢
      have hadd := lzwAdd_length (prev ++ cur.take 1) hsize
      have hroom : (s.wrote out).work.wp + cur.length ≤ P.outCap := by
        rw [List.length_append, List.length_append] at hfit
        show s.work.wp + out.length + cur.length ≤ P.outCap
        omega
      have hstep := lzwReplay_of_string (n := ahead + cs.length) (hcs c List.mem_cons_self) (s := s.wrote out) hleft hcur hroom
      obtain ⟨t, last, ⟨htsize, htwp, htleft⟩, hrun⟩ := lzwReplay_append ahead cs
        (s := (s.advance 2).withDict (lzwAdd s.work.dict (prev ++ cur.take 1))) (fun d hd => hcs d (List.mem_cons_of_mem c hd))
        (by rw [State.withDict_dict]; omega) hwp
        (by rw [State.withDict_left, State.left_advance, hleft, List.drop_left' (bigEndian_length 2 c)]) hz hfit
      refine ⟨t, last, ⟨?_, htwp, htleft⟩, ?_⟩
      · rw [htsize, State.withDict_dict, List.length_cons]
        omega
      · rw [State.wrote_append] at hrun
        exact hstep.trans hrun

/-! ### The header and the first code (R281, R282) -/

/-- `LZW.DEC` from the first code on, where `cc` codes are declared (R282). -/
def lzwFirst (P : Params) (cc : Nat) : Eng Unit := do
  let c0 ← inU 2
  if 256 ≤ c0 then raise .corruptStream
  else do
    let first := [BitVec.ofNat 8 c0]
    outString P first
    phase .replay
    lzwReplay P (cc - 1) first

/-- `LZW.DEC` after the number of codes (R281). -/
def lzwAfterCount (P : Params) (cc : Nat) : Eng Unit :=
  if s32 cc ≤ 0 then raise .invalidContainer
  else do
    phase .seed
    changeWork fun w => { w with dict := lzwSeed }
    phase .first
    lzwFirst P cc

/-- The state in which the first code is read: the number of codes has been read, and the dictionary is seeded. -/
def State.lzwSeeded (s : State) : State := ((s.sizeRead.setPhase .seed).withDict lzwSeed).setPhase .first

@[simp] theorem State.lzwSeeded_left (s : State) : s.lzwSeeded.left = s.inBytes.drop 4 := by simp [State.lzwSeeded]
@[simp] theorem State.lzwSeeded_wp (s : State) : s.lzwSeeded.work.wp = 0 := rfl
@[simp] theorem State.lzwSeeded_dict (s : State) : s.lzwSeeded.work.dict = lzwSeed := rfl

section

variable {P : Params} {s : State} {cc c : Nat} {r : List Byte}

theorem lzwDec_of_inCap (hcap : s.inLen.toNat ≤ P.inCap) :
    lzwDec P s = (inU 4 >>= lzwAfterCount P) (s.begun.setPhase .header) := by
  have hrange : checkRange P (s.begun.setPhase .header) = .ok () (s.begun.setPhase .header) := (checkRange_run P _).1 hcap
  rw [lzwDec, bind_of_ok (beginOp_run s), bind_of_ok (phase_run _ _), bind_of_ok hrange]
  rfl

/-- R281: a number of codes cut short. -/
theorem lzwDec_of_short_header (hcap : s.inLen.toNat ≤ P.inCap) (hlen : s.inLen.toNat < 4) : Raises (lzwDec P) .ioRead s := by
  rw [Raises, lzwDec_of_inCap hcap]
  exact (inU_raises (by simpa using hlen)).bind

/-- R281: a number of codes that is not positive as a signed number. -/
theorem lzwDec_of_not_positive (hcap : s.inLen.toNat ≤ P.inCap) (hlen : 4 ≤ s.inLen.toNat)
    (hcc : s32 (memRead s.inMem 0 4) ≤ 0) : Raises (lzwDec P) .invalidContainer s := by
  have hcount := (inU_run 4 (s.begun.setPhase .header)).1 (show 0 + 4 ≤ s.inLen.toNat by omega)
  rw [Raises, lzwDec_of_inCap hcap, bind_of_ok hcount, lzwAfterCount]
  exact (if_pos hcc).symm ▸ raises_raise _ _

/-- R282: after a positive number of codes the operation seeds its dictionary and reads the first code. -/
theorem lzwDec_of_count (hcap : s.inLen.toNat ≤ P.inCap) (hpos : 1 ≤ cc) (hlt : cc < 2 ^ 31)
    (hbytes : s.inBytes = bigEndian 4 cc ++ r) : lzwDec P s = lzwFirst P cc s.lzwSeeded := by
  have hsigned : 0 < s32 cc := by
    rw [s32, if_pos hlt]
    omega
  have hcount : inU 4 (s.begun.setPhase .header) = .ok cc s.sizeRead := inU_of_left (by decide) (by omega) hbytes
  rw [lzwDec_of_inCap hcap, bind_of_ok hcount, lzwAfterCount, if_neg (by omega)]
  rfl

/-- An error in reading the first code ends the operation. -/
theorem exec_lzwDec_first_failedWith {e : ErrKind} (hcap : s.inLen.toNat ≤ params.inCap) (hpos : 1 ≤ cc) (hlt : cc < 2 ^ 31)
    (hbytes : s.inBytes = bigEndian 4 cc ++ r) (he : ∀ t : State, t.left = r → Raises (lzwFirst params cc) e t) :
    ∃ t, exec .lzwDec s = .next t ∧ FailedWith t e := by
  refine exec_failedWith ?_
  rw [Raises, phases, lzwDec_of_count hcap hpos hlt hbytes]
  exact he _ (by rw [State.lzwSeeded_left, hbytes, List.drop_left' (bigEndian_length 4 cc)])

/-- R282: a first code that is not a byte. -/
theorem lzwFirst_of_not_byte (hc : c < 2 ^ 16) (h : s.left = bigEndian 2 c ++ r) (hbad : 256 ≤ c) :
    Raises (lzwFirst P cc) .corruptStream s := by
  rw [Raises, lzwFirst, bind_of_ok (inU_of_left (by decide) hc h), if_pos hbad]
  exact raises_raise _ _

/-- R287: a first code of which not both bytes are there. -/
theorem lzwFirst_of_part (h : s.left.length < 2) : Raises (lzwFirst P cc) .ioRead s := (inU_raises h).bind

/-- R282: the first code writes its byte, and the replay begins with that string. -/
theorem lzwFirst_of_byte (h : s.left = bigEndian 2 c ++ r) (hbyte : c < 256) (hfit : s.work.wp + 1 ≤ P.outCap) :
    lzwFirst P cc s =
      lzwReplay P (cc - 1) [BitVec.ofNat 8 c] (((s.advance 2).setPhase .replay).wrote [BitVec.ofNat 8 c]) := by
  rw [lzwFirst, bind_of_ok (inU_of_left (by decide) (by omega) h), if_neg (by omega)]
  exact bind_of_ok ((outString_writes P [BitVec.ofNat 8 c] (s.advance 2)).1 hfit)

end

/-- R282: a code sequence with a byte string begins with the code of a byte. -/
theorem lzwDecoded_eq_some {cs : List Nat} {y : List Byte} (h : lzwDecoded cs = some y) :
    ∃ c r z, cs = c :: r ∧ c < 256 ∧ lzwStrings lzwSeed [BitVec.ofNat 8 c] r = some z ∧ y = BitVec.ofNat 8 c :: z := by
  rcases cs with _ | ⟨c, r⟩
  · cases h
  · rw [lzwDecoded] at h
    split at h
    · next hbyte =>
      obtain ⟨z, hz, rfl⟩ := Option.map_eq_some_iff.mp h
      exact ⟨c, r, z, rfl, hbyte, hz, rfl⟩
    · cases h

/-! ### The codes of a container (R281 to R286) -/

/-- An LZW container within `IN_CAP` whose codes begin with `cs`, valid ones whose strings make up `y`; `ahead` codes more are
declared, and `rest` follows (R99, R281 to R283). -/
structure LzwInput (P : Params) (s : State) (ahead : Nat) (cs : List Nat) (y rest : List Byte) : Prop where
  cap : s.inLen.toNat ≤ P.inCap
  lt : ahead + cs.length < 2 ^ 31
  codes : ∀ c ∈ cs, c < 2 ^ 16
  decoded : lzwDecoded cs = some y
  bytes : s.inBytes = bigEndian 4 (ahead + cs.length) ++ cs.flatMap (bigEndian 2) ++ rest

section

variable {P : Params} {s : State} {ahead : Nat} {cs : List Nat} {y rest : List Byte}

/-- The valid codes at the front are replayed. The first adds no entry, each of the others adds one as long as there is room. -/
theorem LzwInput.replay_run (h : LzwInput P s ahead cs y rest) (hfit : y.length ≤ P.outCap) :
    ∃ t last, LzwReplaying t (min 4096 (255 + cs.length)) rest ∧ lzwDec P s = lzwReplay P ahead last (t.wrote y) := by
  obtain ⟨hcap, hlt, hcodes, hdecoded, hbytes⟩ := h
  obtain ⟨c, r, z, rfl, hbyte, hz, rfl⟩ := lzwDecoded_eq_some hdecoded
  rw [List.length_cons] at hlt hfit
  rw [List.flatMap_cons, List.append_assoc, List.append_assoc] at hbytes
  have hleft : s.lzwSeeded.left = bigEndian 2 c ++ (r.flatMap (bigEndian 2) ++ rest) := by
    rw [State.lzwSeeded_left, hbytes, List.drop_left' (bigEndian_length ..)]
  have hfirst := lzwFirst_of_byte (P := P) (cc := ahead + r.length + 1) hleft hbyte (by rw [State.lzwSeeded_wp]; omega)
  obtain ⟨t, last, ht, hrun⟩ := lzwReplay_append (P := P) ahead r (s := (s.lzwSeeded.advance 2).setPhase .replay)
    (out := [BitVec.ofNat 8 c]) (fun d hd => hcodes d (List.mem_cons_of_mem c hd)) (by simp) rfl
    (by rw [State.left_setPhase, State.left_advance, hleft, List.drop_left' (bigEndian_length ..)]) hz
    (by rwa [List.singleton_append, List.length_cons])
  have hsize : lzwSeed.length + r.length = 255 + (r.length + 1) := by
    rw [lzwSeed_length]
    omega
  rw [State.setPhase_work, State.advance_dict, State.lzwSeeded_dict, hsize] at ht
  exact ⟨t, last, ht, (lzwDec_of_count hcap (by omega) hlt hbytes).trans (hfirst.trans hrun)⟩

/-- R286: a container of valid codes is decoded to their strings. -/
theorem LzwInput.lzwDecWith_done (h : LzwInput P s 0 cs y rest) (hfit : y.length ≤ P.outCap) (hcap : P.outCap < 2 ^ 64) :
    ∃ t, lzwDecWith P s = .next t ∧ DoneWith t y := by
  obtain ⟨t, last, ht, hrun⟩ := h.replay_run hfit
  exact ⟨_, runOp_of_ok hrun, doneWith_finishCoded false ht.wp (by omega)⟩

/-- After some valid codes, a code that cannot be replayed. -/
theorem LzwInput.exec_failedWith {e : ErrKind} (h : LzwInput params s (ahead + 1) cs y rest) (hfit : y.length ≤ params.outCap)
    (he : ∀ (t : State) (prev : List Byte), t.work.dict.length = min 4096 (255 + cs.length) → t.left = rest →
      Raises (lzwReplay params (ahead + 1) prev) e t) :
    ∃ t, exec .lzwDec s = .next t ∧ FailedWith t e := by
  obtain ⟨t, last, ht, hrun⟩ := h.replay_run hfit
  refine Machine.exec_failedWith ?_
  rw [Raises, phases, hrun]
  exact he (t.wrote y) last ht.size ht.left

end

/-- Settles O57: every code is valid at its point, so each of them is replayed. -/
theorem lzwDecReplaysCodes : Obligations.LzwDecReplaysCodes := by
  unfold Obligations.LzwDecReplaysCodes
  intro s cs rest y hcap hlt hcodes hdecoded hfit hbytes
  have hin : LzwInput params s 0 cs y rest := ⟨hcap, by rwa [Nat.zero_add], hcodes, hdecoded, by rwa [Nat.zero_add]⟩
  exact hin.lzwDecWith_done hfit (by decide)

/-- Settles O58: the checks of the number of codes and of the first code come first; then a code has no string, or the container
ends in it. -/
theorem lzwDecRejects : Obligations.LzwDecRejects := by
  unfold Obligations.LzwDecRejects
  intro s
  refine ⟨exec_range .lzwDec, fun hlen => ?_, fun hlen hcap hcc => exec_failedWith (lzwDec_of_not_positive hcap hlen hcc),
    ?_, ?_, ?_⟩
  · have hcap : s.inLen.toNat ≤ params.inCap := hlen.le.trans (by decide)
    exact exec_failedWith (lzwDec_of_short_header hcap hlen)
  · intro c cc rest hcap hbad hc hpos hlt hbytes
    rw [List.append_assoc] at hbytes
    exact exec_lzwDec_first_failedWith hcap hpos hlt hbytes fun _ hleft => lzwFirst_of_not_byte hc hleft hbad
  · intro cs c cc rest y hcap hlt hcc hcodes hdecoded hfit hbad hc hbytes
    obtain ⟨ahead, rfl⟩ : ∃ ahead, cc = ahead + 1 + cs.length := ⟨cc - cs.length - 1, by omega⟩
    rw [List.append_assoc] at hbytes
    have hin : LzwInput params s (ahead + 1) cs y _ := ⟨hcap, hcc, hcodes, hdecoded, hbytes⟩
    exact hin.exec_failedWith hfit fun t _ hsize hleft => lzwReplay_of_invalid hc hleft (by rwa [hsize])
  · intro cs cc part hcap hlt hcc hcodes hcs hpart hbytes
    rcases hcs with rfl | ⟨y, hdecoded, hfit⟩
    · rw [List.append_assoc] at hbytes
      exact exec_lzwDec_first_failedWith hcap hlt hcc hbytes fun _ hleft => lzwFirst_of_part (by rwa [hleft])
    · obtain ⟨ahead, rfl⟩ : ∃ ahead, cc = ahead + 1 + cs.length := ⟨cc - cs.length - 1, by omega⟩
      have hin : LzwInput params s (ahead + 1) cs y part := ⟨hcap, hcc, hcodes, hdecoded, hbytes⟩
      exact hin.exec_failedWith hfit fun t _ _ hleft => lzwReplay_of_part (by rwa [hleft])

end Sys2Proof.Machine
end

section
/-! PROOFS. The life cycle of an operation (R300): a `CMD` write starts one or is ignored (O4), and `STATUS.STATE` moves only as
listed (O8). -/

namespace Sys2Proof

/-! ### The legal command words (R80, R82) -/

theorem decodeOp_isSome (op : BitVec 4) : (decodeOp op).isSome = legalOp op := by
  revert op
  decide

/-- The decoder accepts exactly the legal command words. -/
theorem legalCommand_iff_decode (w : Word) : legalCommand w = true ↔ ∃ i, decode w = .ok i := by
  constructor
  · intro h
    obtain ⟨hz, hop⟩ : cmdZero w = 0 ∧ legalOp (cmdOp w) = true := by simpa [legalCommand, cmdZero, cmdOp] using h
    obtain ⟨i, hi⟩ := Option.isSome_iff_exists.mp ((decodeOp_isSome (cmdOp w)).trans hop)
    exact ⟨i, by simp only [decode, if_pos hz, hi]⟩
  · rintro ⟨i, hi⟩
    rw [(decode_eq_ok_iff w i).mp hi]
    cases i <;> rfl

theorem legalCommand_of_toNat {w : Word} (hlo : 1 ≤ w.toNat) (hhi : w.toNat ≤ 9) : legalCommand w = true := by
  have hz : w.extractLsb' 4 28 = 0 := by
    apply BitVec.eq_of_toNat_eq
    rw [BitVec.extractLsb'_toNat, Nat.shiftRight_eq_div_pow, Nat.div_eq_of_lt (by omega)]
    rfl
  have hop : (w.extractLsb' 0 4).toNat = w.toNat := by
    rw [BitVec.extractLsb'_toNat, Nat.shiftRight_zero, Nat.mod_eq_of_lt (by omega)]
  simp [legalCommand, legalOp, hz, hop, hlo, hhi]

end Sys2Proof

namespace Sys2Proof.Machine

/-! ### A host write of `CMD` (R301) -/

theorem State.writeCmd_of_busy {s : State} (w : Word) (h : s.isBusy = true) : s.writeCmd w = s := if_pos h

theorem State.writeCmd_of_not_busy {s : State} (w : Word) (h : s.isBusy = false) :
    s.writeCmd w = if legalCommand w then s.start (cmdOp w) else s.badCommand := by
  rw [State.writeCmd, if_neg (Bool.eq_false_iff.mp h)]
  cases hd : decode w with
  | ok i => rw [if_pos ((legalCommand_iff_decode w).mpr ⟨i, hd⟩)]
  | error b =>
    have hbad : ¬ legalCommand w = true := fun hl => by
      obtain ⟨i, hi⟩ := (legalCommand_iff_decode w).mp hl
      cases hd.symm.trans hi
    rw [if_neg hbad]

/-- Settles O4: a write while `BUSY` leaves the state, and one of 1 to 9 outside it is legal, so it is `State.start`. -/
theorem commandWriteStartsOrIsIgnored : Obligations.CommandWriteStartsOrIsIgnored := by
  unfold Obligations.CommandWriteStartsOrIsIgnored
  intro s w rest ha
  have hstep : step s = .next ({ s with agenda := rest }.writeCmd w) := step_of_agenda ha
  refine ⟨fun hb => ?_, fun hb hlo hhi => ⟨false, ?_⟩⟩
  · exact hstep.trans (congrArg Host.Outcome.next (State.writeCmd_of_busy w hb))
  · have hstart := State.writeCmd_of_not_busy (s := { s with agenda := rest }) w hb
    rw [if_pos (legalCommand_of_toNat hlo hhi)] at hstart
    exact hstep.trans (congrArg Host.Outcome.next hstart)

/-! ### `STATUS.STATE` after each change of the state -/

theorem State.stateField_congr {s t : State} (h : t.status = s.status) : t.stateField = s.stateField := by
  rw [State.stateField, State.stateField, h]

theorem State.start_stateField (o : BitVec 4) (s : State) : (s.start o).stateField = 1 :=
  stateField_of_status (s.start_status o)

theorem State.badCommand_stateField (s : State) : s.badCommand.stateField = 3 := stateField_of_status s.badCommand_status

theorem State.writeIn_status (a : Nat) (b : Byte) (s : State) : (s.writeIn a b).status = s.status := by
  unfold State.writeIn
  split <;> rfl

theorem State.writeInLen_status (v : Len) (s : State) : (s.writeInLen v).status = s.status := by
  unfold State.writeInLen
  split <;> rfl

theorem State.hostReads_status (n : Nat) (v : BitVec 64) (s : State) : (s.hostReads n v).status = s.status := by
  unfold State.hostReads
  split <;> rfl

/-- A host transaction other than a write of `CMD` leaves `STATUS`. -/
theorem hostMove_writeCmd_or_status {P : Params} {x : HostTxn} {s t : State} (h : hostMove P x s = .next t) :
    (∃ w, x = .writeCmd w ∧ t = s.writeCmd w) ∨ t.status = s.status := by
  obtain ⟨a, b, -, -, rfl⟩ | ⟨v, -, rfl⟩ | hw | ⟨-, ⟨v, rfl⟩ | ⟨n, v, rfl⟩⟩ := hostMove_cases h
  · exact .inr (s.writeIn_status a b)
  · exact .inr (s.writeInLen_status v)
  · exact .inl hw
  · exact .inr (s.hostGets_status v)
  · exact .inr (s.hostReads_status n v)

/-! ### The engine's turn ends the operation -/

/-- The operation has ended: `STATE` is `DONE` or `ERROR` (R300). -/
def State.Ended (s : State) : Prop := s.stateField = 2 ∨ s.stateField = 3

theorem State.ended_of_done {s : State} (h : s.status = statusWord .done) : s.Ended := .inl (stateField_of_status h)

theorem State.ended_of_error {s : State} (h : s.status = statusWord .error) : s.Ended := .inr (stateField_of_status h)

theorem lastPhase_status (i : Instr) (s : State) : (lastPhase i s).status = statusWord .done := by cases i <;> rfl

/-- R353: every operation ends, by its last phase or by an error. -/
theorem exec_ended (i : Instr) (s : State) : ∃ t, exec i s = .next t ∧ t.Ended := by
  rw [exec_eq]
  cases hm : phases params i s with
  | ok a u => exact ⟨_, runOp_of_ok hm, State.ended_of_done (lastPhase_status i u)⟩
  | error e u => exact ⟨_, runOp_of_error hm, State.ended_of_error (u.raiseError_status e)⟩

/-- R350: a drawn result is an end too. -/
theorem State.drawnResult_ended (P : Params) (s : State) : (s.drawnResult P).Ended := by
  simp only [State.drawnResult]
  split
  · exact State.ended_of_done rfl
  · exact State.ended_of_error rfl

theorem engineMove_ended {s : State} (hb : s.isBusy = true) : ∃ t, engineMove s = .next t ∧ t.Ended := by
  rw [engineMove, if_pos hb]
  by_cases hd : s.disturbed = true
  · rw [if_pos hd]
    exact ⟨_, rfl, s.drawnResult_ended params⟩
  · rw [if_neg hd]
    cases decodeOp s.op with
    | some i => exact exec_ended i s
    | none => exact ⟨_, rfl, State.ended_of_error s.badCommand_status⟩

theorem engineMove_of_not_busy {s : State} (hb : s.isBusy = false) : engineMove s = .next s :=
  if_neg (Bool.eq_false_iff.mp hb)

theorem step_of_engineTurn {s : State} (h : s.engineTurn = true) : step s = engineMove s.popped := by
  unfold State.engineTurn at h
  split at h
  · next ha =>
    have hp : s.popped = s := by rw [State.popped, ha, List.tail_nil, ← ha]
    rw [step, ha, hp]
  · next m rest ha =>
    obtain rfl : m = .engine := of_decide_eq_true h
    rw [step_of_agenda ha, State.popped, ha]
    rfl

/-! ### The moves of `STATUS.STATE` (R300) -/

/-- While `BUSY` the engine's turn ends the operation, and otherwise it leaves `STATE`. -/
theorem engineMove_stateField {s t : State} (h : engineMove s = .next t) :
    t.stateField = s.stateField ∨ (s.isBusy = true ∧ t.Ended) := by
  cases hb : s.isBusy with
  | false =>
    cases (engineMove_of_not_busy hb).symm.trans h
    exact .inl rfl
  | true =>
    obtain ⟨u, hu, hend⟩ := engineMove_ended hb
    cases hu.symm.trans h
    exact .inr ⟨rfl, hend⟩

theorem State.writeCmd_stateField_of_not_busy {s : State} (w : Word) (h : s.isBusy = false) :
    (s.writeCmd w).stateField = if legalCommand w then 1 else 3 := by
  rw [State.writeCmd_of_not_busy w h]
  split
  · exact s.start_stateField (cmdOp w)
  · exact s.badCommand_stateField

/-- While `BUSY` a `CMD` write leaves `STATE`; otherwise it is `BUSY` after a legal word and `ERROR` after an illegal one. -/
theorem State.writeCmd_stateField_cases (w : Word) (s : State) :
    (s.writeCmd w).stateField = s.stateField ∨
    (s.isBusy = false ∧ (s.writeCmd w).stateField = 1 ∧ legalCommand w = true) ∨
    (s.isBusy = false ∧ (s.writeCmd w).stateField = 3 ∧ legalCommand w = false) := by
  cases hb : s.isBusy with
  | true => exact .inl (congrArg State.stateField (State.writeCmd_of_busy w hb))
  | false =>
    have hfield := State.writeCmd_stateField_of_not_busy w hb
    cases hl : legalCommand w with
    | true => exact .inr (.inl ⟨rfl, by simpa [hl] using hfield, rfl⟩)
    | false => exact .inr (.inr ⟨rfl, by simpa [hl] using hfield, rfl⟩)

/-- Every step that moves `STATE` makes one of the listed moves. -/
theorem step_stateField_cases {s t : State} (h : step s = .next t) :
    t.stateField = s.stateField ∨
    (s.isBusy = false ∧ t.stateField = 1 ∧ ∃ w, s.agenda.head? = some (.host (.writeCmd w)) ∧ legalCommand w = true) ∨
    (s.isBusy = false ∧ t.stateField = 3 ∧ ∃ w, s.agenda.head? = some (.host (.writeCmd w)) ∧ legalCommand w = false) ∨
    (s.isBusy = true ∧ s.engineTurn = true ∧ t.Ended) ∨
    (t.stateField = 0 ∧ s.agenda.head? = some .reset) := by
  obtain ⟨hturn, hmove⟩ | ⟨x, rest, ha, hmove⟩ | ⟨rest, ha, rfl⟩ := step_cases h
  · obtain hsame | ⟨hb, hend⟩ := engineMove_stateField hmove
    · exact .inl hsame
    · exact .inr (.inr (.inr (.inl ⟨hb, hturn, hend⟩)))
  · have hhead : s.agenda.head? = some (.host x) := by rw [ha, List.head?_cons]
    obtain ⟨w, rfl, rfl⟩ | hsame := hostMove_writeCmd_or_status hmove
    · obtain hsame | ⟨hb, hfield, hl⟩ | ⟨hb, hfield, hl⟩ := State.writeCmd_stateField_cases w s.popped
      · exact .inl hsame
      · exact .inr (.inl ⟨hb, hfield, w, hhead, hl⟩)
      · exact .inr (.inr (.inl ⟨hb, hfield, w, hhead, hl⟩))
    · exact .inl (State.stateField_congr hsame)
  · exact .inr (.inr (.inr (.inr ⟨rfl, by rw [ha, List.head?_cons]⟩)))

/-- Settles O8: the split over whose move a step is gives the moves that can be made; each move by itself is made. -/
theorem statusMovesOnlyAsListed : Obligations.StatusMovesOnlyAsListed := by
  unfold Obligations.StatusMovesOnlyAsListed
  refine ⟨fun s t => step_stateField_cases, fun s hb hturn => ?_, fun s w rest ha hb => ?_, fun s rest ha => ?_⟩
  · rw [step_of_engineTurn hturn]
    exact engineMove_ended hb
  · exact ⟨_, step_of_agenda ha, State.writeCmd_stateField_of_not_busy w hb⟩
  · exact ⟨_, step_of_agenda ha, rfl⟩

end Sys2Proof.Machine
end

section
/-! PROOFS. Every operation ends, in `DONE` or in `ERROR` with an error of its row (O14). -/

namespace Sys2Proof.Machine

theorem lastPhase_err (i : Instr) (s : State) : (lastPhase i s).err = errNone := by cases i <;> rfl

/-- R307: the phases of an operation raise no error but those of its row. -/
theorem mem_mayRaise_of_error {P : Params} {i : Instr} {s t : State} {e : ErrKind} (h : phases P i s = .error e t) :
    e ∈ mayRaise i :=
  ((phases_carries (sameOutside_outside s) P i).error (SameOutside.refl s) h).1

/-- Settles O14: the phases go on to the last phase, which is `DONE`, or raise an error of the row, which is `ERROR`. -/
theorem everyOperationEnds : Obligations.EveryOperationEnds := by
  intro i s
  rw [exec_eq]
  cases hm : phases params i s with
  | ok a u => exact ⟨_, runOp_of_ok hm, .inl ⟨lastPhase_status i u, lastPhase_err i u⟩⟩
  | error e u =>
    obtain ⟨hstatus, herr, hlen⟩ := failedWith_raiseError e u
    exact ⟨_, runOp_of_error hm, .inr ⟨hstatus, hlen, e, mem_mayRaise_of_error hm, herr⟩⟩

end Sys2Proof.Machine
end

section
/-! PROOFS. The LZW codes of a byte string: their bounds (O54), their decoding (O55), the container that `LZW.ENC` writes
(O56) and the round trip (O59). The dictionary of the encoder is that of the decoder with the entry added that the next string
completes, at every code. -/

namespace Sys2Proof.Machine

/-! ### The dictionary (R271, R272, R276) -/

/-- What holds of the dictionary of both operations: every one-byte string is an entry, there are 256 to 4096 entries, and entry
`k` is a string of at most `k - 254` bytes, of one byte if it was seeded. -/
structure LzwDict (d : List (List Byte)) : Prop where
  byte : ∀ b : Byte, [b] ∈ d
  size : 256 ≤ d.length ∧ d.length ≤ 4096
  entry : ∀ k e, d[k]? = some e → 1 ≤ e.length ∧ e.length + 254 ≤ max 255 k

theorem mem_symbols (b : Byte) : b ∈ symbols :=
  List.mem_map.mpr ⟨b.toNat, List.mem_range.mpr b.isLt, by simp⟩

theorem mem_lzwSeed (w : List Byte) : w ∈ lzwSeed ↔ ∃ b, w = [b] := by
  simp [lzwSeed, mem_symbols, eq_comm]

theorem lzwDict_seed : LzwDict lzwSeed where
  byte b := (mem_lzwSeed [b]).mpr ⟨b, rfl⟩
  size := by rw [lzwSeed_length]; decide
  entry k e h := by
    obtain ⟨b, rfl⟩ := (mem_lzwSeed e).mp (List.mem_of_getElem? h)
    simp

theorem lzwAdd_of_room {d : List (List Byte)} (w : List Byte) (h : d.length < 4096) : lzwAdd d w = d ++ [w] := if_pos h

theorem lzwAdd_of_full {d : List (List Byte)} (w : List Byte) (h : 4096 ≤ d.length) : lzwAdd d w = d :=
  if_neg (Nat.not_lt.mpr h)

namespace LzwDict

variable {d : List (List Byte)} {w : List Byte}

theorem length_of_mem (h : LzwDict d) (hw : w ∈ d) : 1 ≤ w.length ∧ w.length + 255 ≤ d.length := by
  obtain ⟨k, hk⟩ := List.mem_iff_getElem?.mp hw
  obtain ⟨hlt, -⟩ := List.getElem?_eq_some_iff.mp hk
  have hsize := h.size
  have hentry := h.entry k w hk
  omega

/-- An entry that is short enough for its index keeps all this; when the dictionary is full none is added. -/
theorem add (h : LzwDict d) (hpos : 1 ≤ w.length) (hle : d.length < 4096 → w.length + 254 ≤ d.length) :
    LzwDict (lzwAdd d w) := by
  obtain ⟨hlo, hhi⟩ := h.size
  by_cases hroom : d.length < 4096
  · rw [lzwAdd_of_room w hroom]
    refine ⟨fun b => List.mem_append_left _ (h.byte b), by simp; omega, fun k e he => ?_⟩
    rcases Nat.lt_trichotomy k d.length with hk | rfl | hk
    · exact h.entry k e (by rwa [List.getElem?_append_left hk] at he)
    · rw [List.getElem?_concat_length] at he
      cases he
      exact ⟨hpos, (hle hroom).trans (le_max_right _ _)⟩
    · rw [List.getElem?_eq_none (by simp; omega)] at he
      cases he
  · rwa [lzwAdd_of_full w (by omega)]

/-- The encoder's entries: a string of the dictionary and one byte more (R272). -/
theorem add_concat (h : LzwDict d) (hw : w ∈ d) (b : Byte) : LzwDict (lzwAdd d (w ++ [b])) := by
  have hlen := h.length_of_mem hw
  exact h.add (by simp) fun _ => by rw [List.length_append, List.length_singleton]; omega

theorem code_lt (h : LzwDict d) (hw : w ∈ d) : lzwCode d w < 4096 := (List.idxOf_lt_length_of_mem hw).trans_le h.size.2

end LzwDict

/-! ### The scan (R272, R273) -/

section

variable {d : List (List Byte)} {w x : List Byte} {b : Byte}

theorem lzwScan_of_mem (h : w ++ [b] ∈ d) : lzwScan (b :: x) d w = lzwScan x d (w ++ [b]) := by
  rw [lzwScan, if_pos h]

theorem lzwScan_of_not_mem (h : w ++ [b] ∉ d) :
    lzwScan (b :: x) d w =
      (lzwCode d w :: (lzwScan x (lzwAdd d (w ++ [b])) [b]).1, (lzwScan x (lzwAdd d (w ++ [b])) [b]).2) := by
  rw [lzwScan, if_neg h]

/-- The codes that the scan emits from dictionary `d` and string `w` on, with that of the last string (R272, R273). -/
def lzwCodesFrom (x : List Byte) (d : List (List Byte)) (w : List Byte) : List Nat := lzwFlush (lzwScan x d w)

theorem lzwCodesFrom_nil (hw : w ≠ []) : lzwCodesFrom [] d w = [lzwCode d w] := by
  rw [lzwCodesFrom, lzwScan, lzwFlush, if_neg hw, List.nil_append]

theorem lzwCodesFrom_of_mem (h : w ++ [b] ∈ d) : lzwCodesFrom (b :: x) d w = lzwCodesFrom x d (w ++ [b]) := by
  rw [lzwCodesFrom, lzwScan_of_mem h, lzwCodesFrom]

theorem lzwCodesFrom_of_not_mem (h : w ++ [b] ∉ d) :
    lzwCodesFrom (b :: x) d w = lzwCode d w :: lzwCodesFrom x (lzwAdd d (w ++ [b])) [b] := by
  rw [lzwCodesFrom, lzwScan_of_not_mem h, lzwCodesFrom, lzwFlush, lzwFlush]
  split <;> rfl

end

/-- The first byte makes the first string. -/
theorem lzwScan_cons (b : Byte) (x : List Byte) : lzwScan (b :: x) lzwSeed [] = lzwScan x lzwSeed [b] :=
  lzwScan_of_mem (lzwDict_seed.byte b)

theorem lzwCodes_cons (b : Byte) (x : List Byte) : lzwCodes (b :: x) = lzwCodesFrom x lzwSeed [b] := by
  rw [lzwCodes, lzwScan_cons, lzwCodesFrom]

/-- The scan keeps what holds of the dictionary. -/
theorem lzwScan_dict : ∀ (x : List Byte) {d : List (List Byte)} {w : List Byte}, LzwDict d → w ∈ d →
    LzwDict (lzwScan x d w).2.1
  | [], _, _, hd, _ => hd
  | b :: x, d, w, hd, hw => by
    by_cases hmem : w ++ [b] ∈ d
    · rw [lzwScan_of_mem hmem]
      exact lzwScan_dict x hd hmem
    · have hadd := hd.add_concat hw b
      rw [lzwScan_of_not_mem hmem]
      exact lzwScan_dict x hadd (hadd.byte b)

theorem lzwScan_seed_dict (x : List Byte) : LzwDict (lzwScan x lzwSeed []).2.1 := by
  cases x with
  | nil => exact lzwDict_seed
  | cons b x =>
    rw [lzwScan_cons]
    exact lzwScan_dict x lzwDict_seed (lzwDict_seed.byte b)

theorem lzwCodesFrom_bounded : ∀ (x : List Byte) {d : List (List Byte)} {w : List Byte}, LzwDict d → w ∈ d →
    (∀ c ∈ lzwCodesFrom x d w, c < 4096) ∧ 1 ≤ (lzwCodesFrom x d w).length ∧
      (lzwCodesFrom x d w).length ≤ x.length + 1
  | [], d, w, hd, hw => by
    have hne : w ≠ [] := List.length_pos_iff.mp (hd.length_of_mem hw).1
    simpa [lzwCodesFrom_nil hne] using hd.code_lt hw
  | b :: x, d, w, hd, hw => by
    by_cases hmem : w ++ [b] ∈ d
    · obtain ⟨hlt, hpos, hlen⟩ := lzwCodesFrom_bounded x hd hmem
      rw [lzwCodesFrom_of_mem hmem, List.length_cons]
      exact ⟨hlt, hpos, by omega⟩
    · have hadd := hd.add_concat hw b
      obtain ⟨hlt, -, hlen⟩ := lzwCodesFrom_bounded x hadd (hadd.byte b)
      rw [lzwCodesFrom_of_not_mem hmem, List.length_cons, List.length_cons]
      exact ⟨List.forall_mem_cons.mpr ⟨hd.code_lt hw, hlt⟩, by omega, by omega⟩

/-- R274, R276: the codes of a byte string, of which there is at least one if it is not empty. -/
theorem lzwCodes_bounded (x : List Byte) :
    (∀ c ∈ lzwCodes x, c < 4096) ∧ (x ≠ [] → 1 ≤ (lzwCodes x).length) ∧ (lzwCodes x).length ≤ x.length := by
  cases x with
  | nil => exact ⟨nofun, fun h => absurd rfl h, le_rfl⟩
  | cons b x =>
    obtain ⟨hlt, hpos, hlen⟩ := lzwCodesFrom_bounded x lzwDict_seed (lzwDict_seed.byte b)
    rw [lzwCodes_cons]
    exact ⟨hlt, fun _ => hpos, hlen⟩

/-- Settles O54: the dictionary keeps its bounds, and every code is an index of it. -/
theorem lzwCodesAreBounded : Obligations.LzwCodesAreBounded := by
  unfold Obligations.LzwCodesAreBounded
  intro x
  obtain ⟨hlt, -, hlen⟩ := lzwCodes_bounded x
  obtain ⟨hlo, hhi⟩ := (lzwScan_seed_dict x).size
  exact ⟨hlt, hlen, hhi, hlo⟩

/-! ### The decoding of the codes (R283 to R286, R288) -/

/-- The code of a string of the encoder's dictionary gives that string, when the decoder's dictionary `d` lacks at most the entry
that the string completes; it is that entry itself in the case of the self-reference (R284). -/
theorem lzwString_lzwCode {d : List (List Byte)} {prev w : List Byte} (hprev : prev ≠ [])
    (hw : w ∈ lzwAdd d (prev ++ w.take 1)) : lzwString d prev (lzwCode (lzwAdd d (prev ++ w.take 1)) w) = some w := by
  generalize hcode : lzwCode (lzwAdd d (prev ++ w.take 1)) w = c
  have hget : (lzwAdd d (prev ++ w.take 1))[c]? = some w := hcode ▸ List.getElem?_idxOf hw
  rw [lzwAdd] at hget
  split at hget
  · rcases Nat.lt_trichotomy c d.length with hlt | rfl | hgt
    · rwa [lzwString, if_pos hlt, ← List.getElem?_append_left hlt]
    · rw [List.getElem?_concat_length, Option.some_inj] at hget
      have htake : w.take 1 = prev.take 1 := by
        rw [← hget, List.take_append_of_le_length (List.length_pos_iff.mpr hprev)]
      rw [lzwString, if_neg (Nat.lt_irrefl _), if_pos rfl, ← htake, hget]
    · rw [List.getElem?_eq_none (by simp; omega)] at hget
      cases hget
  · obtain ⟨hlt, -⟩ := List.getElem?_eq_some_iff.mp hget
    rwa [lzwString, if_pos hlt]

/-- The strings of the codes that the scan still emits, from string `w` on, are `w` and what is left of the input. -/
theorem lzwStrings_lzwCodesFrom : ∀ (x : List Byte) {d : List (List Byte)} {prev w : List Byte}, prev ≠ [] →
    LzwDict (lzwAdd d (prev ++ w.take 1)) → w ∈ lzwAdd d (prev ++ w.take 1) →
    lzwStrings d prev (lzwCodesFrom x (lzwAdd d (prev ++ w.take 1)) w) = some (w ++ x)
  | [], d, prev, w, hprev, hd, hw => by
    have hne : w ≠ [] := List.length_pos_iff.mp (hd.length_of_mem hw).1
    rw [lzwCodesFrom_nil hne, lzwStrings, lzwString_lzwCode hprev hw]
    rfl
  | b :: x, d, prev, w, hprev, hd, hw => by
    have hpos := (hd.length_of_mem hw).1
    by_cases hmem : w ++ [b] ∈ lzwAdd d (prev ++ w.take 1)
    · have htake : (w ++ [b]).take 1 = w.take 1 := List.take_append_of_le_length hpos
      have hrest := lzwStrings_lzwCodesFrom x (w := w ++ [b]) hprev (by rwa [htake]) (by rwa [htake])
      rw [lzwCodesFrom_of_mem hmem]
      rwa [htake, List.append_assoc] at hrest
    · have hadd := hd.add_concat hw b
      have hrest := lzwStrings_lzwCodesFrom x (prev := w) (w := [b]) (List.length_pos_iff.mp hpos) hadd (hadd.byte b)
      rw [show [b].take 1 = [b] from rfl] at hrest
      rw [lzwCodesFrom_of_not_mem hmem, lzwStrings, lzwString_lzwCode hprev hw]
      simp only [hrest]
      rfl

/-- The code of a one-byte string is the byte (R271). -/
theorem lzwCode_seed (b : Byte) : lzwCode lzwSeed [b] < 256 ∧ BitVec.ofNat 8 (lzwCode lzwSeed [b]) = b := by
  have hget : lzwSeed[lzwCode lzwSeed [b]]? = some [b] := List.getElem?_idxOf (lzwDict_seed.byte b)
  obtain ⟨hlt, hget⟩ := List.getElem?_eq_some_iff.mp hget
  rw [lzwSeed_length] at hlt
  refine ⟨hlt, ?_⟩
  simpa [lzwSeed, symbols] using hget

/-- The first string is one byte: it cannot be prolonged in the seeded dictionary. -/
theorem lzwDecoded_lzwCodes (b : Byte) (x : List Byte) : lzwDecoded (lzwCodes (b :: x)) = some (b :: x) := by
  obtain ⟨hlt, hbyte⟩ := lzwCode_seed b
  rw [lzwCodes_cons]
  cases x with
  | nil => rw [lzwCodesFrom_nil (List.cons_ne_nil b []), lzwDecoded, if_pos hlt, hbyte]; rfl
  | cons c x =>
    have hlong : [b] ++ [c] ∉ lzwSeed := by simp [mem_lzwSeed]
    have hadd := lzwDict_seed.add_concat (lzwDict_seed.byte b) c
    have hrest := lzwStrings_lzwCodesFrom x (prev := [b]) (w := [c]) (List.cons_ne_nil b []) hadd (hadd.byte c)
    rw [show [c].take 1 = [c] from rfl] at hrest
    rw [lzwCodesFrom_of_not_mem hlong, lzwDecoded, if_pos hlt, hbyte, hrest]
    rfl

/-- Settles O55: the decoder's dictionary stays one entry behind, which the next string completes. -/
theorem lzwCodesDecode : Obligations.LzwCodesDecode := by
  unfold Obligations.LzwCodesDecode
  intro x hx
  cases x with
  | nil => exact absurd rfl hx
  | cons b x => exact lzwDecoded_lzwCodes b x

/-! ### The run of `LZW.ENC` (R270 to R275) -/

/-- The state of `LZW.ENC` when the phase `WRITE` begins. -/
def State.lzwReady (s : State) : State := (s.begun.withDict (lzwScan s.inBytes lzwSeed []).2.1).setPhase .write

@[simp] theorem State.lzwReady_wp (s : State) : s.lzwReady.work.wp = 0 := rfl

/-- On an input within `IN_CAP` the phases come to writing the codes of the input. -/
theorem lzwEnc_run {P : Params} {s : State} (hcap : s.inLen.toNat ≤ P.inCap) :
    lzwEnc P s = (outU P 4 (lzwCodes s.inBytes).length >>= fun _ => outCodes P (lzwCodes s.inBytes)) s.lzwReady := by
  have hrange : checkRange P (s.begun.setPhase .check) = .ok () (s.begun.setPhase .check) := (checkRange_run P _).1 hcap
  rw [lzwEnc, bind_of_ok (beginOp_run s), bind_of_ok (phase_run _ _), bind_of_ok hrange, bind_of_ok (phase_run _ _),
    bind_of_ok (changeWork_run _ _), bind_of_ok (phase_run _ _), bind_of_ok (get_run _), bind_of_ok (changeWork_run _ _),
    bind_of_ok (phase_run _ _), bind_of_ok (phase_run _ _)]
  rfl

theorem lzwCodes_writes (P : Params) (x : List Byte) (s : State) :
    Writes P (outU P 4 (lzwCodes x).length >>= fun _ => outCodes P (lzwCodes x)) (lzwContainer x) s :=
  (outU_writes P 4 _ s).seq (outCodes_writes P _ _)

/-- R275: a container that fits is the output of `LZW.ENC`. -/
theorem lzwEncWith_done {P : Params} {s : State} (hcap : s.inLen.toNat ≤ P.inCap)
    (hfit : (lzwContainer s.inBytes).length ≤ P.outCap) (hout : P.outCap < 2 ^ 64) :
    ∃ t, lzwEncWith P s = .next t ∧ DoneWith t (lzwContainer s.inBytes) := by
  have hrun := (lzwCodes_writes P s.inBytes s.lzwReady).1 (by rwa [State.lzwReady_wp, Nat.zero_add])
  exact ⟨_, runOp_of_ok ((lzwEnc_run hcap).trans hrun), doneWith_finishCoded false s.lzwReady_wp (by omega)⟩

/-- Settles O56: all phases but the last only prepare the codes, which are then written in order. -/
theorem lzwEncWritesContainer : Obligations.LzwEncWritesContainer := by
  unfold Obligations.LzwEncWritesContainer
  exact fun s hcap hfit => lzwEncWith_done hcap hfit (by decide)

/-! ### The round trip (R288) -/

/-- What `LZW.ENC` writes for a non-empty input is a container whose codes decode to the input. -/
theorem lzwInput_of_container {P : Params} {r : State} {x : List Byte} (hne : x ≠ []) (hlen : x.length < 2 ^ 31)
    (hcap : (lzwContainer x).length ≤ P.inCap) (h : r.inBytes = lzwContainer x) : LzwInput P r 0 (lzwCodes x) x [] := by
  obtain ⟨hlt, -, hcount⟩ := lzwCodes_bounded x
  exact ⟨by rwa [← State.inBytes_length, h], by omega, fun c hc => (hlt c hc).trans (by decide), lzwCodesDecode x hne,
    by rw [h, List.append_nil, Nat.zero_add]; rfl⟩

/-- Settles O59: the codes of the input are valid and decode to it. -/
theorem lzwRoundTrip : Obligations.LzwRoundTrip := by
  unfold Obligations.LzwRoundTrip
  intro P s hwf hcap hfit hne hroom hback
  obtain ⟨hin, hout⟩ := caps_of_wf hwf
  obtain ⟨t, ht, hdone, -, -, hbytes⟩ := lzwEncWith_done hcap hroom (by omega)
  refine ⟨t, ht, hdone, fun r hr => ?_⟩
  have hlen : s.inBytes.length < 2 ^ 31 := by rw [State.inBytes_length]; omega
  exact (lzwInput_of_container hne hlen hback (hr.trans hbytes)).lzwDecWith_done (by rwa [State.inBytes_length]) (by omega)

end Sys2Proof.Machine
end

section
/-! PROOFS. The command word (O2, O3), the host's reads (O6, O7) and writes of `IN` (O12, O13), and the engine's turn (O9, O10). -/

namespace Sys2Proof

/-! ### The command word (R80 to R82) -/

theorem decode_encode (i : Instr) : decode (encode i) = .ok i := (decode_eq_ok_iff (encode i) i).mpr rfl

/-- Settles O2: the word of an instruction is the one that the decoder accepts for it. -/
theorem decodeEncodeAgree : Obligations.DecodeEncodeAgree := by
  unfold Obligations.DecodeEncodeAgree
  intro i _
  have hword : decodeTableWord 32 (encode i).toNat = some i := by
    rw [decodeTableWord, if_pos ⟨le_rfl, (encode i).isLt⟩, BitVec.ofNat_toNat, BitVec.setWidth_eq, decode_encode]
    rfl
  exact ⟨decode_encode i, hword, (legalCommand_iff_decode _).mpr ⟨i, decode_encode i⟩⟩

/-- R82: the illegal words, by their two fields. -/
theorem legalCommand_eq_false {w : Word}
    (h : w.extractLsb' 4 28 ≠ 0 ∨ w.extractLsb' 0 4 = 0 ∨ 0xA ≤ (w.extractLsb' 0 4).toNat) : legalCommand w = false := by
  rw [Bool.eq_false_iff, Ne, legalCommand, Bool.and_eq_true, beq_iff_eq, legalOp, Bool.and_eq_true, decide_eq_true_eq,
    decide_eq_true_eq]
  rintro ⟨hz, hlo, hhi⟩
  rcases h with hset | hop | hop
  · exact hset hz
  · rw [hop] at hlo
    exact absurd hlo (by decide)
  · omega

end Sys2Proof

namespace Sys2Proof.Machine

/-- Settles O3: outside `BUSY` an illegal word gives `State.badCommand`. -/
theorem illegalCommandIsBadCmd : Obligations.IllegalCommandIsBadCmd := by
  unfold Obligations.IllegalCommandIsBadCmd
  intro s w rest ha hb hbad
  have hstep : step s = .next ({ s with agenda := rest }.writeCmd w) := step_of_agenda ha
  have hcmd := State.writeCmd_of_not_busy (s := { s with agenda := rest }) w hb
  rw [legalCommand_eq_false hbad, if_neg Bool.false_ne_true] at hcmd
  exact ⟨false, hstep.trans (congrArg Host.Outcome.next hcmd)⟩

/-! ### The host's reads (R41 to R45, R64, R350) -/

theorem State.hostReads_of_busy {s : State} (n : Nat) (v : BitVec 64) (h : s.isBusy = true) :
    s.hostReads n v =
      { s with draws := s.draws + 1, hostData := ((Config.freeData s.draws).setWidth n).setWidth 64 } := if_pos h

theorem State.hostReads_of_not_busy {s : State} (n : Nat) (v : BitVec 64) (h : s.isBusy = false) :
    s.hostReads n v = s.hostGets v := if_neg (Bool.eq_false_iff.mp h)

/-- Settles O6: outside `BUSY` every read is `State.hostGets` of the register or cell. -/
theorem hostReadsReturnTheRegister : Obligations.HostReadsReturnTheRegister := by
  unfold Obligations.HostReadsReturnTheRegister
  intro s rest
  refine ⟨step_of_agenda, step_of_agenda, fun hb => ?_⟩
  have hreads : ∀ n v, { s with agenda := rest }.hostReads n v = { s with hostData := v, agenda := rest } := fun n v =>
    State.hostReads_of_not_busy (s := { s with agenda := rest }) n v hb
  refine ⟨fun ha => ?_, fun ha => ?_, fun c ha => ?_, fun a hcap ha => ?_, fun a hcap ha => ?_⟩
  · exact (step_of_agenda ha).trans (congrArg Host.Outcome.next (hreads 32 _))
  · exact (step_of_agenda ha).trans (congrArg Host.Outcome.next (hreads 64 _))
  · have hread := (step_of_agenda ha).trans (congrArg Host.Outcome.next (hreads 64 _))
    rwa [BitVec.setWidth_eq] at hread
  · exact (step_of_agenda ha).trans ((if_pos hcap).trans (congrArg Host.Outcome.next (hreads 8 _)))
  · exact (step_of_agenda ha).trans ((if_pos hcap).trans (congrArg Host.Outcome.next (hreads 8 _)))

/-- R64, R350: what a read changes. -/
theorem State.hostReads_changes (n : Nat) (v : BitVec 64) (s : State) :
    s.hostReads n v = { s with hostData := (s.hostReads n v).hostData, draws := (s.hostReads n v).draws } ∧
      s.draws ≤ (s.hostReads n v).draws := by
  cases hb : s.isBusy with
  | true =>
    rw [State.hostReads_of_busy n v hb]
    exact ⟨rfl, Nat.le_succ _⟩
  | false =>
    rw [State.hostReads_of_not_busy n v hb]
    exact ⟨rfl, le_rfl⟩

/-- Settles O7: a read that does not stop is `State.hostGets` or `State.hostReads`. -/
theorem hostReadsDisturbNothing : Obligations.HostReadsDisturbNothing := by
  unfold Obligations.HostReadsDisturbNothing
  intro s t r rest ha hr h
  rw [step_of_agenda ha] at h
  obtain ⟨a, b, rfl, -⟩ | ⟨v, rfl, -⟩ | ⟨w, rfl, -⟩ | ⟨-, ⟨v, rfl⟩ | ⟨n, v, rfl⟩⟩ := hostMove_cases h
  · cases hr
  · cases hr
  · cases hr
  · exact ⟨rfl, le_rfl⟩
  · exact State.hostReads_changes n v { s with agenda := rest }

/-! ### The host's writes of `IN` (R24, R83, R350) -/

theorem State.writeIn_of_busy {s : State} (a : Nat) (b : Byte) (h : s.isBusy = true) :
    s.writeIn a b =
      { s with inMem := s.inMem.write a (Config.freeByte s.draws a), draws := s.draws + 1, disturbed := true } := if_pos h

theorem State.writeIn_of_not_busy {s : State} (a : Nat) (b : Byte) (h : s.isBusy = false) :
    s.writeIn a b = { s with inMem := s.inMem.write a b } := if_neg (Bool.eq_false_iff.mp h)

theorem hostMove_writeIn {P : Params} {a : Nat} (b : Byte) (s : State) (h : a < P.inCap) :
    hostMove P (.writeIn a b) s = .next (s.writeIn a b) := if_pos h

/-- R350: a drawn result is `DONE` with no error or `ERROR` with one, and its length is within `OUT_CAP`. -/
theorem State.drawnResult_registers (P : Params) (s : State) :
    (((s.drawnResult P).status = 2 ∧ (s.drawnResult P).err = 0) ∨
      ((s.drawnResult P).status = 3 ∧ ∃ e : ErrKind, (s.drawnResult P).err = errWord e)) ∧
    (s.drawnResult P).outLen.toNat ≤ P.outCap := by
  have hlen : (BitVec.ofNat 64 (Config.freeLength s.draws % (P.outCap + 1))).toNat ≤ P.outCap :=
    (BitVec.toNat_ofNat _ _).trans_le ((Nat.mod_le _ _).trans (Nat.le_of_lt_succ (Nat.mod_lt _ (Nat.succ_pos _))))
  simp only [State.drawnResult]
  split
  · exact ⟨.inl ⟨rfl, rfl⟩, hlen⟩
  · next e _ => exact ⟨.inr ⟨rfl, e, rfl⟩, hlen⟩

/-- Settles O12: the write marks the input as disturbed, so the engine's turn gives a drawn result. -/
theorem disturbedOperationStillEnds : Obligations.DisturbedOperationStillEnds := by
  unfold Obligations.DisturbedOperationStillEnds
  intro s a b hb hcap ha
  have hwrite := State.writeIn_of_busy (s := { s with agenda := [.engine] }) a b hb
  have hstep : step s = .next ({ s with agenda := [.engine] }.writeIn a b) :=
    (step_of_agenda ha).trans (hostMove_writeIn b _ hcap)
  generalize { s with agenda := [Move.engine] }.writeIn a b = t at hwrite hstep
  have htb : t.isBusy = true := hwrite ▸ hb
  have htd : t.popped.disturbed = true := hwrite ▸ rfl
  have hturn : step t = .next (t.popped.drawnResult params) := by
    rw [step_of_engineTurn (by rw [hwrite]; rfl), engineMove, if_pos (show t.popped.isBusy = true from htb), if_pos htd]
  obtain ⟨hend, hlen⟩ := State.drawnResult_registers params t.popped
  exact ⟨t, _, hstep, htb, hturn, hend, hlen⟩

/-- The moves that write a byte string to `IN` from address `a` on, outside `BUSY` (R83). -/
theorem runMoves_writeInFrom (r : List Move) : ∀ (l : List Byte) {a : Nat} {s : State}, s.isBusy = false →
    a + l.length ≤ params.inCap →
    runMoves (writeInFrom a l ++ r) s = runMoves r { s with inMem := s.inMem.writeAll a l }
  | [], _, _, _, _ => rfl
  | b :: l, a, s, hb, hcap => by
    rw [List.length_cons] at hcap
    have hstep : moveStep (.host (.writeIn a b)) s = .next { s with inMem := s.inMem.write a b } :=
      (hostMove_writeIn b s (by omega)).trans (congrArg Host.Outcome.next (State.writeIn_of_not_busy a b hb))
    rw [writeInFrom, List.cons_append, runMoves, hstep]
    exact runMoves_writeInFrom r l (s := { s with inMem := s.inMem.write a b }) hb (by omega)

/-- The program line `IN <- <bytes>` outside `BUSY`, for bytes within `IN_CAP` (R83). -/
theorem runMoves_loadIn {l : List Byte} {s : State} (hb : s.isBusy = false) (hcap : l.length ≤ params.inCap) :
    runMoves (loadIn l) s = .next { s with inMem := s.inMem.writeAll 0 l, inLen := BitVec.ofNat 64 l.length } := by
  rw [loadIn, runMoves_writeInFrom _ l hb (by omega), runMoves]
  have hlen := State.writeInLen_of_not_busy (s := { s with inMem := s.inMem.writeAll 0 l }) (BitVec.ofNat 64 l.length) hb
  simp only [moveStep, hostMove, hlen]
  rfl

/-- Settles O13: the line writes the output from cell 0 on and its length to `IN_LEN`; one write is one cell. -/
theorem hostCopyMakesOutputTheInput : Obligations.HostCopyMakesOutputTheInput := by
  unfold Obligations.HostCopyMakesOutputTheInput
  refine ⟨fun s hb hcap => ?_, fun s a b rest ha hb hcap => ?_⟩
  · have hlen : BitVec.ofNat 64 s.outBytes.length = s.outLen := by simp
    have hrun := runMoves_loadIn hb (l := s.outBytes) (by rwa [State.outBytes_length])
    rw [hlen] at hrun
    refine ⟨_, hrun, ?_, rfl, fun a ha => ?_, rfl⟩
    · apply List.ext_getElem (by simp)
      intro i h1 h2
      have hi : i < s.outLen.toNat := by rwa [State.outBytes_length] at h2
      simp [State.inBytes, Mem.read_writeAll, hi]
    · rw [Mem.read_writeAll, if_neg (by rw [State.outBytes_length]; omega)]
  · have hwrite := State.writeIn_of_not_busy (s := { s with agenda := rest }) a b hb
    refine ⟨_, (step_of_agenda ha).trans (hostMove_writeIn b _ hcap), ?_⟩
    rw [hwrite]
    exact ⟨Mem.read_write_self .., fun c hc => Mem.read_write_ne _ _ hc, rfl⟩

/-! ### The engine's turn (R300, R301) -/

/-- Settles O9: at the engine's turn the step is the engine's move, which runs the latched operation. -/
theorem stepRunsLatchedOperation : Obligations.StepRunsLatchedOperation := by
  unfold Obligations.StepRunsLatchedOperation
  intro s i hb hd hop hturn
  have hpd : ¬ s.popped.disturbed = true := Bool.eq_false_iff.mp hd
  have hpop : decodeOp s.popped.op = some i := hop
  rw [step_of_engineTurn hturn, engineMove, if_pos (show s.popped.isBusy = true from hb), if_neg hpd, hpop]

/-- The decoder and the encoder agree on `OP` (R81). -/
theorem decodeOp_opCode (i : Instr) : decodeOp i.opCode = some i := (decodeOp_eq_some_iff i.opCode i).mpr rfl

/-- Settles O10: the command is latched, no move comes before the engine's turn, and the memories are left alone. -/
theorem fetchWordStepRunsIt : Obligations.FetchWordStepRunsIt := by
  unfold Obligations.FetchWordStepRunsIt
  intro s i nbits w h
  have hfetch : s.withFetchWord nbits w = { s.start i.opCode with agenda := [] } := by rw [State.withFetchWord, h]; rfl
  rw [hfetch]
  refine ⟨?_, rfl, rfl⟩
  exact stepRunsLatchedOperation _ i ((isBusy_iff _).mpr (State.start_stateField i.opCode s)) rfl (decodeOp_opCode i) rfl

end Sys2Proof.Machine
end

section
/-! PROOFS. Code trees and the code tables that their paths give: no code begins another one, and the codes are full. -/

namespace Sys2Proof.Machine

/-! ### A code table from paths (R136) -/

theorem tableOfPaths_concat (ps : List (Byte × Bits)) (e : Byte × Bits) :
    tableOfPaths (ps ++ [e]) = setCode (tableOfPaths ps) e.1 (forceCode e.2) := List.foldl_concat ..

/-- A symbol without a path has the empty code. -/
theorem codeOf_tableOfPaths_of_not_mem {ps : List (Byte × Bits)} {c : Byte} (h : c ∉ ps.map Prod.fst) :
    codeOf (tableOfPaths ps) c = [] := by
  induction ps using List.reverseRecOn with
  | nil => simp [tableOfPaths, codeOf]
  | append_singleton ps e ih =>
    rw [List.map_append, List.mem_append, not_or] at h
    have hne : c ≠ e.1 := by simpa using h.2
    rw [tableOfPaths_concat, codeOf_setCode, if_neg hne, ih h.1]

/-- A symbol with one path has the code that the path gives. -/
theorem codeOf_tableOfPaths_of_mem {ps : List (Byte × Bits)} (hnd : (ps.map Prod.fst).Nodup) {e : Byte × Bits} (he : e ∈ ps) :
    codeOf (tableOfPaths ps) e.1 = forceCode e.2 := by
  induction ps using List.reverseRecOn with
  | nil => exact absurd he List.not_mem_nil
  | append_singleton ps d ih =>
    rw [List.map_append, List.map_singleton, List.nodup_append] at hnd
    obtain ⟨hnd, -, hdisj⟩ := hnd
    rw [tableOfPaths_concat, codeOf_setCode]
    rcases List.mem_append.mp he with he | he
    · have hne : e.1 ≠ d.1 := hdisj _ (List.mem_map_of_mem he) _ (List.mem_singleton_self _)
      rw [if_neg hne, ih hnd he]
    · rw [List.mem_singleton.mp he, if_pos rfl]

theorem forceCode_ne_nil (p : Bits) : forceCode p ≠ [] := by
  unfold forceCode
  split
  · exact List.cons_ne_nil _ _
  · assumption

theorem forceCode_of_ne_nil {p : Bits} (h : p ≠ []) : forceCode p = p := if_neg h

/-! ### The paths of a tree (R136, R138) -/

namespace CodeTree

/-- The symbols of the leaves, from left to right. -/
def symbols : CodeTree → List Byte
  | .leaf s => [s]
  | .node l r => l.symbols ++ r.symbols

theorem symbols_length_pos : ∀ t : CodeTree, 1 ≤ t.symbols.length
  | .leaf _ => le_rfl
  | .node l r => by
    rw [symbols, List.length_append]
    exact l.symbols_length_pos.trans (Nat.le_add_right _ _)

theorem paths_map_fst : ∀ (t : CodeTree) (p : Bits), (t.paths p).map Prod.fst = t.symbols
  | .leaf _, _ => rfl
  | .node l r, p => by rw [paths, List.map_append, l.paths_map_fst, r.paths_map_fst, symbols]

/-- Every path goes on from where the tree stands. -/
theorem prefix_of_mem_paths : ∀ (t : CodeTree) {p : Bits}, ∀ e ∈ t.paths p, p <+: e.2
  | .leaf _, _, _, he => by rw [List.mem_singleton.mp he]
  | .node l r, p, e, he => by
    rcases List.mem_append.mp he with he | he
    · exact (List.prefix_append p [false]).trans (l.prefix_of_mem_paths e he)
    · exact (List.prefix_append p [true]).trans (r.prefix_of_mem_paths e he)

/-- Two sequences that differ at a bit have no common prolongation. -/
theorem not_prefix_of_branch {p a b : Bits} (ha : p ++ [false] <+: a) (hb : p ++ [true] <+: b) : ¬ a <+: b := fun hab => by
  have heq := List.prefix_of_prefix_length_le (ha.trans hab) hb (by simp)
  simp at heq

theorem not_prefix_of_branch' {p a b : Bits} (ha : p ++ [false] <+: a) (hb : p ++ [true] <+: b) : ¬ b <+: a := fun hba => by
  have heq := List.prefix_of_prefix_length_le (hb.trans hba) ha (by simp)
  simp at heq

/-- R138 (b): no path begins another one. -/
theorem prefixFree_paths : ∀ (t : CodeTree) (p : Bits), PrefixFree ((t.paths p).map Prod.snd)
  | .leaf _, _ => List.pairwise_singleton _ _
  | .node l r, p => by
    rw [PrefixFree, paths, List.map_append, List.pairwise_append]
    refine ⟨l.prefixFree_paths _, r.prefixFree_paths _, fun a ha b hb => ?_⟩
    obtain ⟨d, hd, rfl⟩ := List.mem_map.mp ha
    obtain ⟨e, he, rfl⟩ := List.mem_map.mp hb
    have hleft := l.prefix_of_mem_paths d hd
    have hright := r.prefix_of_mem_paths e he
    exact ⟨not_prefix_of_branch hleft hright, not_prefix_of_branch' hleft hright⟩

/-- R138 (c): the paths fill the tree. -/
theorem sum_paths : ∀ (t : CodeTree) (p : Bits),
    ((t.paths p).map fun e => (1 / 2 : ℚ) ^ e.2.length).sum = (1 / 2) ^ p.length
  | .leaf _, _ => by simp [paths]
  | .node l r, p => by
    rw [paths, List.map_append, List.sum_append, l.sum_paths, r.sum_paths, List.length_append, List.length_append]
    simp only [List.length_singleton, pow_succ]
    ring

/-- The codes that the paths of a tree give: the path of a single leaf is forced to `"0"` (R136, R137). -/
def codes (t : CodeTree) : List Bits := (t.paths []).map fun e => forceCode e.2

/-- The paths of an internal node are not empty. -/
theorem codes_node (l r : CodeTree) : (node l r).codes = ((node l r).paths []).map Prod.snd := by
  refine List.map_congr_left fun e he => forceCode_of_ne_nil fun hnil => ?_
  rcases List.mem_append.mp he with he | he
  · simpa [hnil] using l.prefix_of_mem_paths e he
  · simpa [hnil] using r.prefix_of_mem_paths e he

theorem prefixFree_codes (t : CodeTree) : PrefixFree t.codes := by
  cases t with
  | leaf s => exact List.pairwise_singleton _ _
  | node l r =>
    rw [codes_node]
    exact prefixFree_paths _ []

/-- Two or more leaves: the sum of R138 (c) is 1. -/
theorem sum_codes_of_two_le {t : CodeTree} (h : 2 ≤ t.symbols.length) :
    (t.codes.map fun c => (1 / 2 : ℚ) ^ c.length).sum = 1 := by
  cases t with
  | leaf s => exact absurd h (show ¬ 2 ≤ 1 by decide)
  | node l r =>
    rw [codes_node, List.map_map]
    exact (sum_paths _ []).trans (pow_zero _)

/-- One leaf: the sum is 1/2. -/
theorem sum_codes_of_one {t : CodeTree} (h : t.symbols.length = 1) :
    (t.codes.map fun c => (1 / 2 : ℚ) ^ c.length).sum = 1 / 2 := by
  cases t with
  | leaf s => simp [codes, paths, forceCode]
  | node l r =>
    have hl := l.symbols_length_pos
    have hr := r.symbols_length_pos
    rw [symbols, List.length_append] at h
    omega

end CodeTree

/-! ### The table of a tree for the symbols present -/

theorem PrefixFree.perm {cs ds : List Bits} (h : PrefixFree cs) (hp : cs.Perm ds) : PrefixFree ds :=
  hp.pairwise h fun hab => hab.symm

/-- A code table made of the paths of a tree whose leaves are the symbols present. -/
structure TreeTable (f : FreqTable) (t : CodeTable) (tree : CodeTree) : Prop where
  table : t = tableOfPaths (tree.paths [])
  symbols : tree.symbols.Perm (present f)

namespace TreeTable

variable {f : FreqTable} {t : CodeTable} {tree : CodeTree} (h : TreeTable f t tree)
include h

/-- R136: a symbol that is not present has the empty code. -/
theorem codeOf_absent {s : Byte} (hs : countOf f s = 0) : codeOf t s = [] := by
  rw [h.table]
  refine codeOf_tableOfPaths_of_not_mem ?_
  rw [tree.paths_map_fst, h.symbols.mem_iff, mem_present]
  exact not_not.mpr hs

/-- The code of a symbol on a path of the tree. -/
theorem codeOf_path {e : Byte × Bits} (he : e ∈ tree.paths []) : codeOf t e.1 = forceCode e.2 := by
  rw [h.table]
  refine codeOf_tableOfPaths_of_mem ?_ he
  rw [tree.paths_map_fst]
  exact h.symbols.nodup_iff.mpr (present_nodup f)

theorem exists_path {s : Byte} (hs : countOf f s ≠ 0) : ∃ p, (s, p) ∈ tree.paths [] := by
  rw [← mem_present, ← h.symbols.mem_iff, ← tree.paths_map_fst []] at hs
  obtain ⟨e, he, rfl⟩ := List.mem_map.mp hs
  exact ⟨e.2, he⟩

theorem codeOf_ne_nil {s : Byte} (hs : countOf f s ≠ 0) : codeOf t s ≠ [] := by
  obtain ⟨p, hp⟩ := h.exists_path hs
  rw [h.codeOf_path hp]
  exact forceCode_ne_nil p

/-- The codes of the symbols present are those of the tree, in another order. -/
theorem codesPresent_perm : (codesPresent f t).Perm tree.codes := by
  have hcodes : tree.symbols.map (codeOf t) = tree.codes := by
    rw [← tree.paths_map_fst [], List.map_map]
    exact List.map_congr_left fun e he => h.codeOf_path he
  rw [← hcodes]
  exact (h.symbols.map _).symm

theorem prefixFree : PrefixFree (codesPresent f t) := tree.prefixFree_codes.perm h.codesPresent_perm.symm

theorem sum_of_two_le (hn : 2 ≤ (present f).length) : ((codesPresent f t).map fun c => (1 / 2 : ℚ) ^ c.length).sum = 1 :=
  (h.codesPresent_perm.map _).sum_eq.trans (CodeTree.sum_codes_of_two_le (by rwa [h.symbols.length_eq]))

theorem sum_of_one (hn : (present f).length = 1) : ((codesPresent f t).map fun c => (1 / 2 : ℚ) ^ c.length).sum = 1 / 2 :=
  (h.codesPresent_perm.map _).sum_eq.trans (CodeTree.sum_codes_of_one (by rwa [h.symbols.length_eq]))

end TreeTable

end Sys2Proof.Machine
end

section
/-! PROOFS. The codes of the Shannon-Fano bisection: the work stack gives those of the recursion (O41), which are those of a code
tree (O42). -/

namespace Sys2Proof.Machine

/-! ### The work list (R193) -/

/-- The order of the counts in the work list (R193). -/
def Descending (l : List (Byte × Nat)) : Prop := l.Pairwise fun a b => b.2 ≤ a.2

theorem sfInsert_perm (a : Byte × Nat) : ∀ l, (sfInsert a l).Perm (a :: l)
  | [] => .refl _
  | b :: l => by
    unfold sfInsert
    split
    · exact .refl _
    · exact ((sfInsert_perm a l).cons b).trans (.swap a b l)

theorem le_of_sfBefore {a b : Byte × Nat} (h : sfBefore a b = true) : b.2 ≤ a.2 := by
  simp only [sfBefore, Bool.or_eq_true, decide_eq_true_eq, Bool.and_eq_true, beq_iff_eq] at h
  omega

theorem le_of_not_sfBefore {a b : Byte × Nat} (h : ¬ sfBefore a b = true) : a.2 ≤ b.2 := by
  simp only [sfBefore, Bool.or_eq_true, decide_eq_true_eq, Bool.and_eq_true, beq_iff_eq] at h
  omega

theorem Descending.sfInsert (a : Byte × Nat) : ∀ {l}, Descending l → Descending (sfInsert a l)
  | [], _ => List.pairwise_singleton _ _
  | b :: l, h => by
    obtain ⟨hb, hl⟩ := List.pairwise_cons.mp h
    unfold Machine.sfInsert
    split
    · next hab =>
      have hle := le_of_sfBefore hab
      exact List.pairwise_cons.mpr ⟨List.forall_mem_cons.mpr ⟨hle, fun c hc => (hb c hc).trans hle⟩, h⟩
    · next hab =>
      refine List.pairwise_cons.mpr ⟨fun c hc => ?_, Descending.sfInsert a hl⟩
      rcases List.mem_cons.mp ((sfInsert_perm a l).mem_iff.mp hc) with rfl | hc
      · exact le_of_not_sfBefore hab
      · exact hb c hc

/-- The work list has the symbols present with their counts, in descending order. -/
theorem sfSorted_spec (f : FreqTable) : Descending (sfSorted f) ∧ ((sfSorted f).map Prod.fst).Perm (present f) := by
  unfold sfSorted
  induction present f with
  | nil => exact ⟨List.Pairwise.nil, .refl _⟩
  | cons s l ih => exact ⟨ih.1.sfInsert _, ((sfInsert_perm _ _).map Prod.fst).trans (ih.2.cons s)⟩

theorem sfSorted_descending (f : FreqTable) : Descending (sfSorted f) := (sfSorted_spec f).1

theorem sfSorted_length (f : FreqTable) : (sfSorted f).length = (present f).length := by
  simpa using (sfSorted_spec f).2.length_eq

/-! ### The recursion (R194) -/

/-- How many elements of a sub-list go left (R194). -/
def sfCut (P : Params) (l : List (Byte × Nat)) : Nat := sfSplit (sfHalf P (l.map Prod.snd).sum) 0 (l.map Prod.snd)

/-- R197, R198: the split of a descending sub-list of two or more is proper. -/
theorem sfCut_proper (P : Params) {l : List (Byte × Nat)} (hlen : 2 ≤ l.length) (hdesc : Descending l) :
    1 ≤ sfCut P l ∧ sfCut P l ≤ l.length - 1 := by
  refine ⟨sfSplit_pos fun hnil => ?_, ?_⟩
  · rw [List.map_eq_nil_iff.mp hnil] at hlen
    exact absurd hlen (by decide)
  · have hreach := sum_le_two_mul_sum_dropLast (l := l.map Prod.snd) (by simpa using hlen) (List.pairwise_map.mpr hdesc)
    refine sfSplit_le_of_reach (by omega) ?_
    rw [Nat.zero_add, ← List.length_map (f := Prod.snd), ← List.dropLast_eq_take]
    exact sfHalf_le P hreach

theorem sfRecursion_cons_cons (P : Params) (fuel : Nat) (a b : Byte × Nat) (l : List (Byte × Nat)) (path : Bits) :
    sfRecursion P (fuel + 1) (a :: b :: l) path =
      sfRecursion P fuel ((a :: b :: l).take (sfCut P (a :: b :: l))) (path ++ [false]) ++
        sfRecursion P fuel ((a :: b :: l).drop (sfCut P (a :: b :: l))) (path ++ [true]) := rfl

/-- R195, R199: the recursion gives the paths of a tree whose leaves are the symbols of the sub-list. -/
theorem exists_tree_sfRecursion (P : Params) : ∀ (fuel : Nat) {l : List (Byte × Nat)}, l ≠ [] → l.length ≤ fuel →
    Descending l → ∃ tree : CodeTree, tree.symbols = l.map Prod.fst ∧ ∀ path, sfRecursion P fuel l path = tree.paths path
  | 0, l, hne, hlen, _ => absurd (List.length_eq_zero_iff.mp (Nat.le_zero.mp hlen)) hne
  | fuel + 1, [a], _, _, _ => ⟨.leaf a.1, rfl, fun _ => rfl⟩
  | fuel + 1, a :: b :: l, _, hlen, hdesc => by
    obtain ⟨hlo, hhi⟩ := sfCut_proper P (l := a :: b :: l) (by simp) hdesc
    simp only [sfRecursion_cons_cons]
    generalize a :: b :: l = sub, sfCut P (a :: b :: l) = k at *
    obtain ⟨left, hls, hlp⟩ := exists_tree_sfRecursion P fuel (l := sub.take k)
      (List.length_pos_iff.mp (by rw [List.length_take]; omega)) (by rw [List.length_take]; omega)
      (hdesc.sublist (List.take_sublist _ _))
    obtain ⟨right, hrs, hrp⟩ := exists_tree_sfRecursion P fuel (l := sub.drop k)
      (List.length_pos_iff.mp (by rw [List.length_drop]; omega)) (by rw [List.length_drop]; omega)
      (hdesc.sublist (List.drop_sublist _ _))
    refine ⟨.node left right, ?_, fun path => by rw [hlp, hrp]; rfl⟩
    rw [CodeTree.symbols, hls, hrs, ← List.map_append, List.take_append_drop]

/-- R199 (a): a path is shorter than its sub-list is long, counted from where the sub-list stands. -/
theorem sfRecursion_length_le (P : Params) : ∀ (fuel : Nat) {l : List (Byte × Nat)} {path : Bits}, Descending l →
    ∀ e ∈ sfRecursion P fuel l path, e.2.length + 1 ≤ path.length + l.length
  | 0, _, _, _ => fun e he => absurd he List.not_mem_nil
  | _ + 1, [], _, _ => fun e he => absurd he List.not_mem_nil
  | _ + 1, [a], path, _ => fun e he => by rw [List.mem_singleton.mp he]; exact le_rfl
  | fuel + 1, a :: b :: l, path, hdesc => fun e he => by
    obtain ⟨hlo, hhi⟩ := sfCut_proper P (l := a :: b :: l) (by simp) hdesc
    rw [sfRecursion_cons_cons] at he
    generalize a :: b :: l = sub, sfCut P (a :: b :: l) = k at *
    rcases List.mem_append.mp he with he | he
    · have hle := sfRecursion_length_le P fuel (hdesc.sublist (List.take_sublist _ _)) e he
      rw [List.length_append, List.length_singleton, List.length_take] at hle
      omega
    · have hle := sfRecursion_length_le P fuel (hdesc.sublist (List.drop_sublist _ _)) e he
      rw [List.length_append, List.length_singleton, List.length_drop] at hle
      omega

/-! ### The work stack (R35, R199 e) -/

/-- The code table with the codes of some paths filled in. -/
def fillCodes (t : CodeTable) (ps : List (Byte × Bits)) : CodeTable := ps.foldl (fun t p => setCode t p.1 (forceCode p.2)) t

theorem fillCodes_append (t : CodeTable) (ps qs : List (Byte × Bits)) :
    fillCodes t (ps ++ qs) = fillCodes (fillCodes t ps) qs := List.foldl_append ..

section

variable {P : Params} {w : Work} {lo hi : Nat} {path : Bits} {rest : List (Nat × Nat × Bits)}

/-- The working state with another work stack. -/
def Work.withStack (w : Work) (stack : List (Nat × Nat × Bits)) : Work := { w with sfStack := stack }

/-- The sub-list of symbols that an element of the work stack stands for. -/
def Work.sub (w : Work) (lo hi : Nat) : List (Byte × Nat) := (w.sfList.drop lo).take (hi - lo)

/-- A sub-list of one symbol gets its code (R195). -/
theorem sfAssignTop_one {a : Byte × Nat} (hsub : w.sub lo hi = [a]) :
    sfAssignTop P (w.withStack ((lo, hi, path) :: rest)) =
      { w with sfStack := rest, codes := setCode w.codes a.1 (forceCode path) } := by
  have hsub' : ((w.withStack ((lo, hi, path) :: rest)).sfList.drop lo).take (hi - lo) = [a] := hsub
  simp only [sfAssignTop, Work.withStack] at hsub' ⊢
  rw [hsub']

/-- A longer sub-list is split, and its two parts take its place (R194). -/
theorem sfAssignTop_split {a b : Byte × Nat} {l : List (Byte × Nat)} (hsub : w.sub lo hi = a :: b :: l) :
    sfAssignTop P (w.withStack ((lo, hi, path) :: rest)) =
      w.withStack ((lo, lo + sfCut P (w.sub lo hi), path ++ [false]) ::
        (lo + sfCut P (w.sub lo hi), hi, path ++ [true]) :: rest) := by
  have hsub' : ((w.withStack ((lo, hi, path) :: rest)).sfList.drop lo).take (hi - lo) = a :: b :: l := hsub
  rw [hsub]
  simp only [sfAssignTop, Work.withStack, sfCut] at hsub' ⊢
  rw [hsub']

theorem sfAssign_succ (fuel : Nat) (top : Nat × Nat × Bits) :
    sfAssign P (fuel + 1) (w.withStack (top :: rest)) = sfAssign P fuel (sfAssignTop P (w.withStack (top :: rest))) :=
  if_neg (List.cons_ne_nil _ _)

/-- The two parts of a split sub-list. -/
theorem Work.sub_take_drop {k : Nat} (hk : k ≤ hi - lo) :
    w.sub lo (lo + k) = (w.sub lo hi).take k ∧ w.sub (lo + k) hi = (w.sub lo hi).drop k := by
  unfold Work.sub
  rw [List.take_take, List.drop_take, List.drop_drop, Nat.add_sub_cancel_left, Nat.min_eq_left hk, Nat.sub_sub]
  exact ⟨rfl, rfl⟩

end

/-- A sub-list of `m` symbols on top of the stack takes `2m - 1` calls and gets the codes of the recursion (R194, R199 e). -/
theorem sfAssign_sub (P : Params) : ∀ (depth : Nat) {w : Work} {lo hi : Nat} {path : Bits} {rest : List (Nat × Nat × Bits)}
    (fuel : Nat), lo < hi → hi - lo ≤ depth → (w.sub lo hi).length = hi - lo → Descending (w.sub lo hi) →
    sfAssign P (fuel + (2 * (hi - lo) - 1)) (w.withStack ((lo, hi, path) :: rest)) =
      sfAssign P fuel { w with sfStack := rest, codes := fillCodes w.codes (sfRecursion P depth (w.sub lo hi) path) }
  | 0, _, _, _, _, _, _, hlt, hd, _, _ => by omega
  | depth + 1, w, lo, hi, path, rest, fuel, hlt, hd, hlen, hdesc => by
    rcases hsub : w.sub lo hi with _ | ⟨a, _ | ⟨b, l⟩⟩
    · rw [hsub, List.length_nil] at hlen
      omega
    · rw [hsub, List.length_singleton] at hlen
      rw [← hlen, sfAssign_succ, sfAssignTop_one hsub]
      rfl
    · have h2 : 2 ≤ (w.sub lo hi).length := by rw [hsub]; simp
      have hsplit := sfAssignTop_split (P := P) (path := path) (rest := rest) hsub
      have hrec := sfRecursion_cons_cons P depth a b l path
      obtain ⟨hlo, hhi⟩ := sfCut_proper P h2 hdesc
      rw [← hsub] at hrec ⊢
      generalize sfCut P (w.sub lo hi) = k at *
      obtain ⟨hleft, hright⟩ := Work.sub_take_drop (w := w) (lo := lo) (hi := hi) (k := k) (by omega)
      have hcalls : fuel + (2 * (hi - lo) - 1) = fuel + (2 * (hi - (lo + k)) - 1) + (2 * (lo + k - lo) - 1) + 1 := by omega
      have hlenl : (w.sub lo (lo + k)).length = lo + k - lo := by rw [hleft, List.length_take]; omega
      have hlenr : (w.sub (lo + k) hi).length = hi - (lo + k) := by rw [hright, List.length_drop]; omega
      rw [hrec, fillCodes_append, hcalls, sfAssign_succ, hsplit, ← hleft, ← hright,
        sfAssign_sub P depth _ (by omega) (by omega) hlenl (hleft ▸ hdesc.sublist (List.take_sublist _ _))]
      exact sfAssign_sub P depth
        (w := { w with codes := fillCodes w.codes (sfRecursion P depth (w.sub lo (lo + k)) (path ++ [false])) })
        fuel (by omega) (by omega) hlenr (hright ▸ hdesc.sublist (List.drop_sublist _ _))

/-- What the work stack holds at the start of the bisection: the whole work list, if it is not empty (R194). -/
def sfStackOf (l : List (Byte × Nat)) : List (Nat × Nat × Bits) := if l = [] then [] else [(0, l.length, [])]

/-- The bisection of a descending work list ends with an empty stack, and gives the codes of the recursion (R198, R199 e). -/
theorem sfAssign_whole (P : Params) {w : Work} (hstack : w.sfStack = sfStackOf w.sfList) (hdesc : Descending w.sfList) :
    sfAssign P (2 * w.sfList.length) w =
      { w with sfStack := [], codes := fillCodes w.codes (sfRecursion P w.sfList.length w.sfList []) } := by
  by_cases hnil : w.sfList = []
  · obtain ⟨⟩ := w
    simp only at hnil hstack
    subst hnil hstack
    rfl
  · have hsub : w.sub 0 w.sfList.length = w.sfList := by simp [Work.sub]
    have hpos := List.length_pos_iff.mpr hnil
    have hw : w = w.withStack [(0, w.sfList.length, [])] := by
      rw [← show sfStackOf w.sfList = [(0, w.sfList.length, [])] from if_neg hnil, ← hstack]
      rfl
    have hrun := sfAssign_sub P w.sfList.length (w := w) (path := []) (rest := []) 1 hpos le_rfl (by rw [hsub]; rfl)
      (by rwa [hsub])
    rw [← hw, hsub, show 1 + (2 * (w.sfList.length - 0) - 1) = 2 * w.sfList.length by omega] at hrun
    exact hrun

/-- Settles O41: the bisection starts from the whole work list, and its codes are filled in from left to right. -/
theorem sfStackMatchesRecursion : Obligations.SfStackMatchesRecursion := by
  unfold Obligations.SfStackMatchesRecursion
  intro P f
  exact congrArg Work.codes (sfAssign_whole P
    (w := { Work.init with sfList := sfSorted f, sfStack := sfStackOf (sfSorted f) }) rfl (sfSorted_descending f))

/-! ### The codes (R199) -/

/-- The code table of a non-empty frequency table is that of a tree. -/
theorem sfCodes_treeTable (P : Params) {f : FreqTable} (h : present f ≠ []) : ∃ tree, TreeTable f (sfCodes P f) tree := by
  obtain ⟨hdesc, hperm⟩ := sfSorted_spec f
  have hne : sfSorted f ≠ [] := by
    rw [← List.length_pos_iff, sfSorted_length]
    exact List.length_pos_iff.mpr h
  obtain ⟨tree, hsym, hpaths⟩ := exists_tree_sfRecursion P _ hne le_rfl hdesc
  exact ⟨tree, by rw [sfStackMatchesRecursion P f, hpaths], hsym ▸ hperm⟩

/-- R199 (a): no code is longer than 255 bits. -/
theorem sfCodes_length_le (P : Params) (f : FreqTable) (c : Byte) : (codeOf (sfCodes P f) c).length ≤ 255 := by
  have hn : (present f).length ≤ 256 := present_length_le f
  rw [sfStackMatchesRecursion P f]
  refine codeOf_tableOfPaths_length_le (by decide) (fun e he => ?_) c
  have hle := sfRecursion_length_le P _ (sfSorted_descending f) e he
  rw [List.length_nil, sfSorted_length] at hle
  omega

/-- Settles O42: the codes are those of a tree; with no symbol present there is none. -/
theorem sfCodesArePrefixFree : Obligations.SfCodesArePrefixFree := by
  unfold Obligations.SfCodesArePrefixFree
  intro P f
  by_cases hnil : present f = []
  · refine ⟨fun s hs => ?_, ?_, fun h2 => ?_⟩
    · rw [← mem_present, hnil] at hs
      exact absurd hs List.not_mem_nil
    · rw [codesPresent, hnil]
      exact List.Pairwise.nil
    · rw [hnil] at h2
      exact absurd h2 (by decide)
  · obtain ⟨tree, h⟩ := sfCodes_treeTable P hnil
    exact ⟨fun s hs => ⟨List.length_pos_iff.mpr (h.codeOf_ne_nil hs), sfCodes_length_le P f s⟩, h.prefixFree,
      h.sum_of_two_le⟩

end Sys2Proof.Machine
end

section
/-! PROOFS. The codes of the Huffman merge: the arena and the queue give the table of the merge of trees (O31). -/

namespace Sys2Proof.Machine

/-! ### The lightest trees of a forest (R133, R134) -/

/-- The priority key of a tree, in the lexicographic order (R133). -/
def treeKey (t : WeightedTree) : ℕ ×ₗ ℕ := toLex (t.1, t.2.1)

theorem keyLt_iff (a b : Nat × Nat) : keyLt a b = true ↔ toLex a < toLex b := by
  rw [Prod.Lex.toLex_lt_toLex]
  simp [keyLt]

theorem lighter_iff (a b : WeightedTree) : lighter a b = true ↔ treeKey a < treeKey b := keyLt_iff _ _

/-- `extractMin` takes a tree out than which none is lighter (R134). -/
theorem popLightest_spec : ∀ (l : List WeightedTree) (a : WeightedTree),
    ((popLightest a l).1 :: (popLightest a l).2).Perm (a :: l) ∧
      ∀ c ∈ (popLightest a l).2, treeKey (popLightest a l).1 ≤ treeKey c
  | [], a => ⟨.refl _, nofun⟩
  | b :: l, a => by
    unfold popLightest
    split
    · next hab =>
      obtain ⟨hperm, hmin⟩ := popLightest_spec l a
      have hle : treeKey (popLightest a l).1 ≤ treeKey a := by
        rcases List.mem_cons.mp (hperm.mem_iff.mpr List.mem_cons_self) with ha | ha
        · exact (congrArg treeKey ha).ge
        · exact hmin a ha
      exact ⟨((List.Perm.swap _ _ _).trans (hperm.cons b)).trans (.swap _ _ _),
        List.forall_mem_cons.mpr ⟨hle.trans ((lighter_iff a b).mp hab).le, hmin⟩⟩
    · next hab =>
      obtain ⟨hperm, hmin⟩ := popLightest_spec l b
      have hle : treeKey (popLightest b l).1 ≤ treeKey b := by
        rcases List.mem_cons.mp (hperm.mem_iff.mpr List.mem_cons_self) with hb | hb
        · exact (congrArg treeKey hb).ge
        · exact hmin b hb
      rw [lighter_iff, not_lt] at hab
      exact ⟨(List.Perm.swap _ _ _).trans (hperm.cons a), List.forall_mem_cons.mpr ⟨hle.trans hab, hmin⟩⟩

/-- The tree that a merge makes of two (R134, R135). -/
def joined (ord : Nat) (a b : WeightedTree) : WeightedTree := (a.1 + b.1, ord, .node a.2.2 b.2.2)

/-- `a` and `b` are two lightest trees of the forest, `a` not heavier than `b`, and `rest` are the others. -/
structure Lightest (l : List WeightedTree) (a b : WeightedTree) (rest : List WeightedTree) : Prop where
  perm : l.Perm (a :: b :: rest)
  first : ∀ c ∈ b :: rest, treeKey a ≤ treeKey c
  second : ∀ c ∈ rest, treeKey b ≤ treeKey c

/-- One turn of the merge replaces two lightest trees by one. -/
theorem exists_lightest {l : List WeightedTree} (h : 2 ≤ l.length) : ∃ a b rest, Lightest l a b rest ∧
    ∀ fuel ord, mergeForest (fuel + 1) ord l = mergeForest fuel (ord + 1) (joined ord a b :: rest) := by
  rcases l with _ | ⟨x, l⟩
  · exact absurd h (by decide)
  · obtain ⟨hperm, hmin⟩ := popLightest_spec l x
    rcases hp : (popLightest x l).2 with _ | ⟨y, l2⟩
    · rw [hp] at hperm
      have hlen := hperm.length_eq
      simp only [List.length_cons, List.length_nil] at hlen h
      omega
    · obtain ⟨hperm2, hmin2⟩ := popLightest_spec l2 y
      rw [hp] at hperm hmin
      have hrest := (hperm2.cons (popLightest x l).1).trans hperm
      refine ⟨_, _, _, ⟨hrest.symm, fun c hc => hmin c (hperm2.mem_iff.mp hc), hmin2⟩, fun fuel ord => ?_⟩
      simp only [mergeForest, hp]
      rfl

/-- The merge stops at a single tree. -/
theorem mergeForest_singleton (fuel ord : Nat) (t : WeightedTree) : mergeForest fuel ord [t] = [t] := by
  cases fuel <;> rfl

theorem mergeForest_nil (fuel ord : Nat) : mergeForest fuel ord [] = [] := by
  cases fuel <;> rfl

/-! ### The arena and the queue (R31, R32) -/

/-- Node `v` of the arena is the root of a tree (R31, R135). -/
inductive HoldsTree (nodes : List HuffNode) : Nat → CodeTree → Prop
  | leaf {v w o s} (h : nodes[v]? = some (.leaf w o s)) : HoldsTree nodes v (.leaf s)
  | node {v w o a b l r} (h : nodes[v]? = some (.inner w o a b)) (hl : HoldsTree nodes a l) (hr : HoldsTree nodes b r) :
      HoldsTree nodes v (.node l r)

/-- Node `v` of the arena stands for a tree of the forest: it has its key and is its root. -/
structure Stands (nodes : List HuffNode) (v : Nat) (t : WeightedTree) : Prop where
  key : huffKey nodes v = (t.1, t.2.1)
  tree : HoldsTree nodes v t.2.2

section

variable {nodes : List HuffNode} {v : Nat} {n : HuffNode}

theorem HoldsTree.lt {t : CodeTree} (h : HoldsTree nodes v t) : v < nodes.length := by
  cases h with
  | leaf h => exact (List.getElem?_eq_some_iff.mp h).1
  | node h => exact (List.getElem?_eq_some_iff.mp h).1

/-- A new node changes no tree. -/
theorem HoldsTree.append {t : CodeTree} (h : HoldsTree nodes v t) : HoldsTree (nodes ++ [n]) v t := by
  induction h with
  | leaf h => exact .leaf (by rwa [List.getElem?_append_left (List.getElem?_eq_some_iff.mp h).1])
  | node h _ _ ihl ihr => exact .node (by rwa [List.getElem?_append_left (List.getElem?_eq_some_iff.mp h).1]) ihl ihr

theorem Stands.append {t : WeightedTree} (h : Stands nodes v t) : Stands (nodes ++ [n]) v t where
  key := by rw [← h.key, huffKey, huffKey, List.getElem?_append_left h.tree.lt]
  tree := h.tree.append

/-- The new node of a merge stands for the joined tree. -/
theorem Stands.merge {a b : Nat} {ta tb : WeightedTree} (ha : Stands nodes a ta) (hb : Stands nodes b tb) :
    Stands (nodes ++ [.inner ((huffKey nodes a).1 + (huffKey nodes b).1) nodes.length a b]) nodes.length
      (joined nodes.length ta tb) where
  key := by
    rw [huffKey, List.getElem?_concat_length, ha.key, hb.key]
    rfl
  tree := .node List.getElem?_concat_length ha.tree.append hb.tree.append

/-- The walk over the arena finds the paths of the tree, when children stand before their parents (R136). -/
theorem HoldsTree.huffPaths {t : CodeTree} (h : HoldsTree nodes v t)
    (hdown : ∀ v w o a b : Nat, nodes[v]? = some (.inner w o a b) → a < v ∧ b < v) : ∀ {fuel : Nat} (p : Bits), v < fuel →
    huffPaths nodes fuel v p = t.paths p := by
  induction h with
  | leaf h =>
    intro fuel p hlt
    obtain ⟨fuel, rfl⟩ := Nat.exists_eq_add_of_lt hlt
    rw [Machine.huffPaths, h]
    rfl
  | node h _ _ ihl ihr =>
    intro fuel p hlt
    obtain ⟨ha, hb⟩ := hdown _ _ _ _ _ h
    obtain ⟨k, rfl⟩ : ∃ k, fuel = k + 1 := ⟨fuel - 1, by omega⟩
    rw [Machine.huffPaths, h]
    simp only [ihl (fuel := k) (p ++ [false]) (by omega), ihr (fuel := k) (p ++ [true]) (by omega)]
    rfl

end

/-- The queue holds the trees of a forest in ascending key order, all created before number `ord` (R32, R133). -/
structure Queued (nodes : List HuffNode) (ord : Nat) (q : List Nat) (l : List WeightedTree) : Prop where
  stands : List.Forall₂ (Stands nodes) q l
  sorted : l.Pairwise fun a b => treeKey a < treeKey b
  ord_lt : ∀ t ∈ l, t.2.1 < ord

theorem toLex_huffKey {nodes : List HuffNode} {v : Nat} {t : WeightedTree} (h : Stands nodes v t) :
    toLex (huffKey nodes v) = treeKey t := congrArg toLex h.key

/-- `Q.insert` puts a tree of a new key into its place (R134). -/
theorem enqueue_stands {nodes : List HuffNode} {k : Nat} {t : WeightedTree} (hk : Stands nodes k t) {q : List Nat}
    {l : List WeightedTree} (h : List.Forall₂ (Stands nodes) q l) : l.Pairwise (fun a b => treeKey a < treeKey b) →
    (∀ u ∈ l, treeKey u ≠ treeKey t) →
    ∃ l', l'.Perm (t :: l) ∧ List.Forall₂ (Stands nodes) (enqueue nodes k q) l' ∧
      l'.Pairwise fun a b => treeKey a < treeKey b := by
  induction h with
  | nil => exact fun _ _ => ⟨[t], .refl _, .cons hk .nil, List.pairwise_singleton _ _⟩
  | @cons j u q l hj hq ih =>
    intro hsort hnew
    obtain ⟨hu, hl⟩ := List.pairwise_cons.mp hsort
    obtain ⟨hnewu, hnewl⟩ := List.forall_mem_cons.mp hnew
    unfold enqueue
    split
    · next hlt =>
      rw [keyLt_iff, toLex_huffKey hk, toLex_huffKey hj] at hlt
      exact ⟨t :: u :: l, .refl _, .cons hk (.cons hj hq),
        List.pairwise_cons.mpr ⟨List.forall_mem_cons.mpr ⟨hlt, fun c hc => hlt.trans (hu c hc)⟩, hsort⟩⟩
    · next hge =>
      rw [keyLt_iff, toLex_huffKey hk, toLex_huffKey hj, not_lt] at hge
      obtain ⟨l', hperm, hstands, hsorted⟩ := ih hl hnewl
      refine ⟨u :: l', (hperm.cons u).trans (.swap _ _ _), .cons hj hstands,
        List.pairwise_cons.mpr ⟨fun c hc => ?_, hsorted⟩⟩
      rcases List.mem_cons.mp (hperm.mem_iff.mp hc) with rfl | hc
      · exact lt_of_le_of_ne hge hnewu
      · exact hu c hc

theorem Queued.enqueue {nodes : List HuffNode} {ord k : Nat} {q : List Nat} {l : List WeightedTree} {t : WeightedTree}
    (h : Queued nodes ord q l) (hk : Stands nodes k t) (hord : t.2.1 = ord) :
    ∃ l', l'.Perm (t :: l) ∧ Queued nodes (ord + 1) (enqueue nodes k q) l' := by
  have hnew : ∀ u ∈ l, treeKey u ≠ treeKey t := fun u hu heq => by
    have heq' : (u.1, u.2.1) = (t.1, t.2.1) := heq
    have hlt := h.ord_lt u hu
    rw [(Prod.mk.inj heq').2] at hlt
    omega
  obtain ⟨l', hperm, hstands, hsorted⟩ := enqueue_stands hk h.stands h.sorted hnew
  refine ⟨l', hperm, hstands, hsorted, fun u hu => ?_⟩
  rcases List.mem_cons.mp (hperm.mem_iff.mp hu) with rfl | hu
  · omega
  · exact Nat.lt_succ_of_lt (h.ord_lt u hu)

/-- The two lightest trees are those at the front of the queue. -/
theorem Lightest.eq_of_sorted {l rest rest' : List WeightedTree} {a b a' b' : WeightedTree} (h : Lightest l a b rest)
    (hperm : l.Perm (a' :: b' :: rest')) (hsort : (a' :: b' :: rest').Pairwise fun s t => treeKey s < treeKey t) :
    a = a' ∧ b = b' ∧ rest.Perm rest' := by
  obtain ⟨ha', hb'⟩ := List.pairwise_cons.mp hsort
  obtain ⟨hb', -⟩ := List.pairwise_cons.mp hb'
  have hall := h.perm.symm.trans hperm
  have ha : a = a' := by
    by_contra hne
    have hmem := (List.mem_cons.mp (hall.mem_iff.mp List.mem_cons_self)).resolve_left hne
    have hmem' := (List.mem_cons.mp (hall.mem_iff.mpr List.mem_cons_self)).resolve_left (Ne.symm hne)
    exact absurd (h.first a' hmem') (not_le.mpr (ha' a hmem))
  subst ha
  have hall := hall.cons_inv
  have hb : b = b' := by
    by_contra hne
    have hmem := (List.mem_cons.mp (hall.mem_iff.mp List.mem_cons_self)).resolve_left hne
    have hmem' := (List.mem_cons.mp (hall.mem_iff.mpr List.mem_cons_self)).resolve_left (Ne.symm hne)
    exact absurd (h.second b' hmem') (not_le.mpr (hb' b hmem))
  subst hb
  exact ⟨rfl, rfl, hall.cons_inv⟩

/-- The merge on the arena keeps pace with the merge of trees (R134). -/
theorem huffMerge_queued : ∀ (fuel : Nat) {nodes : List HuffNode} {ord : Nat} {q : List Nat} {l l' : List WeightedTree},
    Queued nodes ord q l → nodes.length = ord → l.Perm l' →
    ∃ l'', l''.Perm (mergeForest fuel ord l') ∧
      List.Forall₂ (Stands (huffMerge fuel nodes q).1) (huffMerge fuel nodes q).2 l''
  | 0, _, _, _, l, _, h, _, hperm => ⟨l, hperm, h.stands⟩
  | _ + 1, _, _, [], l, l', h, _, hperm => by
    obtain rfl := List.forall₂_nil_left_iff.mp h.stands
    rw [List.nil_perm.mp hperm, mergeForest_nil]
    exact ⟨[], .refl _, .nil⟩
  | _ + 1, _, _, [a], l, l', h, _, hperm => by
    obtain ⟨t, u, ht, hu, rfl⟩ := List.forall₂_cons_left_iff.mp h.stands
    obtain rfl := List.forall₂_nil_left_iff.mp hu
    obtain rfl := List.singleton_perm.mp hperm
    rw [mergeForest_singleton]
    exact ⟨[t], .refl _, .cons ht .nil⟩
  | fuel + 1, nodes, _, a :: b :: q, l, l', h, rfl, hperm => by
    obtain ⟨ta, u, hta, hu, rfl⟩ := List.forall₂_cons_left_iff.mp h.stands
    obtain ⟨tb, rest, htb, hrest, rfl⟩ := List.forall₂_cons_left_iff.mp hu
    obtain ⟨ta', tb', rest', hlight, hmerge⟩ := exists_lightest (l := l') (by rw [← hperm.length_eq]; simp)
    obtain ⟨rfl, rfl, hrest'⟩ := hlight.eq_of_sorted hperm.symm h.sorted
    have hq : Queued (nodes ++ [.inner ((huffKey nodes a).1 + (huffKey nodes b).1) nodes.length a b]) nodes.length q rest :=
      ⟨hrest.imp fun _ _ hs => hs.append, (h.sorted.tail).tail,
        fun t ht => h.ord_lt t (List.mem_cons_of_mem _ (List.mem_cons_of_mem _ ht))⟩
    obtain ⟨m, hm, hmq⟩ := hq.enqueue (hta.merge htb) rfl
    obtain ⟨l'', hl'', hstands⟩ := huffMerge_queued fuel hmq (by simp) (hm.trans (hrest'.symm.cons _))
    rw [← hmerge] at hl''
    exact ⟨l'', hl'', hstands⟩

/-! ### The leaves (R133) -/

theorem huffLeaves_getElem? (f : FreqTable) : ∀ (l : List Byte) (k i : Nat),
    (huffLeaves f k l)[i]? = l[i]?.map fun s => .leaf (countOf f s).toNat (k + i) s
  | [], _, _ => by simp [huffLeaves]
  | _ :: _, _, 0 => rfl
  | _ :: l, k, i + 1 => by
    rw [huffLeaves, List.getElem?_cons_succ, huffLeaves_getElem? f l, List.getElem?_cons_succ, Nat.add_assoc, Nat.add_comm 1]

@[simp] theorem leafForest_length (f : FreqTable) : (leafForest f).length = (present f).length := by simp [leafForest]

theorem leafForest_getElem? (f : FreqTable) (i : Nat) :
    (leafForest f)[i]? = (present f)[i]?.map fun s => ((countOf f s).toNat, i, .leaf s) := by
  simp [leafForest, List.getElem?_zipIdx, Function.comp_def]

theorem leaf_stands (f : FreqTable) {i : Nat} {t : WeightedTree} (h : (leafForest f)[i]? = some t) :
    Stands (huffLeaves f 0 (present f)) i t ∧ t.2.1 = i := by
  rw [leafForest_getElem?, Option.map_eq_some_iff] at h
  obtain ⟨s, hs, rfl⟩ := h
  have hget : (huffLeaves f 0 (present f))[i]? = some (.leaf (countOf f s).toNat i s) := by
    rw [huffLeaves_getElem?, hs, Nat.zero_add]
    rfl
  exact ⟨⟨by rw [huffKey, hget]; rfl, .leaf hget⟩, rfl⟩

/-- The queue after the insertion of the first leaves (R134). -/
theorem huffQueue_queued (f : FreqTable) : ∀ n ≤ (present f).length, ∃ l, l.Perm ((leafForest f).take n) ∧
    Queued (huffLeaves f 0 (present f)) n (huffQueue (huffLeaves f 0 (present f)) n) l
  | 0, _ => ⟨[], .refl _, .nil, List.Pairwise.nil, nofun⟩
  | n + 1, hn => by
    obtain ⟨l, hperm, hq⟩ := huffQueue_queued f n (by omega)
    have hlt : n < (leafForest f).length := by rwa [leafForest_length]
    obtain ⟨hstands, hord⟩ := leaf_stands f (List.getElem?_eq_getElem hlt)
    obtain ⟨l', hperm', hq'⟩ := hq.enqueue hstands hord
    have hlast : huffQueue (huffLeaves f 0 (present f)) (n + 1) =
        enqueue (huffLeaves f 0 (present f)) n (huffQueue (huffLeaves f 0 (present f)) n) := by
      simp [huffQueue, List.range_succ]
    rw [hlast, ← List.take_append_getElem hlt]
    exact ⟨l', hperm'.trans ((hperm.cons _).trans (List.perm_append_singleton _ _).symm), hq'⟩

/-- With a turn for each leaf but one the queue comes down to the root. -/
theorem huffMerge_length_le : ∀ (fuel : Nat) {nodes : List HuffNode} {q : List Nat}, q.length ≤ fuel + 1 →
    (huffMerge fuel nodes q).2.length ≤ 1
  | 0, _, _, h => h
  | _ + 1, _, [], _ => Nat.zero_le 1
  | _ + 1, _, [_], _ => le_rfl
  | fuel + 1, nodes, a :: b :: q, h => by
    refine huffMerge_length_le fuel ?_
    rw [(enqueue_perm _ _ _).length_eq]
    simp only [List.length_cons] at h ⊢
    omega

/-- The arena and the queue at the end of the phase `BUILD`: at most one root is queued, and it stands for the tree that is left. -/
theorem huffBuild_stands (f : FreqTable) : ∃ l, mergeForest (present f).length (present f).length (leafForest f) = l ∧
    l.length ≤ 1 ∧ List.Forall₂ (Stands (huffBuild f).1) (huffBuild f).2 l := by
  obtain ⟨l, hperm, hq⟩ := huffQueue_queued f (present f).length le_rfl
  have hlen := huffLeaves_length f 0 (present f)
  rw [List.take_of_length_le (leafForest_length f).le] at hperm
  obtain ⟨l', hperm', hstands⟩ := huffMerge_queued (present f).length hq hlen hperm
  have hone := huffMerge_length_le (present f).length (nodes := huffLeaves f 0 (present f))
    (q := huffQueue (huffLeaves f 0 (present f)) (present f).length)
    (by rw [(huffQueue_perm _ _).length_eq, List.length_range]; exact Nat.le_succ _)
  rw [hstands.length_eq] at hone
  refine ⟨l', ?_, hone, by simp only [huffBuild, hlen]; exact hstands⟩
  rcases l' with _ | ⟨t, _ | ⟨u, l'⟩⟩
  · exact List.nil_perm.mp hperm'
  · exact (List.singleton_perm.mp hperm').symm
  · exact absurd hone (by simp)

/-- Settles O31: the root that is left stands for the tree that is left, and the walk finds its paths. -/
theorem huffArenaMatchesTrees : Obligations.HuffArenaMatchesTrees := by
  unfold Obligations.HuffArenaMatchesTrees
  intro f
  obtain ⟨l, hmerge, hone, hstands⟩ := huffBuild_stands f
  have hstate := huffBuild_mergeState f
  have hdown : ∀ v w o a b : Nat, (huffBuild f).1[v]? = some (.inner w o a b) → a < v ∧ b < v := fun v w o a b h =>
    (hstate.inner v w o a b h).2
  unfold huffCodes treeCodes
  rw [hmerge]
  generalize huffBuild f = b at *
  obtain ⟨nodes, q⟩ := b
  rcases l with _ | ⟨t, _ | ⟨u, l⟩⟩
  · obtain rfl := List.forall₂_nil_right_iff.mp hstands
    rfl
  · obtain ⟨root, r, hroot, hr, rfl⟩ := List.forall₂_cons_right_iff.mp hstands
    obtain rfl := List.forall₂_nil_right_iff.mp hr
    exact congrArg tableOfPaths (hroot.tree.huffPaths hdown [] hroot.tree.lt)
  · exact absurd hone (by simp)

end Sys2Proof.Machine
end

section
/-! PROOFS. What the tree that the Huffman merge leaves says about the codes: none begins another one and they are full
(O30), and a longer one is only for a less frequent symbol (O32). Along the merge each tree of the forest keeps its place in
the tree that is left at the end, and heavier trees have no deeper places. -/

namespace Sys2Proof.Machine

/-! ### The places of the trees of a forest -/

/-- Where the trees of a forest end up in the tree that the merge leaves: `pos o` is the path to the tree of number `o`. A heavier
tree is not deeper; and a tree that is not heavier than any two others together is at most one edge above any other. -/
structure Places (l : List WeightedTree) (tree : CodeTree) (pos : Nat → Bits) : Prop where
  paths : (tree.paths []).Perm (l.flatMap fun t => t.2.2.paths (pos t.2.1))
  heavier : ∀ t ∈ l, ∀ u ∈ l, treeKey t < treeKey u → (pos u.2.1).length ≤ (pos t.2.1).length
  close : ∀ t ∈ l, (∀ u ∈ l, ∀ v ∈ l, u.2.1 ≠ v.2.1 → t.1 ≤ u.1 + v.1) →
    ∀ u ∈ l, (pos u.2.1).length ≤ (pos t.2.1).length + 1

theorem places_singleton (t : WeightedTree) : Places [t] t.2.2 fun _ => [] where
  paths := by simp
  heavier _ _ _ _ _ := le_rfl
  close _ _ _ _ _ := Nat.zero_le _

/-- The places before the trees numbered `a` and `b` are joined to the tree of number `ord`. -/
def splitPlace (pos : Nat → Bits) (ord a b : Nat) : Nat → Bits := fun o =>
  if o = a then pos ord ++ [false] else if o = b then pos ord ++ [true] else pos o

theorem Places.perm {l l' : List WeightedTree} {tree : CodeTree} {pos : Nat → Bits} (h : Places l tree pos) (hp : l.Perm l') :
    Places l' tree pos where
  paths := h.paths.trans (hp.flatMap_right _)
  heavier t ht u hu := h.heavier t (hp.mem_iff.mpr ht) u (hp.mem_iff.mpr hu)
  close t ht hsum u hu :=
    h.close t (hp.mem_iff.mpr ht) (fun v hv w hw => hsum v (hp.mem_iff.mp hv) w (hp.mem_iff.mp hw)) u (hp.mem_iff.mpr hu)

section

variable {a b : WeightedTree} {rest : List WeightedTree} {ord : Nat} {tree : CodeTree} {pos : Nat → Bits}

/-- The frequencies of two trees compare as their keys do. -/
theorem freq_le_of_treeKey_le {t u : WeightedTree} (h : treeKey t ≤ treeKey u) : t.1 ≤ u.1 := by
  rcases Prod.Lex.toLex_le_toLex.mp h with hlt | ⟨heq, -⟩
  · exact hlt.le
  · exact heq.le

/-- Before two lightest trees were joined their places were below that of the joined tree, and the others the same. -/
theorem Places.split (h : Places (joined ord a b :: rest) tree pos) (hnd : ((a :: b :: rest).map fun t => t.2.1).Nodup)
    (hlt : ∀ t ∈ a :: b :: rest, t.2.1 < ord) (hab : treeKey a ≤ treeKey b) (hb : ∀ t ∈ rest, treeKey b ≤ treeKey t) :
    Places (a :: b :: rest) tree (splitPlace pos ord a.2.1 b.2.1) := by
  simp only [List.map_cons, List.nodup_cons, List.mem_cons, List.mem_map, not_or, not_exists, not_and] at hnd
  obtain ⟨⟨hne, hna⟩, hnb, -⟩ := hnd
  have hpa : splitPlace pos ord a.2.1 b.2.1 a.2.1 = pos ord ++ [false] := if_pos rfl
  have hpb : splitPlace pos ord a.2.1 b.2.1 b.2.1 = pos ord ++ [true] := by
    rw [splitPlace, if_neg (Ne.symm hne), if_pos rfl]
  have hprest : ∀ t ∈ rest, splitPlace pos ord a.2.1 b.2.1 t.2.1 = pos t.2.1 := fun t ht => by
    rw [splitPlace, if_neg (hna t ht), if_neg (hnb t ht)]
  -- no tree is more than one edge below the place of the joined tree
  have hbelow : ∀ t ∈ rest, (pos t.2.1).length ≤ (pos ord).length + 1 := fun t ht => by
    refine h.close (joined ord a b) List.mem_cons_self (fun u hu v hv huv => ?_) t (List.mem_cons_of_mem _ ht)
    have hweight : ∀ u ∈ rest, a.1 ≤ u.1 ∧ b.1 ≤ u.1 := fun u hu =>
      ⟨freq_le_of_treeKey_le (hab.trans (hb u hu)), freq_le_of_treeKey_le (hb u hu)⟩
    show a.1 + b.1 ≤ u.1 + v.1
    rcases List.mem_cons.mp hu with rfl | hu
    · exact Nat.le_add_right (a.1 + b.1) v.1
    · rcases List.mem_cons.mp hv with rfl | hv
      · exact Nat.le_add_left (a.1 + b.1) u.1
      · exact Nat.add_le_add (hweight u hu).1 (hweight v hv).2
  -- a tree that is not heavier than the joined one is not above it
  have habove : ∀ t ∈ rest, t.1 ≤ a.1 + b.1 → (pos ord).length ≤ (pos t.2.1).length := fun t ht hle => by
    refine h.heavier t (List.mem_cons_of_mem _ ht) (joined ord a b) List.mem_cons_self (Prod.Lex.toLex_lt_toLex.mpr ?_)
    have hord := hlt t (List.mem_cons_of_mem _ (List.mem_cons_of_mem _ ht))
    rcases hle.lt_or_eq with hlt' | heq
    · exact .inl hlt'
    · exact .inr ⟨heq, hord⟩
  refine ⟨?_, fun t ht u hu hkey => ?_, fun t ht hsum u hu => ?_⟩
  · have hrest : (rest.flatMap fun t => t.2.2.paths (splitPlace pos ord a.2.1 b.2.1 t.2.1)) =
        rest.flatMap fun t => t.2.2.paths (pos t.2.1) := List.flatMap_congr fun t ht => by rw [hprest t ht]
    have hpaths := h.paths
    rw [List.flatMap_cons] at hpaths
    rw [List.flatMap_cons, List.flatMap_cons, hpa, hpb, hrest, ← List.append_assoc]
    exact hpaths
  · simp only [List.mem_cons] at ht hu
    rcases hu with rfl | rfl | hu
    · rcases ht with rfl | rfl | ht
      · exact le_rfl
      · exact absurd hkey (not_lt.mpr hab)
      · exact absurd hkey (not_lt.mpr (hab.trans (hb t ht)))
    · rcases ht with rfl | rfl | ht
      · rw [hpa, hpb, List.length_append, List.length_append]
        exact le_rfl
      · exact le_rfl
      · exact absurd hkey (not_lt.mpr (hb t ht))
    · rw [hprest u hu]
      rcases ht with rfl | rfl | ht
      · rw [hpa, List.length_append]
        exact hbelow u hu
      · rw [hpb, List.length_append]
        exact hbelow u hu
      · rw [hprest t ht]
        exact h.heavier t (List.mem_cons_of_mem _ ht) u (List.mem_cons_of_mem _ hu) hkey
  · have hu' : (splitPlace pos ord a.2.1 b.2.1 u.2.1).length ≤ (pos ord).length + 1 := by
      simp only [List.mem_cons] at hu
      rcases hu with rfl | rfl | hu
      · rw [hpa, List.length_append]; rfl
      · rw [hpb, List.length_append]; rfl
      · rw [hprest u hu]
        exact hbelow u hu
    have ht' : (pos ord).length ≤ (splitPlace pos ord a.2.1 b.2.1 t.2.1).length := by
      have hle := hsum a List.mem_cons_self b (List.mem_cons_of_mem _ List.mem_cons_self) hne
      simp only [List.mem_cons] at ht
      rcases ht with rfl | rfl | ht
      · rw [hpa, List.length_append]; exact Nat.le_add_right _ _
      · rw [hpb, List.length_append]; exact Nat.le_add_right _ _
      · rw [hprest t ht]
        exact habove t ht hle
    omega

end

/-- The merge leaves one tree, in which every tree of the forest has its place. -/
theorem mergeForest_places : ∀ (fuel : Nat) {ord : Nat} {l : List WeightedTree}, l ≠ [] → l.length ≤ fuel + 1 →
    (l.map fun t => t.2.1).Nodup → (∀ t ∈ l, t.2.1 < ord) →
    ∃ t pos, mergeForest fuel ord l = [t] ∧ Places l t.2.2 pos
  | fuel, ord, [t], _, _, _, _ => ⟨t, _, mergeForest_singleton fuel ord t, places_singleton t⟩
  | 0, _, _ :: _ :: _, _, hlen, _, _ => absurd hlen (by simp)
  | fuel + 1, ord, t :: u :: l, _, hlen, hnd, hlt => by
    obtain ⟨a, b, rest, hlight, hmerge⟩ := exists_lightest (l := t :: u :: l) (by simp)
    have hperm := hlight.perm
    have hlen' := hperm.length_eq
    have hlt' : ∀ t ∈ a :: b :: rest, t.2.1 < ord := fun t ht => hlt t (hperm.mem_iff.mpr ht)
    have hnd' := (hperm.map fun t : WeightedTree => t.2.1).nodup_iff.mp hnd
    have hnew : ((joined ord a b :: rest).map fun t => t.2.1).Nodup := by
      refine List.nodup_cons.mpr ⟨fun hmem => ?_, (List.nodup_cons.mp (List.nodup_cons.mp hnd').2).2⟩
      obtain ⟨t, ht, heq⟩ := List.mem_map.mp hmem
      exact absurd heq (hlt' t (List.mem_cons_of_mem _ (List.mem_cons_of_mem _ ht))).ne
    obtain ⟨r, pos, hr, hplaces⟩ := mergeForest_places fuel (ord := ord + 1) (l := joined ord a b :: rest) (by simp)
      (by simp only [List.length_cons] at hlen hlen' ⊢; omega) hnew
      (List.forall_mem_cons.mpr ⟨Nat.lt_succ_self ord, fun t ht =>
        Nat.lt_succ_of_lt (hlt' t (List.mem_cons_of_mem _ (List.mem_cons_of_mem _ ht)))⟩)
    exact ⟨r, _, (hmerge fuel ord).trans hr,
      (hplaces.split hnd' hlt' (hlight.first b List.mem_cons_self) hlight.second).perm hperm.symm⟩

/-! ### The codes (R136 to R138) -/

/-- The code table of a non-empty frequency table is that of a tree with a place for every leaf. -/
theorem huffCodes_places {f : FreqTable} (h : present f ≠ []) :
    ∃ tree pos, huffCodes f = tableOfPaths (tree.paths []) ∧ Places (leafForest f) tree pos := by
  have hne : leafForest f ≠ [] := by
    rw [← List.length_pos_iff, leafForest_length]
    exact List.length_pos_iff.mpr h
  have hord : (leafForest f).map (fun t => t.2.1) = List.range (present f).length := by
    apply List.ext_getElem?
    intro i
    rw [List.getElem?_map, leafForest_getElem?, Option.map_map]
    by_cases hi : i < (present f).length
    · simp [hi]
    · simp [hi]
  have hlt : ∀ t ∈ leafForest f, t.2.1 < (present f).length := fun t ht => by
    have hmem := List.mem_map_of_mem (f := fun t : WeightedTree => t.2.1) ht
    rwa [hord, List.mem_range] at hmem
  obtain ⟨t, pos, hmerge, hplaces⟩ := mergeForest_places (present f).length hne (by simp) (hord ▸ List.nodup_range) hlt
  refine ⟨t.2.2, pos, ?_, hplaces⟩
  rw [huffArenaMatchesTrees f, treeCodes, hmerge]

theorem leafForest_map_sym (f : FreqTable) (pos : Nat → Bits) :
    ((leafForest f).flatMap fun t => t.2.2.paths (pos t.2.1)).map Prod.fst = present f := by
  rw [leafForest, List.flatMap_map, List.map_flatMap]
  simp [CodeTree.paths, ← List.map_eq_flatMap]

/-- The leaves of that tree are the symbols present. -/
theorem Places.treeTable {f : FreqTable} {tree : CodeTree} {pos : Nat → Bits} (h : Places (leafForest f) tree pos)
    (ht : huffCodes f = tableOfPaths (tree.paths [])) : TreeTable f (huffCodes f) tree where
  table := ht
  symbols := by
    have hsym := h.paths.map Prod.fst
    rwa [tree.paths_map_fst, leafForest_map_sym] at hsym

theorem huffCodes_treeTable {f : FreqTable} (h : present f ≠ []) : ∃ tree, TreeTable f (huffCodes f) tree := by
  obtain ⟨tree, pos, ht, hplaces⟩ := huffCodes_places h
  exact ⟨tree, hplaces.treeTable ht⟩

/-- With no symbol present there is no code (R136). -/
theorem huffCodes_of_no_symbol {f : FreqTable} (h : present f = []) (s : Byte) : codeOf (huffCodes f) s = [] := by
  rw [huffArenaMatchesTrees f, treeCodes, leafForest, h]
  exact codeOf_tableOfPaths_of_not_mem List.not_mem_nil

/-- Settles O30: the codes are those of a tree; with no symbol present there is none. -/
theorem huffCodesAreFullPrefixCode : Obligations.HuffCodesAreFullPrefixCode := by
  unfold Obligations.HuffCodesAreFullPrefixCode
  intro f
  by_cases hnil : present f = []
  · refine ⟨fun s _ => huffCodes_of_no_symbol hnil s, fun s hs => ?_, ?_, fun h2 => ?_, fun h1 => ?_⟩
    · rw [← mem_present, hnil] at hs
      exact absurd hs List.not_mem_nil
    · rw [codesPresent, hnil]
      exact List.Pairwise.nil
    · rw [hnil] at h2
      exact absurd h2 (by decide)
    · rw [hnil] at h1
      exact absurd h1 (by decide)
  · obtain ⟨tree, h⟩ := huffCodes_treeTable hnil
    exact ⟨fun s => h.codeOf_absent, fun s hs => ⟨List.length_pos_iff.mpr (h.codeOf_ne_nil hs), huffCodes_length_le f s⟩,
      h.prefixFree, h.sum_of_two_le, h.sum_of_one⟩

/-! ### Frequent symbols (R138 e) -/

/-- A symbol present has a leaf in the forest. -/
theorem exists_leaf {f : FreqTable} {s : Byte} (h : countOf f s ≠ 0) :
    ∃ i, ((countOf f s).toNat, i, .leaf s) ∈ leafForest f := by
  obtain ⟨i, hi⟩ := List.mem_iff_getElem?.mp ((mem_present f s).mpr h)
  exact ⟨i, List.mem_of_getElem? (i := i) (by rw [leafForest_getElem?, hi]; rfl)⟩

/-- The code of a symbol is the place of its leaf. -/
theorem Places.codeOf_leaf {f : FreqTable} {tree : CodeTree} {pos : Nat → Bits} (h : Places (leafForest f) tree pos)
    (ht : huffCodes f = tableOfPaths (tree.paths [])) {s : Byte} {i w : Nat} (hs : (w, i, .leaf s) ∈ leafForest f) :
    codeOf (huffCodes f) s = forceCode (pos i) :=
  (h.treeTable ht).codeOf_path (e := (s, pos i))
    (h.paths.mem_iff.mpr (List.mem_flatMap.mpr ⟨_, hs, List.mem_singleton_self _⟩))

theorem forceCode_length_mono {p q : Bits} (h : p.length ≤ q.length) : (forceCode p).length ≤ (forceCode q).length :=
  forceCode_length_le (List.length_pos_iff.mpr (forceCode_ne_nil q)) (h.trans (by
    unfold forceCode
    split
    · next hq => rw [hq]; exact Nat.zero_le _
    · exact le_rfl))

/-- Settles O32: the leaf of the more frequent symbol is the heavier one. -/
theorem huffFrequentSymbolsAreNotLonger : Obligations.HuffFrequentSymbolsAreNotLonger := by
  unfold Obligations.HuffFrequentSymbolsAreNotLonger
  intro f s t ht hlt
  have hs : countOf f s ≠ 0 := fun h0 => by simp [h0] at hlt
  have hne : present f ≠ [] := List.ne_nil_of_mem ((mem_present f s).mpr hs)
  obtain ⟨tree, pos, htable, hplaces⟩ := huffCodes_places hne
  obtain ⟨i, hi⟩ := exists_leaf hs
  obtain ⟨j, hj⟩ := exists_leaf ht
  rw [hplaces.codeOf_leaf htable hi, hplaces.codeOf_leaf htable hj]
  exact forceCode_length_mono (hplaces.heavier _ hj _ hi (Prod.Lex.toLex_lt_toLex.mpr (.inl hlt)))

/-! ### A single symbol (R137, R145 b) -/

theorem present_replicate {c : Byte} {n : Nat} (hpos : 1 ≤ n) (hlt : n < 2 ^ cntW) :
    present (histogram (List.replicate n c)) = [c] := by
  have hmem : ∀ b, b ∈ present (histogram (List.replicate n c)) ↔ b = c := fun b => by
    rw [mem_present_histogram (by rwa [List.length_replicate]), List.mem_replicate]
    exact and_iff_right (by omega)
  exact List.perm_singleton.mp ((List.perm_ext_iff_of_nodup (present_nodup _) (List.nodup_singleton c)).mpr
    fun b => by rw [hmem, List.mem_singleton])

/-- R137: the only symbol present has the code `"0"`. -/
theorem huffCodes_of_one_symbol {f : FreqTable} {c : Byte} (h : present f = [c]) : codeOf (huffCodes f) c = [false] := by
  obtain ⟨tree, htree⟩ := huffCodes_treeTable (f := f) (by rw [h]; exact List.cons_ne_nil c [])
  have hsym : tree.symbols = [c] := List.perm_singleton.mp (h ▸ htree.symbols)
  have hone := htree.codesPresent_perm
  cases tree with
  | leaf s =>
    rw [codesPresent, h] at hone
    exact List.head_eq_of_cons_eq (List.singleton_perm.mp hone)
  | node l r =>
    have hlen := congrArg List.length hsym
    have hl := l.symbols_length_pos
    have hr := r.symbols_length_pos
    rw [CodeTree.symbols, List.length_append, List.length_singleton] at hlen
    omega

theorem pack_replicate_false (n : Nat) : pack (List.replicate n false) = List.replicate (ceil8 n) 0 := by
  have hbyte : ∀ j, packByte (List.replicate n false) j = 0 := fun j => by
    apply BitVec.eq_of_getMsbD_eq
    intro i hi
    rw [getMsbD_packByte _ _ hi, List.getElem?_replicate]
    split <;> simp
  rw [pack, List.length_replicate, funext hbyte, List.map_const', List.length_range]

theorem payloadBits_replicate {t : CodeTable} {c : Byte} (h : codeOf t c = [false]) (n : Nat) :
    payloadBits t (List.replicate n c) = List.replicate n false := by
  rw [payloadBits, List.flatMap_replicate, h]
  simp

/-- R145 (b): the container of `n` copies of one byte. -/
theorem huffContainer_replicate {c : Byte} {n : Nat} (hpos : 1 ≤ n) (hlt : n < 2 ^ cntW) :
    huffContainer (List.replicate n c) = bigEndian 8 n ++ [0, 0, 0, 1, c, 1, 0] ++ List.replicate (ceil8 n) 0 := by
  have hpresent := present_replicate (c := c) hpos hlt
  have hcode := huffCodes_of_one_symbol hpresent
  have hcount : bigEndian 4 1 = [0, 0, 0, 1] := by decide
  have hpack : pack [false] = [0] := pack_replicate_false 1
  rw [huffContainer, List.length_replicate, huffTableBytes, hpresent, payloadBits_replicate hcode, pack_replicate_false]
  simp only [List.flatMap_singleton, hcode, List.length_singleton, hcount, hpack, List.append_assoc]
  rfl

end Sys2Proof.Machine
end

section
/-! PROOFS. The runs of `FREQ.COUNT` and of the encoders: their frame (O16), `FREQ` (O17, O26), the fields of a container (O23), the
containers that they write (O28, O33, O40, O50), and outputs that do not fit (O22). -/

namespace Sys2Proof.Machine

/-- Settles O23: the bytes of `BE(n, v)` add up to `v`. -/
theorem fieldReadsBack : Obligations.FieldReadsBack := by
  unfold Obligations.FieldReadsBack
  exact fun m a n v => memRead_of_bigEndian

/-! ### The frame (R24, R120, R304) -/

theorem SameOutside.lastPhase {s u : State} (h : SameOutside s u) (i : Instr) :
    (lastPhase i u).inMem = s.inMem ∧ (lastPhase i u).inLen = s.inLen ∧ (lastPhase i u).op = s.op ∧
      (lastPhase i u).hostData = s.hostData ∧ (lastPhase i u).agenda = s.agenda ∧ (lastPhase i u).disturbed = s.disturbed := by
  cases i <;> exact ⟨h.inMem, h.inLen, h.op, h.hostData, h.agenda, h.disturbed⟩

theorem SameOutside.raiseError {s u : State} (h : SameOutside s u) (e : ErrKind) :
    (u.raiseError e).inMem = s.inMem ∧ (u.raiseError e).inLen = s.inLen ∧ (u.raiseError e).op = s.op ∧
      (u.raiseError e).hostData = s.hostData ∧ (u.raiseError e).agenda = s.agenda ∧
      (u.raiseError e).disturbed = s.disturbed := by
  simp [h.inMem, h.inLen, h.op, h.hostData, h.agenda, h.disturbed]

/-- No phase of `FREQ.COUNT` touches `OUT` (R120). -/
theorem freqCount_carries_outMem (P : Params) (m : Mem) : Carries (fun u => u.outMem = m) [.range] (freqCount P) :=
  have hkeep : ∀ f : State → State, (∀ u, (f u).outMem = u.outMem) →
      Carries (fun u => u.outMem = m) [.range] (change f) := fun f hf => Carries.change fun u hu => (hf u).trans hu
  (hkeep State.begun fun _ => rfl).bind fun _ => (Carries.checkRange P (by decide)).bind fun _ =>
    (hkeep (State.setPhase .clear) fun _ => rfl).bind fun _ => (hkeep _ fun _ => rfl).bind fun _ =>
    (hkeep (State.setPhase .count) fun _ => rfl).bind fun _ => hkeep State.counted fun _ => rfl

/-- Settles O16: no phase touches anything but `FREQ`, `OUT` and the working state, and no end touches the input. -/
theorem operationsKeepTheirInput : Obligations.OperationsKeepTheirInput := by
  unfold Obligations.OperationsKeepTheirInput
  refine ⟨fun i s t h => ?_, fun P s u h a => ?_⟩
  · have hcarry := phases_carries (sameOutside_outside s) params i
    suffices hframe : t.inMem = s.inMem ∧ t.inLen = s.inLen ∧ t.op = s.op ∧ t.hostData = s.hostData ∧
        t.agenda = s.agenda ∧ t.disturbed = s.disturbed from ⟨fun a => by rw [hframe.1], hframe⟩
    rw [exec_eq] at h
    obtain ⟨u, hu, rfl⟩ | ⟨e, u, hu, rfl⟩ := runOp_cases h
    · exact (hcarry.ok (SameOutside.refl s) hu).lastPhase i
    · exact (hcarry.error (SameOutside.refl s) hu).2.raiseError e
  · have hcarry := freqCount_carries_outMem P s.outMem
    rcases h with hu | ⟨e, hu⟩
    · rw [hcarry.ok rfl hu]
    · rw [(hcarry.error rfl hu).2]

/-! ### `FREQ.COUNT` (R120 to R122) -/

/-- The state of `FREQ.COUNT` before its last phase: only `FREQ` and the working state have changed. -/
def State.freqCounted (s : State) : State :=
  { s with freq := histogram s.inBytes, work := { Work.init with phase := .count } }

theorem freqCount_run {P : Params} {s : State} (h : s.inLen.toNat ≤ P.inCap) : freqCount P s = .ok () s.freqCounted := by
  have hrange : checkRange P s.begun = .ok () s.begun := (checkRange_run P s.begun).1 h
  rw [freqCount, bind_of_ok (beginOp_run s), bind_of_ok hrange, bind_of_ok (phase_run _ _), clearFreq,
    bind_of_ok (change_run _ _), bind_of_ok (phase_run _ _)]
  rfl

/-- The counters in the order of their symbols. -/
theorem freqTable_toList (f : FreqTable) : f.toList = symbols.map (countOf f) := by
  apply List.ext_getElem (by simp [symbols])
  intro i h1 h2
  have hi : i < 256 := by simpa using h1
  simp [symbols, countOf, Nat.mod_eq_of_lt hi]

/-- R122: the sum of the counters of the histogram is the length of the input. -/
theorem total_histogram {x : List Byte} (hx : x.length < 2 ^ cntW) : total (histogram x) = x.length := by
  have hsum : total (histogram x) = (symbols.map fun c => x.count c).sum := by
    rw [total, freqTable_toList, List.map_map]
    exact congrArg List.sum (List.map_congr_left fun c _ => countOf_histogram hx c)
  have hall : ∀ c ∈ (x : Multiset Byte), c ∈ symbols.toFinset := fun c _ => List.mem_toFinset.mpr (mem_symbols c)
  rw [hsum, ← List.sum_toFinset _ symbols_nodup]
  generalize symbols.toFinset = all at hall ⊢
  simpa only [Multiset.coe_count, Multiset.coe_card] using Multiset.sum_count_eq_card hall

theorem State.inBytes_length_lt (s : State) : s.inBytes.length < 2 ^ cntW := s.inBytes_length ▸ s.inLen.isLt

/-- Settles O26: the phases count the input and leave `OUT`. -/
theorem freqCountCompletes : Obligations.FreqCountCompletes := by
  unfold Obligations.FreqCountCompletes
  intro s hcap
  have hrun := freqCount_run hcap
  refine ⟨s.freqCounted.finishCount, s.freqCounted, (exec_eq .freqCount s).trans (runOp_of_ok hrun), ⟨rfl, rfl, rfl, rfl⟩,
    fun c => countOf_histogram s.inBytes_length_lt c, ?_, hrun, rfl, fun a => rfl⟩
  exact (total_histogram s.inBytes_length_lt).trans s.inBytes_length

/-! ### `HUFF.ENC` (R139 to R142) -/

theorem State.inLen_ne_zero {s : State} (h : s.inBytes ≠ []) : s.inLen ≠ 0 := fun h0 =>
  h (List.length_eq_zero_iff.mp (by rw [s.inBytes_length, h0]; rfl))

/-- A container that fits is the output of `HUFF.ENC`. -/
theorem huffEncWith_done {P : Params} {s : State} (hcap : s.inLen.toNat ≤ P.inCap) (hne : s.inBytes ≠ [])
    (hfit : (huffContainer s.inBytes).length ≤ P.outCap) (hout : P.outCap < 2 ^ 64) :
    ∃ t, huffEncWith P s = .next t ∧ DoneWith t (huffContainer s.inBytes) ∧ t.freq = histogram s.inBytes := by
  have hrun := (huffEnc_run hcap (State.inLen_ne_zero hne)).1 hfit
  exact ⟨_, runOp_of_ok hrun, doneWith_finishCoded true rfl (by omega), rfl⟩

/-- Settles O28: the writing phases write the container. -/
theorem huffEncWritesContainer : Obligations.HuffEncWritesContainer := by
  unfold Obligations.HuffEncWritesContainer
  exact fun s hcap hne hfit => huffEncWith_done hcap hne hfit (by decide)

/-- Settles O33: one leaf is the whole tree, and every byte of the payload packs bits 0. -/
theorem huffSingleSymbol : Obligations.HuffSingleSymbol := by
  unfold Obligations.HuffSingleSymbol
  intro s c n hpos hcap hx
  have hcap' : n ≤ 2 ^ 24 := hcap
  have hlen : s.inLen.toNat = n := by rw [← s.inBytes_length, hx, List.length_replicate]
  have hlt : n < 2 ^ cntW := hlen ▸ s.inLen.isLt
  have hne : s.inBytes ≠ [] := by
    rw [← List.length_pos_iff, hx, List.length_replicate]
    exact hpos
  have hcontainer := huffContainer_replicate (c := c) hpos hlt
  have hfit : (huffContainer s.inBytes).length ≤ params.outCap := by
    rw [hx, hcontainer]
    show _ ≤ 2 ^ 24
    simp only [List.length_append, bigEndian_length, List.length_cons, List.length_nil, List.length_replicate, ceil8]
    omega
  obtain ⟨t, ht, hdone, -⟩ := huffEncWritesContainer s (hlen.trans_le hcap) hne hfit
  rw [hx, hcontainer] at hdone
  refine ⟨?_, t, ht, hdone⟩
  rw [hx]
  exact huffCodes_of_one_symbol (present_replicate hpos hlt)

/-! ### `SF.ENC` (R191 to R204) -/

theorem sfTable_writesAs (P : Params) (s : State) :
    WritesAs P (sfTable P) (bigEndian 4 (present s.freq).length ++ sfTableBytes s.freq s.work.codes) s (s.setPhase .table) :=
  ((outU_writes P 4 _ _).seq (sfEntries_writes P s.work.codes (present s.freq) _)).after rfl rfl

/-- The three writing phases of `SF.ENC`, below the limit of R202, write the container of the table in `FREQ` and the codes in the
code table. -/
theorem sfOutput_writesAs (P : Params) {s : State} (h : bitTotal s.freq s.work.codes < 2 ^ 31) :
    WritesAs P (do sfTable P; sfBitCount P; codedPayload P)
      (bigEndian 4 (present s.freq).length ++ sfTableBytes s.freq s.work.codes ++
        (bigEndian 4 (bitTotal s.freq s.work.codes) ++ pack (payloadBits s.work.codes s.inBytes)))
      s ((s.setPhase .payload).withBuffer 0 0) := by
  refine (sfTable_writesAs P s).seq ?_
  generalize bigEndian 4 (present s.freq).length ++ sfTableBytes s.freq s.work.codes = table
  have hcount : WritesAs P (sfBitCount P) (bigEndian 4 (bitTotal s.freq s.work.codes)) ((s.setPhase .table).wrote table)
      ((s.setPhase .bitcount).wrote table) := sfBitCount_writesAs (s := (s.setPhase .table).wrote table) P h
  exact hcount.seq (codedPayload_writesAs P
    (((s.setPhase .bitcount).wrote table).wrote (bigEndian 4 (bitTotal s.freq s.work.codes))))

/-- From the limit of R202 on, they end in an error: in `Range`, or in `IoWrite` where the table alone does not fit. -/
theorem sfOutput_of_limit (P : Params) {s : State} (hwp : s.work.wp ≤ P.outCap) (h : 2 ^ 31 ≤ bitTotal s.freq s.work.codes) :
    ∃ e t, (do sfTable P; sfBitCount P; codedPayload P : Eng Unit) s = .error e t := by
  obtain ⟨-, hfits, hfull⟩ := sfTable_writesAs P s
  generalize bigEndian 4 (present s.freq).length ++ sfTableBytes s.freq s.work.codes = table at *
  by_cases hroom : s.work.wp + table.length ≤ P.outCap
  · have hlimit := sfBitCount_of_limit P (s := (s.setPhase .table).wrote table) h
    exact ⟨.range, _, (bind_of_ok (hfits hroom)).trans (bind_of_error hlimit)⟩
  · obtain ⟨t, ht⟩ := hfull (by omega) hwp
    exact ⟨.ioWrite, t, bind_of_error ht⟩

/-- Phase `BISECT` on the work list of the table `f` (R194). -/
theorem sfBisectPhase_run (P : Params) {f : FreqTable} {s : State} (h : s.work.sfList = sfSorted f) :
    sfBisectPhase P s = .ok () { s with work := { s.work with phase := .bisect, codes := sfCodes P f, sfStack := [] } } := by
  have hbisect := sfAssign_whole P
    (w := { s.work with phase := .bisect, codes := Vector.replicate nsym [], sfStack := sfStackOf s.work.sfList }) rfl
    (by rw [h]; exact sfSorted_descending f)
  have hcodes : sfCodes P f = fillCodes (Vector.replicate nsym []) (sfRecursion P s.work.sfList.length s.work.sfList []) := by
    rw [h, sfStackMatchesRecursion P f]
    rfl
  rw [sfBisectPhase, bind_of_ok (phase_run _ s), bind_of_ok (changeWork_run _ _), changeWork_run, hcodes]
  exact congrArg (fun w => EStateM.Result.ok () { s with work := w }) hbisect

/-- The state of `SF.ENC` when the phase `TABLE` begins. -/
def State.sfReady (P : Params) (s : State) : State :=
  { s with
    freq := histogram s.inBytes
    work := { Work.init with
      phase := .bisect
      sfList := sfSorted (histogram s.inBytes)
      codes := sfCodes P (histogram s.inBytes) } }

/-- On an input within `IN_CAP`, the empty one included, the operation comes to the phase `TABLE` (R191 to R194). -/
theorem sfEnc_of_inCap {P : Params} {s : State} (hcap : s.inLen.toNat ≤ P.inCap) :
    sfEnc P s = (do sfTable P; sfBitCount P; codedPayload P : Eng Unit) (s.sfReady P) := by
  have hcheck : sfCheck P s.begun = .ok () (s.begun.setPhase .check) :=
    (bind_of_ok (phase_run .check s.begun)).trans ((checkRange_run P (s.begun.setPhase .check)).1 hcap)
  have hsort : ∀ u, sfSortPhase u = .ok () { u with work := { u.work with phase := .sort, sfList := sfSorted u.freq } } :=
    fun _ => rfl
  rw [sfEnc, bind_of_ok (beginOp_run s), bind_of_ok hcheck, bind_of_ok (phase_run .count _), clearFreq,
    bind_of_ok (change_run _ _), bind_of_ok (countInput_run _), bind_of_ok (hsort _), bind_of_ok (sfBisectPhase_run P rfl)]
  rfl

/-- R200 to R204: below the limit of R202 the phases write the Shannon-Fano container, or raise `IoWrite`. -/
theorem sfEnc_run {P : Params} {s : State} (hcap : s.inLen.toNat ≤ P.inCap)
    (hbits : bitTotal (histogram s.inBytes) (sfCodes P (histogram s.inBytes)) < 2 ^ 31) :
    ((sfContainer P s.inBytes).length ≤ P.outCap →
      sfEnc P s = .ok () ((((s.sfReady P).setPhase .payload).withBuffer 0 0).wrote (sfContainer P s.inBytes))) ∧
    (P.outCap < (sfContainer P s.inBytes).length → ∃ t, sfEnc P s = .error .ioWrite t) := by
  obtain ⟨-, hfits, hfull⟩ := sfOutput_writesAs P (s := s.sfReady P) hbits
  have hcontainer : sfContainer P s.inBytes = bigEndian 4 (present (s.sfReady P).freq).length ++
      sfTableBytes (s.sfReady P).freq (s.sfReady P).work.codes ++
      (bigEndian 4 (bitTotal (s.sfReady P).freq (s.sfReady P).work.codes) ++
        pack (payloadBits (s.sfReady P).work.codes (s.sfReady P).inBytes)) := List.append_assoc ..
  have hwp : (s.sfReady P).work.wp = 0 := rfl
  rw [← hcontainer, hwp, Nat.zero_add] at hfits hfull
  rw [sfEnc_of_inCap hcap]
  exact ⟨hfits, fun h => hfull h (Nat.zero_le _)⟩

/-- A container that fits is the output of `SF.ENC`. -/
theorem sfEncWith_done {P : Params} {s : State} (hcap : s.inLen.toNat ≤ P.inCap)
    (hbits : bitTotal (histogram s.inBytes) (sfCodes P (histogram s.inBytes)) < 2 ^ 31)
    (hfit : (sfContainer P s.inBytes).length ≤ P.outCap) (hout : P.outCap < 2 ^ 64) :
    ∃ t, sfEncWith P s = .next t ∧ DoneWith t (sfContainer P s.inBytes) ∧ t.freq = histogram s.inBytes :=
  ⟨_, runOp_of_ok ((sfEnc_run hcap hbits).1 hfit), doneWith_finishCoded true rfl (by omega), rfl⟩

/-- Settles O40: the phases up to `BISECT` only prepare the codes, and the writing phases write the container. -/
theorem sfEncWritesContainer : Obligations.SfEncWritesContainer := by
  unfold Obligations.SfEncWritesContainer
  exact fun s hcap hbits hfit => sfEncWith_done hcap hbits hfit (by decide)

/-- Settles O50: the container that fits is written. -/
theorem lz77EncWritesContainer : Obligations.Lz77EncWritesContainer := by
  unfold Obligations.Lz77EncWritesContainer
  exact fun s hcap hfit => lz77EncWith_done hcap hfit (by decide)

/-! ### Outputs that do not fit (R144, R205) -/

/-- A run whose phases raise an error fails with it (R304). -/
theorem runOp_failedWith {m : Eng Unit} {fin : State → State} {e : ErrKind} {s : State} (h : Raises m e s) :
    ∃ t, runOp fin m s = .next t ∧ FailedWith t e := by
  obtain ⟨u, hu⟩ := h
  exact ⟨_, runOp_of_error hu, failedWith_raiseError e u⟩

/-- Settles O22: what is written is the container, as far as it fits. -/
theorem outputTooLongIsIoWrite : Obligations.OutputTooLongIsIoWrite := by
  unfold Obligations.OutputTooLongIsIoWrite
  intro P s _ hcap
  refine ⟨fun hne hlong => runOp_failedWith ((huffEnc_run hcap (State.inLen_ne_zero hne)).2 hlong),
    fun hbits hlong => runOp_failedWith ((sfEnc_run hcap hbits).2 hlong), fun hlong => runOp_failedWith ?_,
    fun hlong => runOp_failedWith ?_⟩
  · rw [Raises, lz77Enc_run hcap]
    exact (lz77Tokens_writes P s.inBytes _).2 (by rwa [show (s.begun.setPhase .write).work.wp = 0 from rfl, Nat.zero_add])
      (Nat.zero_le _)
  · rw [Raises, lzwEnc_run hcap]
    exact (lzwCodes_writes P s.inBytes _).2 (by rwa [State.lzwReady_wp, Nat.zero_add]) (Nat.zero_le _)

/-! ### `FREQ` after the counting operations (R29) -/

theorem inCap_of_ok {P : Params} {i : Instr} {s u : State} (h : phases P i s = .ok () u) : s.inLen.toNat ≤ P.inCap := by
  by_contra hover
  obtain ⟨t, ht⟩ := RaisesRange.phases P i s (Nat.lt_of_not_le hover)
  cases h.symm.trans ht

/-- The phases of a counting operation that go on leave the histogram of the input in `FREQ`. -/
theorem freq_of_ok {i : Instr} {s u : State} (hi : countsInput i = true) (h : phases params i s = .ok () u) :
    u.freq = histogram s.inBytes := by
  have hcap := inCap_of_ok h
  cases i with
  | freqCount =>
    cases h.symm.trans (freqCount_run hcap)
    rfl
  | huffEnc => exact (huffEnc_done ((exec_eq .huffEnc s).trans (runOp_of_ok h)) rfl).2
  | sfEnc =>
    by_cases hbits : bitTotal (histogram s.inBytes) (sfCodes params (histogram s.inBytes)) < 2 ^ 31
    · obtain ⟨hfits, hfull⟩ := sfEnc_run hcap hbits
      by_cases hroom : (sfContainer params s.inBytes).length ≤ params.outCap
      · cases h.symm.trans (hfits hroom)
        rfl
      · obtain ⟨t, ht⟩ := hfull (by omega)
        cases h.symm.trans ht
    · obtain ⟨e, t, ht⟩ := sfOutput_of_limit params (s := s.sfReady params) (Nat.zero_le _) (Nat.le_of_not_lt hbits)
      cases h.symm.trans ((sfEnc_of_inCap hcap).trans ht)
  | _ => cases hi

theorem lastPhase_freq {i : Instr} (hi : countsInput i = true) (s : State) : (lastPhase i s).freq = s.freq := by
  cases i with
  | freqCount => rfl
  | huffEnc => rfl
  | sfEnc => rfl
  | _ => cases hi

/-- Of the counting operations only `HUFF.ENC` raises `EmptyInput`, and after clearing `FREQ` (R131). -/
theorem freq_of_emptyInput {i : Instr} {s u : State} (hi : countsInput i = true) (h : phases params i s = .error .emptyInput u) :
    u.freq = zeroFreq := by
  have hmem := mem_mayRaise_of_error h
  cases i with
  | huffEnc =>
    by_cases h0 : s.inLen = 0
    · cases h.symm.trans (huffEnc_of_empty h0)
      rfl
    · by_cases hcap : s.inLen.toNat ≤ params.inCap
      · obtain ⟨hfits, hfull⟩ := huffEnc_run hcap h0
        by_cases hroom : (huffContainer s.inBytes).length ≤ params.outCap
        · cases h.symm.trans (hfits hroom)
        · obtain ⟨t, ht⟩ := hfull (by omega)
          cases h.symm.trans ht
      · obtain ⟨t, ht⟩ := RaisesRange.phases params .huffEnc s (Nat.lt_of_not_le hcap)
        cases h.symm.trans ht
  | freqCount => exact absurd hmem (by decide)
  | sfEnc => exact absurd hmem (by decide)
  | _ => cases hi

/-- Settles O17: the two ends of a counting operation that leave `FREQ` defined. -/
theorem freqIsTheHistogram : Obligations.FreqIsTheHistogram := by
  unfold Obligations.FreqIsTheHistogram
  intro i s t hi h
  rw [exec_eq] at h
  obtain ⟨u, hu, rfl⟩ | ⟨e, u, hu, rfl⟩ := runOp_cases h
  · refine ⟨fun _ c => ?_, fun herr => ?_⟩
    · rw [lastPhase_freq hi, freq_of_ok hi hu]
      exact countOf_histogram s.inBytes_length_lt c
    · rw [lastPhase_err] at herr
      exact absurd herr (by decide)
  · refine ⟨fun hdone => ?_, fun herr c => ?_⟩
    · rw [State.raiseError_status] at hdone
      exact absurd hdone (by decide)
    · rw [State.raiseError_err] at herr
      obtain rfl := errWord_injective herr
      rw [State.raiseError_freq, freq_of_emptyInput hi hu, countOf_zeroFreq]

end Sys2Proof.Machine
end

section
/-! PROOFS. The runs of `HUFF.DEC` and `SF.DEC` on whole containers (O36), the two round trips of the coding encoders (O39, O47),
and the decoders' outputs that do not fit (O60). -/

namespace Sys2Proof.Machine

/-! ### `HUFF.DEC` on a container (R163 to R171) -/

/-- R8: the bounds on the tables. -/
theorem tables_of_wf {P : Params} (h : P.wf = true) :
    256 ≤ P.hdecTableMax ∧ 256 ≤ P.sfdecTableMax ∧ 255 ≤ P.sfdecCodeMax := by
  simp only [Params.wf, Bool.and_eq_true, decide_eq_true_eq] at h
  omega

theorem outCap_pos_of_wf {P : Params} (h : P.wf = true) : 1 ≤ P.outCap := by
  simp only [Params.wf, Bool.and_eq_true, decide_eq_true_eq] at h
  omega

section

variable {P : Params} {s : State} {len n : Nat} {es msg : List HuffEntry} {payload : List Byte} {q : Bits}

/-- After the table the operation walks over the codes of a message that fits, with bits `q` and some `r` left. -/
theorem HuffInput.walk_run (h : HuffInput P s len 0 es payload) {left : Nat} (hlen : len = left + msg.length)
    (hcap : msg.length ≤ P.outCap) (hmem : ∀ d ∈ msg, d ∈ es) (hn : n ≤ 8 * payload.length)
    (hbits : unpack n payload = msg.flatMap HuffEntry.code ++ q) :
    ∃ (t : State) (fuel : Nat) (r : Bits), t.work.wp = 0 ∧ HoldsCodes t.work.tree es ∧
      (t.wrote (msg.map HuffEntry.sym)).bitsLeft = q ++ r ∧
      huffDec P s = huffWalk P (fuel + q.length) left 0 (t.wrote (msg.map HuffEntry.sym)) := by
  obtain ⟨t, ht, hrun⟩ := h.huffDec_run
  have hcodes : ∀ d ∈ msg, d ∈ es ∧ d.code ≠ [] := fun d hd => ⟨hmem d hd, d.code_ne_nil (h.wf d (hmem d hd))⟩
  rw [← ht.left] at hn hbits
  obtain ⟨fuel, r, hleft, -, hwalk⟩ :=
    huffPayload_message (P := P) (left := left) ht.tree hcodes (by rw [ht.wp]; omega) hn hbits
  refine ⟨t.payloadBegun.skipBits (msg.flatMap HuffEntry.code).length, fuel, r, ht.wp, ht.tree, hleft, ?_⟩
  rw [hrun, huffReadTable, bind_of_ok (pure_run () t), hlen, hwalk]
  rfl

/-- R171: a container whose payload begins with the codes of the message is decoded to its symbols. -/
theorem HuffInput.huffDecWith_done (h : HuffInput P s msg.length 0 es payload) (hcap : msg.length ≤ P.outCap)
    (hout : P.outCap < 2 ^ 64) (hmem : ∀ d ∈ msg, d ∈ es) (hn : n ≤ 8 * payload.length)
    (hbits : unpack n payload = msg.flatMap HuffEntry.code) :
    ∃ t, huffDecWith P s = .next t ∧ DoneWith t (msg.map HuffEntry.sym) := by
  obtain ⟨t, fuel, r, hwp, -, -, hrun⟩ := h.walk_run (left := 0) (q := []) (Nat.zero_add _).symm hcap hmem hn
    (by rw [hbits, List.append_nil])
  rw [huffWalk] at hrun
  exact ⟨_, runOp_of_ok hrun, doneWith_finishCoded false hwp (by rw [List.length_map]; omega)⟩

end

/-- Settles O36: the walk emits the symbols of the message, and then the operation ends. -/
theorem huffDecDecodesAnyTable : Obligations.HuffDecDecodesAnyTable := by
  unfold Obligations.HuffDecDecodesAnyTable
  intro s es msg payload n hcap hout hpos hle hwf hfree hmem hn hbits hbytes
  have hlt : msg.length < 2 ^ 64 := hout.trans_lt (by decide)
  have hin : HuffInput params s msg.length 0 es payload :=
    ⟨hcap, le_rfl, hlt, by omega, by omega, hwf, hfree, by rwa [Nat.zero_add]⟩
  exact hin.huffDecWith_done hout (by decide) hmem hn hbits

/-! ### The Huffman round trip (R175) -/

/-- The entry of a symbol in the table that `HUFF.ENC` writes (R140). -/
def huffEntryOf (t : CodeTable) (c : Byte) : HuffEntry where
  sym := c
  len := BitVec.ofNat 8 (codeOf t c).length
  bits := pack (codeOf t c)

section

variable {t : CodeTable} {c : Byte}

theorem huffEntryOf_len (h : (codeOf t c).length ≤ 255) : (huffEntryOf t c).len.toNat = (codeOf t c).length :=
  (BitVec.toNat_ofNat _ _).trans (Nat.mod_eq_of_lt (Nat.lt_succ_of_le h))

theorem huffEntryOf_code (h : (codeOf t c).length ≤ 255) : (huffEntryOf t c).code = codeOf t c := by
  rw [HuffEntry.code, huffEntryOf_len h]
  exact unpack_pack (codeOf t c)

theorem huffEntryOf_wf (h : (codeOf t c).length ≤ 255) (hne : codeOf t c ≠ []) : (huffEntryOf t c).wf = true := by
  refine ((huffEntryOf t c).wf_iff).mpr ⟨fun h0 => hne ?_, ?_⟩
  · rw [← List.length_eq_zero_iff, ← huffEntryOf_len h, h0]
    rfl
  · rw [huffEntryOf_len h]
    exact pack_length _

end

theorem flatMap_codes_huffEntryOf {t : CodeTable} (h : ∀ c, (codeOf t c).length ≤ 255) (x : List Byte) :
    (x.map (huffEntryOf t)).flatMap HuffEntry.code = payloadBits t x := by
  rw [List.flatMap_map, payloadBits]
  exact List.flatMap_congr fun c _ => huffEntryOf_code (h c)

theorem length_le_eight_mul_ceil8 (n : Nat) : n ≤ 8 * ceil8 n := by
  unfold ceil8
  omega

/-- What `HUFF.ENC` writes for a non-empty input is a container of a legal table. -/
theorem huffInput_of_container {P : Params} {r : State} {x : List Byte} (hmax : 256 ≤ P.hdecTableMax) (hne : x ≠ [])
    (hlen : x.length < 2 ^ cntW) (hcap : (huffContainer x).length ≤ P.inCap) (h : r.inBytes = huffContainer x) :
    HuffInput P r x.length 0 ((present (histogram x)).map (huffEntryOf (huffCodes (histogram x))))
      (pack (payloadBits (huffCodes (histogram x)) x)) := by
  obtain ⟨-, hcode, hfree, -⟩ := huffCodesAreFullPrefixCode (histogram x)
  obtain ⟨b, hb⟩ := List.exists_mem_of_ne_nil x hne
  have hpos := List.length_pos_of_mem ((mem_present_histogram hlen b).mpr hb)
  have hcount : (present (histogram x)).length ≤ 256 := present_length_le _
  have hlen' : x.length < 2 ^ 64 := hlen
  refine ⟨by rwa [← r.inBytes_length, h], hmax, hlen', by rw [List.length_map]; omega, by rw [List.length_map]; omega,
    fun e he => ?_, ?_, ?_⟩
  · obtain ⟨c, hc, rfl⟩ := List.mem_map.mp he
    obtain ⟨hlo, hhi⟩ := hcode c ((mem_present _ c).mp hc)
    exact huffEntryOf_wf hhi (List.length_pos_iff.mp hlo)
  · rw [List.map_map]
    rwa [codesPresent, ← List.map_congr_left fun c _ => huffEntryOf_code (huffCodes_length_le (histogram x) c)] at hfree
  · rw [h, huffContainer, huffTableBytes, List.length_map, Nat.zero_add, List.flatMap_map]
    rfl

/-- Settles O39: the table holds the codes of the symbols present, and the payload begins with those of the input. -/
theorem huffRoundTrip : Obligations.HuffRoundTrip := by
  unfold Obligations.HuffRoundTrip
  intro P s hwf hcap hfit hne hroom hback
  obtain ⟨hin, hout⟩ := caps_of_wf hwf
  obtain ⟨hmax, -, -⟩ := tables_of_wf hwf
  obtain ⟨t, ht, ⟨hdone, -, -, hbytes⟩, -⟩ := huffEncWith_done hcap hne hroom (by omega)
  refine ⟨t, ht, hdone, fun r hr => ?_⟩
  have hinput := huffInput_of_container hmax hne s.inBytes_length_lt hback (hr.trans hbytes)
  have hcodes := flatMap_codes_huffEntryOf (huffCodes_length_le (histogram s.inBytes)) s.inBytes
  have hbits := unpack_pack (payloadBits (huffCodes (histogram s.inBytes)) s.inBytes)
  have hsym : (s.inBytes.map (huffEntryOf (huffCodes (histogram s.inBytes)))).map HuffEntry.sym = s.inBytes := by
    rw [List.map_map]
    exact List.map_id _
  rw [← List.length_map (as := s.inBytes) (huffEntryOf (huffCodes (histogram s.inBytes)))] at hinput
  have hdec := hinput.huffDecWith_done (n := (payloadBits (huffCodes (histogram s.inBytes)) s.inBytes).length)
    (by rwa [List.length_map, s.inBytes_length]) (by omega) (fun d hd => ?_)
    (by rw [pack_length]; exact length_le_eight_mul_ceil8 _) (hbits.trans hcodes.symm)
  · rwa [hsym] at hdec
  · obtain ⟨c, hc, rfl⟩ := List.mem_map.mp hd
    exact List.mem_map_of_mem ((mem_present_histogram s.inBytes_length_lt c).mpr hc)

/-! ### The Shannon-Fano table of an encoder (R96, R200) -/

/-- The entries of the table that `SF.ENC` writes (R200). -/
def sfEntriesOf (f : FreqTable) (t : CodeTable) : List SfEntry := (present f).map fun c => (c, (codeOf t c).map bitChar)

theorem bitChar_injective : Function.Injective bitChar := by
  unfold Function.Injective
  decide

theorem map_bitChar_inj {a b : Bits} : a.map bitChar = b.map bitChar ↔ a = b :=
  (List.map_injective_iff.mpr bitChar_injective).eq_iff

theorem sfLookup_eq_none {es : List SfEntry} {key : List Byte} (h : ∀ e ∈ es, e.2 ≠ key) : sfLookup es key = none := by
  rw [sfLookup, Option.map_eq_none_iff, List.find?_eq_none]
  exact fun e he => by simpa using h e (List.mem_reverse.mp he)

/-- A key that only one entry has finds that entry's symbol. -/
theorem sfLookup_eq_some {es : List SfEntry} {e : SfEntry} (he : e ∈ es) (honly : ∀ d ∈ es, d.2 = e.2 → d = e) :
    sfLookup es e.2 = some e.1 := by
  cases hfind : es.reverse.find? fun d => d.2 = e.2 with
  | none => simpa using List.find?_eq_none.mp hfind e (List.mem_reverse.mpr he)
  | some d =>
    have hd := honly d (List.mem_reverse.mp (List.mem_of_find?_eq_some hfind)) (by simpa using List.find?_some hfind)
    rw [sfLookup, hfind, hd]
    rfl

section

variable {f : FreqTable} {t : CodeTable} {c : Byte}

theorem flatMap_sfEntriesOf (f : FreqTable) (t : CodeTable) : (sfEntriesOf f t).flatMap sfEntryBytes = sfTableBytes f t := by
  rw [sfEntriesOf, List.flatMap_map, sfTableBytes]
  exact List.flatMap_congr fun c _ => by rw [sfEntryBytes, List.length_map]

/-- A code that begins another one is that code. -/
theorem eq_of_code_prefix (h : PrefixFree (codesPresent f t)) {a b : Byte} (ha : a ∈ present f) (hb : b ∈ present f)
    (hab : codeOf t a <+: codeOf t b) : a = b := by
  have hsymm : Std.Symm fun a b : Byte => ¬ codeOf t a <+: codeOf t b ∧ ¬ codeOf t b <+: codeOf t a := ⟨fun _ _ => And.symm⟩
  by_contra hne
  exact ((List.pairwise_map.mp h).forall ha hb hne).1 hab

/-- R199 (c): only a whole code is a key. -/
theorem sfLookup_code (h : PrefixFree (codesPresent f t)) (hc : c ∈ present f) :
    sfLookup (sfEntriesOf f t) ((codeOf t c).map bitChar) = some c := by
  refine sfLookup_eq_some (e := (c, (codeOf t c).map bitChar)) (List.mem_map_of_mem hc) fun d hd hkey => ?_
  obtain ⟨b, hb, rfl⟩ := List.mem_map.mp hd
  rw [eq_of_code_prefix h hb hc (map_bitChar_inj.mp hkey ▸ List.prefix_rfl)]

theorem sfLookup_part (h : PrefixFree (codesPresent f t)) (hc : c ∈ present f) {p q : Bits} (hcode : codeOf t c = p ++ q)
    (hq : q ≠ []) : sfLookup (sfEntriesOf f t) (p.map bitChar) = none := by
  refine sfLookup_eq_none fun d hd hkey => ?_
  obtain ⟨b, hb, rfl⟩ := List.mem_map.mp hd
  have hp : codeOf t b = p := map_bitChar_inj.mp hkey
  rw [eq_of_code_prefix h hb hc (hp ▸ hcode ▸ List.prefix_append p q), hcode] at hp
  exact hq (List.append_right_eq_self.mp hp)

/-- R226: the scan of the rest of a code, its beginning being in the accumulator, gives its symbol. -/
theorem sfDecodeBits_code (h : PrefixFree (codesPresent f t)) (hc : c ∈ present f) (r : Bits) : ∀ (q p : Bits),
    codeOf t c = p ++ q → q ≠ [] →
    sfDecodeBits (sfEntriesOf f t) (p.map bitChar) (q ++ r) = c :: sfDecodeBits (sfEntriesOf f t) [] r
  | [], _, _, hq => absurd rfl hq
  | [b], p, hcode, _ => sfDecodeBits_of_match (by
      have hkey := sfLookup_code h hc
      rwa [hcode, List.map_append] at hkey)
  | b :: d :: q, p, hcode, _ => by
    have hcode' : codeOf t c = (p ++ [b]) ++ d :: q := by rw [hcode, List.append_assoc]; rfl
    have hkey := sfLookup_part h hc hcode' (List.cons_ne_nil d q)
    rw [List.map_append] at hkey
    have hrest := sfDecodeBits_code h hc r (d :: q) (p ++ [b]) hcode' (List.cons_ne_nil d q)
    rw [List.map_append] at hrest
    exact (sfDecodeBits_of_no_match hkey).trans hrest

/-- R229: the scan of the codes of some symbols gives the symbols. -/
theorem sfDecodeBits_payload (h : PrefixFree (codesPresent f t)) (hne : ∀ c ∈ present f, codeOf t c ≠ []) :
    ∀ x : List Byte, (∀ c ∈ x, c ∈ present f) → sfDecodeBits (sfEntriesOf f t) [] (payloadBits t x) = x
  | [], _ => rfl
  | c :: x, hx => by
    have hc := hx c List.mem_cons_self
    rw [payloadBits, List.flatMap_cons]
    exact (sfDecodeBits_code h hc _ (codeOf t c) [] rfl (hne c hc)).trans
      (congrArg _ (sfDecodeBits_payload h hne x fun d hd => hx d (List.mem_cons_of_mem c hd)))

end

/-! ### The Shannon-Fano round trip (R229) -/

section

variable {P : Params} {s r : State}

/-- R226, R227: the output of a whole container that fits is what the scan of its payload gives. -/
theorem SfInput.sfDecWith_done {es : List SfEntry} {tb : Nat} {payload : List Byte}
    (h : SfInput P s 0 es (bigEndian 4 tb ++ payload)) (htb : tb < 2 ^ 31) (hlen : tb ≤ 8 * payload.length)
    (hfit : (sfDecodeBits es [] (unpack tb payload)).length ≤ P.outCap) (hout : P.outCap < 2 ^ 64) :
    ∃ t, sfDecWith P s = .next t ∧ DoneWith t (sfDecodeBits es [] (unpack tb payload)) := by
  obtain ⟨t, ht, hrun⟩ := h.sfDec_whole
  obtain ⟨u, hwp, -, hscan⟩ := ht.sfScan_run htb le_rfl hlen hfit
  rw [Nat.sub_self] at hscan
  exact ⟨_, runOp_of_ok (hrun.trans hscan), doneWith_finishCoded false hwp (by omega)⟩

/-- What `SF.ENC` writes for a non-empty input is a container of a legal table. -/
theorem sfInput_of_container {x : List Byte} (hwf : P.wf = true) (hne : x ≠ []) (hlen : x.length < 2 ^ cntW)
    (hcap : (sfContainer P x).length ≤ P.inCap) (h : r.inBytes = sfContainer P x) :
    SfInput P r 0 (sfEntriesOf (histogram x) (sfCodes P (histogram x)))
      (bigEndian 4 (bitTotal (histogram x) (sfCodes P (histogram x))) ++ pack (payloadBits (sfCodes P (histogram x)) x)) := by
  obtain ⟨-, htable, hcode⟩ := tables_of_wf hwf
  obtain ⟨b, hb⟩ := List.exists_mem_of_ne_nil x hne
  have hpos := List.length_pos_of_mem ((mem_present_histogram hlen b).mpr hb)
  have hcount : (present (histogram x)).length ≤ 256 := present_length_le _
  have hsize : (sfEntriesOf (histogram x) (sfCodes P (histogram x))).length = (present (histogram x)).length :=
    List.length_map _
  refine ⟨by rwa [← r.inBytes_length, h], htable, hcode, by omega, by omega, fun e he => ?_, ?_⟩
  · obtain ⟨c, -, rfl⟩ := List.mem_map.mp he
    rw [List.length_map]
    exact sfCodes_length_le P _ c
  · rw [h, flatMap_sfEntriesOf, hsize, Nat.zero_add, sfContainer]
    exact List.append_assoc ..

/-- R202, R222: the container of the empty input declares no symbol, and nothing is decoded. -/
theorem sfDecWith_of_empty_container (hcap : r.inLen.toNat ≤ P.inCap) (h : r.inBytes = sfContainer P []) :
    ∃ t, sfDecWith P r = .next t ∧ DoneWith t [] := by
  have hpresent : present (histogram []) = [] := by decide
  have hbytes : r.inBytes = [] ++ bigEndian 4 0 ++ (bigEndian 4 0 ++ []) := by
    rw [h]
    simp [sfContainer, sfTableBytes, bitTotal, hpresent, payloadBits, pack, ceil8]
  have hlen : 4 ≤ r.inLen.toNat := by
    rw [← r.inBytes_length, hbytes]
    simp
  have hzero : memRead r.inMem 0 4 = 0 := memRead_of_inBytes (by decide) hbytes
  have hrun : sfDec P r = .ok () (r.sizeRead.wrote []) := by
    rw [sfDec_of_header hcap hlen, hzero]
    exact sfAfterSize_of_not_positive (by decide)
  exact ⟨_, runOp_of_ok hrun, doneWith_finishCoded false r.sizeRead_wp (by decide)⟩

end

/-- Settles O47: no proper beginning of a code is a key, so the scan of the payload gives the input. -/
theorem sfRoundTrip : Obligations.SfRoundTrip := by
  unfold Obligations.SfRoundTrip
  intro P s hwf hcap hfit hbits hroom hback
  obtain ⟨hin, hout⟩ := caps_of_wf hwf
  obtain ⟨t, ht, ⟨hdone, -, -, hbytes⟩, -⟩ := sfEncWith_done hcap hbits hroom (by omega)
  refine ⟨t, ht, hdone, fun r hr => ?_⟩
  rw [hbytes] at hr
  have hlt := s.inBytes_length_lt
  rw [← s.inBytes_length] at hfit
  generalize s.inBytes = x at *
  by_cases hne : x = []
  · subst hne
    exact sfDecWith_of_empty_container (by rwa [← r.inBytes_length, hr]) hr
  · obtain ⟨hcodes, hfree, -⟩ := sfCodesArePrefixFree P (histogram x)
    have htotal := bitTotal_histogram hlt (sfCodes P (histogram x))
    have hscan : sfDecodeBits (sfEntriesOf (histogram x) (sfCodes P (histogram x))) []
        (unpack (bitTotal (histogram x) (sfCodes P (histogram x))) (pack (payloadBits (sfCodes P (histogram x)) x))) = x := by
      rw [htotal, unpack_pack]
      exact sfDecodeBits_payload hfree (fun c hc => List.length_pos_iff.mp (hcodes c ((mem_present _ c).mp hc)).1) x
        fun c hc => (mem_present_histogram hlt c).mpr hc
    have hdec := (sfInput_of_container hwf hne hlt hback hr).sfDecWith_done hbits
      (by rw [htotal, pack_length]; exact length_le_eight_mul_ceil8 _) (by rwa [hscan]) (by omega)
    rwa [hscan] at hdec

/-! ### Decoded outputs that do not fit (R172, R230, R256, R287) -/

theorem outByte_raises {P : Params} {s : State} (b : Byte) (h : s.work.wp = P.outCap) : Raises (outByte P b) .ioWrite s :=
  (outByte_writes P b s).2 (by rw [List.length_singleton]; omega) h.le

/-- The path of a code ends in the child of an internal node, and that child is the leaf of its symbol. -/
theorem HoldsCodes.exists_last_node {tree : List DecNode} {es : List HuffEntry} {e : HuffEntry} (h : HoldsCodes tree es)
    (he : e ∈ es) (hne : e.code ≠ []) :
    ∃ p d v u, e.code = p ++ [d] ∧ nodeBelow tree 0 p = some v ∧ leafSym tree v = none ∧ childOf tree v d = some u ∧
      leafSym tree u = some e.sym := by
  obtain ⟨u, hu, hleaf⟩ := Option.map_eq_some_iff.mp ((h.leaf_iff e.code e.sym).mpr ⟨e, he, rfl, rfl⟩)
  have hcode := (List.dropLast_append_getLast hne).symm
  rw [hcode, nodeBelow_concat] at hu
  obtain ⟨v, hv, hchild⟩ := Option.bind_eq_some_iff.mp hu
  exact ⟨_, _, v, u, hcode, hv, leafSym_of_child hchild, hchild, hleaf⟩

/-- R172: the walk over one code more when `OUT` is full. -/
theorem HoldsCodes.huffWalk_full {P : Params} {s : State} {es : List HuffEntry} {e : HuffEntry} {r : Bits} {fuel left : Nat}
    (h : HoldsCodes s.work.tree es) (he : e ∈ es) (hne : e.code ≠ []) (hbits : s.bitsLeft = e.code ++ r)
    (hfull : s.work.wp = P.outCap) : Raises (huffWalk P (fuel + e.code.length) (left + 1) 0) .ioWrite s := by
  obtain ⟨p, d, v, u, hcode, hv, hinner, hchild, hleaf⟩ := h.exists_last_node he hne
  rw [hcode, List.append_assoc] at hbits
  have hlast : (s.skipBits p.length).bitsLeft = d :: r := by simp [hbits]
  rw [Raises, hcode, List.length_append, List.length_singleton, Nat.add_comm p.length, ← Nat.add_assoc,
    huffWalk_path p hv hinner hbits, huffWalk, bind_of_ok (getBit_of_bitsLeft hlast), bind_of_ok (getWork_run _)]
  simp only [State.skipBits_tree, hchild, hleaf]
  exact (outByte_raises e.sym (s := (s.skipBits p.length).skipBits 1) hfull).bind

/-- R172: a payload that begins with the codes of more symbols than `OUT` holds. -/
theorem HuffInput.huffDec_full {P : Params} {s : State} {len n : Nat} {es msg : List HuffEntry} {payload : List Byte}
    (h : HuffInput P s len 0 es payload) (hlen : msg.length ≤ len) (hlong : P.outCap < msg.length)
    (hmem : ∀ d ∈ msg, d ∈ es) (hn : n ≤ 8 * payload.length) (hbits : unpack n payload = msg.flatMap HuffEntry.code) :
    Raises (huffDec P) .ioWrite s := by
  obtain ⟨e, rest, hdrop⟩ := List.exists_cons_of_length_pos (l := msg.drop P.outCap) (by rw [List.length_drop]; omega)
  have htake : (msg.take P.outCap).length = P.outCap := by rw [List.length_take]; omega
  have hmsg : msg = msg.take P.outCap ++ e :: rest := by rw [← hdrop, List.take_append_drop]
  generalize msg.take P.outCap = front at htake hmsg
  subst hmsg
  rw [List.length_append, List.length_cons] at hlen
  obtain ⟨left, rfl⟩ : ∃ left, len = left + 1 + front.length := ⟨len - 1 - front.length, by omega⟩
  rw [List.flatMap_append, List.flatMap_cons] at hbits
  have he := hmem e (by simp)
  obtain ⟨t, fuel, r, hwp, htree, hleft, hrun⟩ := h.walk_run rfl htake.le (fun d hd => hmem d (by simp [hd])) hn hbits
  rw [Raises, hrun, List.length_append, Nat.add_comm e.code.length, ← Nat.add_assoc]
  rw [List.append_assoc] at hleft
  exact HoldsCodes.huffWalk_full htree he (e.code_ne_nil (h.wf e he)) hleft (by simp [hwp, htake])

/-- R230: a bit after which the accumulator is a key, when `OUT` is full. -/
theorem sfScanBit_full {P : Params} {s : State} {sym : Byte} {r : Bits} {d : Bool} (hbits : s.bitsLeft = d :: r)
    (hkey : s.work.sfMap.lookup (s.work.sfAcc ++ [bitChar d]) = some sym) (hfull : s.work.wp = P.outCap) :
    Raises (sfScanBit P) .ioWrite s := by
  rw [Raises, sfScanBit, bind_of_ok (getBit_of_bitsLeft hbits), bind_of_ok (appendBitChar_run d _), bind_of_ok (getWork_run _),
    State.withAcc_sfMap, State.withAcc_sfAcc, State.skipBits_sfMap, State.skipBits_sfAcc, hkey]
  exact (outByte_raises sym (s := (s.skipBits 1).withAcc (s.work.sfAcc ++ [bitChar d])) hfull).bind

/-- R230: a scan whose bits give more than `OUT` has room for. -/
theorem sfScan_full {P : Params} {es : List SfEntry} {r : Bits} (n : Nat) : ∀ (bits : Bits) {acc : List Byte} {s : State},
    s.work.sfAcc = acc → (∀ key, s.work.sfMap.lookup key = sfLookup es key) → s.bitsLeft = bits ++ r →
    s.work.wp ≤ P.outCap → P.outCap < s.work.wp + (sfDecodeBits es acc bits).length →
    Raises (sfScan P (n + bits.length)) .ioWrite s
  | [], _, _, _, _, _, hle, hlong => absurd hlong (Nat.not_lt.mpr hle)
  | b :: bits, acc, s, hacc, hmap, hbits, hle, hlong => by
    subst hacc
    rw [List.length_cons, ← Nat.add_assoc, sfScan]
    cases hkey : sfLookup es (s.work.sfAcc ++ [bitChar b]) with
    | some sym =>
      rw [sfDecodeBits_of_match hkey, List.length_cons] at hlong
      by_cases hfit : s.work.wp < P.outCap
      · refine Raises.after (sfScanBit_of_match hbits ((hmap _).trans hkey) hfit)
          (sfScan_full (r := r) n bits (acc := []) rfl hmap (by simp [hbits]) (by simp; omega) (by simp; omega))
      · exact (sfScanBit_full hbits ((hmap _).trans hkey) (by omega)).bind
    | none =>
      rw [sfDecodeBits_of_no_match hkey] at hlong
      exact Raises.after (sfScanBit_of_no_match hbits ((hmap _).trans hkey))
        (sfScan_full (r := r) n bits rfl hmap (by simp [hbits]) hle hlong)

/-- R230: a payload whose first bits give more symbols than `OUT` holds. -/
theorem SfInput.sfDec_full {P : Params} {s : State} {es : List SfEntry} {n tb : Nat} {payload : List Byte}
    (h : SfInput P s 0 es (bigEndian 4 tb ++ payload)) (hntb : n ≤ tb) (htb : tb < 2 ^ 31) (hn : n ≤ 8 * payload.length)
    (hlong : P.outCap < (sfDecodeBits es [] (unpack n payload)).length) : Raises (sfDec P) .ioWrite s := by
  obtain ⟨t, ⟨hmap, hwp, hleft⟩, hrun⟩ := h.sfDec_whole
  obtain ⟨r, hr⟩ := unpack_prefix hn payload
  have hbits : t.scanBegun.bitsLeft = unpack n payload ++ r := by
    rw [State.bitsLeft_scanBegun, hleft, List.drop_left' (bigEndian_length 4 tb), hr]
  have hwp' : t.scanBegun.work.wp = 0 := hwp
  have hcount : (s32 tb).toNat = tb - n + (unpack n payload).length := by
    rw [s32, if_pos htb, unpack_length, Int.toNat_natCast]
    omega
  rw [Raises, hrun, sfPayload_run (by omega) hleft, hcount]
  exact sfScan_full _ _ (acc := []) rfl hmap hbits (by omega) (by omega)

/-- R256: tokens whose replay is longer than `OUT`. -/
theorem Lz77Input.lz77Dec_full {P : Params} {s : State} {ahead : Nat} {ts : List Token} {y rest : List Byte}
    (h : Lz77Input P s ahead ts y rest) (hlong : P.outCap < y.length) : Raises (lz77Dec P) .ioWrite s := by
  have hleft : s.replayBegun.left = ts.flatMap tokenBytes ++ rest := by
    rw [State.replayBegun_left, h.bytes, List.append_assoc, List.drop_left' (by simp)]
  obtain ⟨l, rfl, -, -, hfull⟩ := replayTokens_writesAs (P := P) ts s.replayBegun_wp h.replay hleft
  rw [Raises, h.lz77Dec_run]
  exact Raises.bind (hfull (by simpa using hlong) (by simp))

@[simp] theorem State.left_wrote (l : List Byte) (s : State) : (s.wrote l).left = s.left := rfl

/-- R287: a string that does not fit. -/
theorem lzwReplay_of_long_string {P : Params} {s : State} {n c : Nat} {prev cur : List Byte} {r : List Byte} (hc : c < 2 ^ 16)
    (h : s.left = bigEndian 2 c ++ r) (hcur : lzwString s.work.dict prev c = some cur) (hle : s.work.wp ≤ P.outCap)
    (hlong : P.outCap < s.work.wp + cur.length) : Raises (lzwReplay P (n + 1) prev) .ioWrite s := by
  have hsome : lzwString (s.advance 2).work.dict prev c = some cur := hcur
  have hfull : Raises (outString P cur) .ioWrite (s.advance 2) := (outString_writes P cur (s.advance 2)).2 hlong hle
  rw [Raises, lzwReplay, bind_of_ok (inU_of_left (by decide) hc h), bind_of_ok (getWork_run _), hsome]
  exact hfull.bind

/-- R287: codes whose strings are more than `OUT` has room for. -/
theorem lzwReplay_full {P : Params} {rest : List Byte} (ahead : Nat) : ∀ (cs : List Nat) {s : State} {prev y : List Byte},
    (∀ c ∈ cs, c < 2 ^ 16) → s.left = cs.flatMap (bigEndian 2) ++ rest → lzwStrings s.work.dict prev cs = some y →
    s.work.wp ≤ P.outCap → P.outCap < s.work.wp + y.length → Raises (lzwReplay P (ahead + cs.length) prev) .ioWrite s
  | [], s, prev, y, _, _, hy, hle, hlong => by
    cases hy
    exact absurd hlong (Nat.not_lt.mpr hle)
  | c :: cs, s, prev, y, hcs, hleft, hy, hle, hlong => by
    rw [List.flatMap_cons, List.append_assoc] at hleft
    have hc := hcs c List.mem_cons_self
    rw [lzwStrings] at hy
    split at hy
    · cases hy
    · next cur hcur =>
      obtain ⟨z, hz, rfl⟩ := Option.map_eq_some_iff.mp hy
      rw [List.length_append] at hlong
      rw [List.length_cons, ← Nat.add_assoc]
      by_cases hroom : s.work.wp + cur.length ≤ P.outCap
      · rw [Raises, lzwReplay_of_string hc hleft hcur hroom]
        exact lzwReplay_full (rest := rest) ahead cs (fun d hd => hcs d (List.mem_cons_of_mem c hd))
          (by rw [State.left_wrote, State.withDict_left, State.left_advance, hleft, List.drop_left' (bigEndian_length 2 c)])
          hz hroom (by simp; omega)
      · exact lzwReplay_of_long_string hc hleft hcur hle (by omega)

/-- R287: valid codes whose strings are more than `OUT` holds. -/
theorem LzwInput.lzwDec_full {P : Params} {s : State} {ahead : Nat} {cs : List Nat} {y rest : List Byte}
    (h : LzwInput P s ahead cs y rest) (hpos : 1 ≤ P.outCap) (hlong : P.outCap < y.length) : Raises (lzwDec P) .ioWrite s := by
  obtain ⟨hcap, hlt, hcodes, hdecoded, hbytes⟩ := h
  obtain ⟨c, r, z, rfl, hbyte, hz, rfl⟩ := lzwDecoded_eq_some hdecoded
  rw [List.length_cons] at hlt hlong
  rw [List.flatMap_cons, List.append_assoc, List.append_assoc] at hbytes
  have hleft : s.lzwSeeded.left = bigEndian 2 c ++ (r.flatMap (bigEndian 2) ++ rest) := by
    rw [State.lzwSeeded_left, hbytes, List.drop_left' (bigEndian_length ..)]
  have hfirst := lzwFirst_of_byte (P := P) (cc := ahead + r.length + 1) hleft hbyte (by rw [State.lzwSeeded_wp]; omega)
  rw [Raises, lzwDec_of_count hcap (by omega) hlt hbytes, ← Nat.add_assoc, hfirst]
  exact lzwReplay_full (rest := rest) ahead r (fun d hd => hcodes d (List.mem_cons_of_mem c hd))
    (by rw [State.left_wrote, State.left_setPhase, State.left_advance, hleft, List.drop_left' (bigEndian_length ..)]) hz
    (by simpa using hpos) (by simp; omega)

/-- Settles O60: the symbols, bits, tokens or codes read first fill `OUT`, and the next byte does not fit. -/
theorem decodedOutputTooLongIsIoWrite : Obligations.DecodedOutputTooLongIsIoWrite := by
  unfold Obligations.DecodedOutputTooLongIsIoWrite
  intro P s hwf hcap
  obtain ⟨htable, hsfTable, hcode⟩ := tables_of_wf hwf
  refine ⟨?_, ?_, ?_, ?_⟩
  · intro es msg payload n len hmsg hlen hlong hle hes hfree hmem hn hbits hbytes
    obtain ⟨e, he⟩ := List.exists_mem_of_length_pos (l := msg) (by omega)
    have hpos := List.length_pos_of_mem (hmem e he)
    have hin : HuffInput P s len 0 es payload :=
      ⟨hcap, htable, hlen, by omega, by omega, hes, hfree, by rwa [Nat.zero_add]⟩
    exact runOp_failedWith (hin.huffDec_full hmsg hlong hmem hn hbits)
  · intro es payload n tb hpos hle hkeys hntb htb hn hlong hbytes
    rw [List.append_assoc] at hbytes
    have hin : SfInput P s 0 es (bigEndian 4 tb ++ payload) :=
      ⟨hcap, hsfTable, hcode, by omega, by omega, hkeys, by rwa [Nat.zero_add]⟩
    exact runOp_failedWith (hin.sfDec_full hntb htb hn hlong)
  · intro ts tc rest y hle hlt hreplay hlong hbytes
    obtain ⟨ahead, rfl⟩ := Nat.exists_eq_add_of_le hle
    have hne : ts ≠ [] := by
      rintro rfl
      cases hreplay
      exact absurd hlong (Nat.not_lt_zero _)
    have hpos := List.length_pos_iff.mpr hne
    have hin : Lz77Input P s ahead ts y rest := ⟨hcap, by omega, hlt, hreplay, hbytes⟩
    exact runOp_failedWith (hin.lz77Dec_full hlong)
  · intro cs cc rest y hle hlt hcodes hdecoded hlong hbytes
    obtain ⟨ahead, rfl⟩ := Nat.exists_eq_add_of_le' hle
    have hin : LzwInput P s ahead cs y rest := ⟨hcap, hlt, hcodes, hdecoded, hbytes⟩
    exact runOp_failedWith (hin.lzwDec_full (outCap_pos_of_wf hwf) hlong)

end Sys2Proof.Machine
end

section
/-! PROOFS. The entropy of a frequency table (O27): it is the entropy of the distribution of the counters, at least 0 term by term,
and at most that of the uniform distribution by Jensen's inequality. -/

namespace Sys2Proof.Machine

/-- A sum over the counters, in any order (R28). -/
theorem sum_freqTable {β : Type} [AddCommMonoid β] (f : FreqTable) (g : BitVec cntW → β) :
    (f.toList.map g).sum = ∑ c ∈ symbols.toFinset, g (countOf f c) := by
  rw [freqTable_toList, List.map_map, List.sum_toFinset _ symbols_nodup]
  rfl

theorem card_symbols : symbols.toFinset.card = 256 := by
  rw [List.toFinset_card_of_nodup symbols_nodup]
  simp [symbols]

/-- The share `p` of a symbol in the total of a table (R124). -/
noncomputable def share (f : FreqTable) (c : Byte) : ℝ := (countOf f c).toNat / total f

theorem share_nonneg (f : FreqTable) (c : Byte) : 0 ≤ share f c := by
  unfold share
  positivity

theorem sum_share {f : FreqTable} (h : total f ≠ 0) : ∑ c ∈ symbols.toFinset, share f c = 1 := by
  have htotal : total f = ∑ c ∈ symbols.toFinset, (countOf f c).toNat := sum_freqTable f BitVec.toNat
  unfold share
  rw [← Finset.sum_div, ← Nat.cast_sum, ← htotal]
  exact div_self (Nat.cast_ne_zero.mpr h)

/-- A counter of 0 is no exception to the term of the others. -/
theorem entropyTerm_eq (t c : Nat) : entropyTerm t c = Real.negMulLog (c / t) / Real.log 2 := by
  unfold entropyTerm
  split
  · next h => simp [h]
  · rw [Real.negMulLog, Real.logb]
    ring

theorem entropy_eq {f : FreqTable} (h : total f ≠ 0) :
    entropy f = (∑ c ∈ symbols.toFinset, Real.negMulLog (share f c)) / Real.log 2 := by
  rw [entropy, if_neg h, sum_freqTable f fun c => entropyTerm (total f) c.toNat, Finset.sum_div]
  exact Finset.sum_congr rfl fun c _ => entropyTerm_eq _ _

/-- The entropy of a distribution over `n` outcomes is at most that of the uniform one. -/
theorem sum_negMulLog_le {ι : Type} {A : Finset ι} {p : ι → ℝ} (hA : A.Nonempty) (hp : ∀ i ∈ A, 0 ≤ p i)
    (hsum : ∑ i ∈ A, p i = 1) : ∑ i ∈ A, Real.negMulLog (p i) ≤ Real.log A.card := by
  have hcard : (0 : ℝ) < A.card := Nat.cast_pos.mpr hA.card_pos
  have hjensen := Real.concaveOn_negMulLog.le_map_sum (t := A) (w := fun _ => (A.card : ℝ)⁻¹) (p := p)
    (fun _ _ => by positivity) (by simp [hcard.ne']) hp
  rw [← Finset.smul_sum, ← Finset.smul_sum, hsum, smul_eq_mul, smul_eq_mul, mul_one, Real.negMulLog, Real.log_inv,
    neg_mul_neg] at hjensen
  exact le_of_mul_le_mul_left hjensen (inv_pos.mpr hcard)

/-- Settles O27: the terms are not negative, and 256 symbols have at most the entropy `log 256 / log 2`. -/
theorem entropyBounds : Obligations.EntropyBounds := by
  unfold Obligations.EntropyBounds
  intro f
  refine ⟨fun h => if_pos h, ?_⟩
  by_cases h : total f = 0
  · rw [show entropy f = 0 from if_pos h]
    norm_num
  · have hlog : 0 < Real.log 2 := Real.log_pos one_lt_two
    have hshare : ∀ c ∈ symbols.toFinset, share f c ≤ 1 := fun c hc =>
      (Finset.single_le_sum (fun d _ => share_nonneg f d) hc).trans (sum_share h).le
    have hbound := sum_negMulLog_le ⟨0, List.mem_toFinset.mpr (mem_symbols 0)⟩ (fun c _ => share_nonneg f c) (sum_share h)
    have h256 : Real.log (symbols.toFinset.card : ℝ) = 8 * Real.log 2 := by
      rw [card_symbols, show ((256 : ℕ) : ℝ) = 2 ^ 8 by norm_num, Real.log_pow]
      norm_num
    rw [entropy_eq h, div_le_iff₀ hlog]
    exact ⟨div_nonneg (Finset.sum_nonneg fun c hc => Real.negMulLog_nonneg (share_nonneg f c) (hshare c hc)) hlog.le,
      hbound.trans h256.le⟩

end Sys2Proof.Machine
end

section
/-! PROOFS. The bounds of the working state. In the course of an operation the cursors stay within `IN_LEN` and `OUT_CAP` and the
tables within their sizes, and what is written to `OUT` is known; from this follow the bounds after every step (O21) and after a
reset (O19), and the value of `OUT_LEN` at a successful end (O15). -/

namespace Sys2Proof.Machine

/-! ### The working state of an operation under way (R22, R30 to R37) -/

/-- The tables of the working state: it without its phase, cursors, buffers and accumulator. -/
def Work.tables (w : Work) : Work :=
  { Work.init with
    nodes := w.nodes, queue := w.queue, codes := w.codes, tree := w.tree, sfList := w.sfList, sfStack := w.sfStack,
    sfMap := w.sfMap, dict := w.dict }

theorem Work.bounded_of_tables {P : Params} {w : Work} (h : w.tables.Bounded P) (hrp : w.rp ≤ P.inCap) (hwp : w.wp ≤ P.outCap)
    (hbits : w.bitcnt ≤ 8) : w.Bounded P :=
  { h with rp_cap := hrp, wp_cap := hwp, bitcnt_le := hbits }

theorem Work.init_bounded (P : Params) : Work.init.Bounded P where
  rp_cap := Nat.zero_le _
  wp_cap := Nat.zero_le _
  bitcnt_le := Nat.zero_le _
  nodes_le := Nat.zero_le _
  queue_le := Nat.zero_le _
  code_le c := by simp [Work.init, codeOf]
  tree_le := Nat.zero_le _
  sfList_le := Nat.zero_le _
  sfStack_le := Nat.zero_le _
  sfMap_le := Nat.zero_le _
  sfKey_le e he := absurd he List.not_mem_nil
  dict_le := Nat.zero_le _
  dict_string e he := absurd he List.not_mem_nil

/-- Below the write cursor every byte of `OUT` is known, and `OUT` is in canonical form and within its capacity (R25). -/
structure OutKnown (P : Params) (m : Mem) (wp : Nat) : Prop where
  wf : m.wf = true
  below : m.below P.outCap = true
  listed : ∀ a < wp, m.listed a

theorem OutKnown.write {P : Params} {m : Mem} {wp : Nat} (h : OutKnown P m wp) (b : Byte) (hwp : wp < P.outCap) :
    OutKnown P (m.write wp b) (wp + 1) where
  wf := Mem.wf_write wp b h.wf
  below := Mem.below_write b h.below hwp
  listed a ha := (m.listed_write wp a b).mpr ((Nat.lt_succ_iff_lt_or_eq.mp ha).symm.imp_right (h.listed a))

/-- An operation is under way, its input being within `IN_CAP`: the working state is within its bounds, its tables meet `p`, and,
if `OUT` was sound at the start of the operation (`G`), it still is. -/
structure Running (P : Params) (G : Prop) (p : Work → Prop) (s : State) : Prop where
  tables : p s.work.tables
  bounded : s.work.tables.Bounded P
  in_cap : s.inLen.toNat ≤ P.inCap
  rp_le : s.work.rp ≤ s.inLen.toNat
  wp_le : s.work.wp ≤ P.outCap
  bitcnt_le : s.work.bitcnt ≤ 7
  out : G → OutKnown P s.outMem s.work.wp

section

variable {P : Params} {G : Prop} {p q : Work → Prop} {s : State}

theorem Running.work_bounded (h : Running P G p s) : s.work.Bounded P :=
  Work.bounded_of_tables h.bounded (h.rp_le.trans h.in_cap) h.wp_le (h.bitcnt_le.trans (by decide))

theorem Running.mono (h : Running P G p s) (hpq : p s.work.tables → q s.work.tables) : Running P G q s :=
  { h with tables := hpq h.tables }

/-- Another working state with the same write cursor. -/
theorem Running.withWork (h : Running P G p s) {w : Work} (htables : q w.tables) (hbounded : w.tables.Bounded P)
    (hrp : w.rp ≤ s.inLen.toNat) (hwp : w.wp = s.work.wp) (hbits : w.bitcnt ≤ 7) : Running P G q { s with work := w } :=
  ⟨htables, hbounded, h.in_cap, hrp, hwp.trans_le h.wp_le, hbits, fun hG => hwp ▸ h.out hG⟩

theorem Running.withFreq (h : Running P G p s) (f : FreqTable) : Running P G p { s with freq := f } := { h with }

theorem Running.advance (h : Running P G p s) {n : Nat} (hn : s.work.rp + n ≤ s.inLen.toNat) : Running P G p (s.advance n) :=
  h.withWork h.tables h.bounded hn rfl h.bitcnt_le

end

/-- A change of the working state that leaves the cursors, and puts no bit into the bit packer. -/
structure KeepsCursors (f : Work → Work) : Prop where
  rp : ∀ w, (f w).rp = w.rp := by intro; rfl
  wp : ∀ w, (f w).wp = w.wp := by intro; rfl
  bitcnt : ∀ w, (f w).bitcnt ≤ w.bitcnt := by intro; exact le_rfl

/-! ### Rules for a computation of the engine -/

section

variable {α β : Type} {P : Params}

/-- From a state in `I` the computation goes on to a result in `Q`, or raises with the working state within its bounds. -/
def Ends (P : Params) (I : State → Prop) (m : Eng α) (Q : α → State → Prop) : Prop :=
  ∀ s, I s → match m s with
    | .ok a t => Q a t
    | .error _ t => t.work.Bounded P

/-- The computation keeps the bounds, and does not touch the tables. -/
def Steady (P : Params) (G : Prop) (m : Eng α) : Prop := ∀ p, Ends P (Running P G p) m fun _ => Running P G p

namespace Ends

variable {I J : State → Prop} {Q R : α → State → Prop} {S : β → State → Prop}

theorem of_ok_or_error {m : Eng α}
    (h : ∀ s, I s → (∃ a t, m s = .ok a t ∧ Q a t) ∨ ∃ e t, m s = .error e t ∧ t.work.Bounded P) :
    Ends P I m Q := by
  intro s hs
  rcases h s hs with ⟨a, t, hm, ht⟩ | ⟨e, t, hm, ht⟩ <;> rwa [hm]

theorem ok {m : Eng α} {s t : State} {a : α} (h : Ends P I m Q) (hs : I s) (hm : m s = .ok a t) : Q a t := by
  have := h s hs
  rwa [hm] at this

theorem error {m : Eng α} {s t : State} {e : ErrKind} (h : Ends P I m Q) (hs : I s) (hm : m s = .error e t) :
    t.work.Bounded P := by
  have := h s hs
  rwa [hm] at this

theorem bind {m : Eng α} {f : α → Eng β} (hm : Ends P I m Q) (hf : ∀ a, Ends P (Q a) (f a) S) : Ends P I (m >>= f) S := by
  intro s hs
  cases h : m s with
  | ok a u =>
    rw [bind_of_ok h]
    exact hf a u (hm.ok hs h)
  | error e u =>
    rw [bind_of_error h]
    exact hm.error hs h

theorem mono {m : Eng α} (h : Ends P I m Q) (hpre : ∀ s, J s → I s) (hpost : ∀ a t, Q a t → R a t) : Ends P J m R := by
  intro s hs
  cases hm : m s with
  | ok a u => exact hpost a u (h.ok (hpre s hs) hm)
  | error e u => exact h.error (hpre s hs) hm

theorem pure (a : α) : Ends P (Q a) (Pure.pure a) Q := fun _ hs => hs

theorem ite {c : Prop} [Decidable c] {m n : Eng α} (hm : c → Ends P I m Q) (hn : ¬ c → Ends P I n Q) :
    Ends P I (if c then m else n) Q := by
  split
  · next h => exact hm h
  · next h => exact hn h

section

variable {G : Prop} {p q : Work → Prop} {T : α → State → Prop}

theorem raise {e : ErrKind} : Ends P (Running P G p) (Machine.raise e) T := fun _ hs => hs.work_bounded

/-- What follows a look at the working state may use what its tables meet. -/
theorem getWork_bind {f : Work → Eng α} (h : ∀ w, p w.tables → Ends P (Running P G (· = w.tables)) (f w) T) :
    Ends P (Running P G p) (Machine.getWork >>= f) T := fun s hs => h s.work hs.tables s { hs with tables := rfl }

theorem get_bind {f : State → Eng α} (h : ∀ s, p s.work.tables → Ends P (Running P G p) (f s) T) :
    Ends P (Running P G p) (MonadState.get >>= f) T := fun s hs => h s hs.tables s hs

/-- A change of the tables, to others within the bounds. -/
theorem changeWork {f : Work → Work} (hf : KeepsCursors f)
    (h : ∀ w, p w.tables → w.tables.Bounded P → q (f w).tables ∧ (f w).tables.Bounded P) :
    Ends P (Running P G p) (Machine.changeWork f) fun _ => Running P G q := by
  intro s hs
  obtain ⟨hq, hb⟩ := h s.work hs.tables hs.bounded
  exact hs.withWork hq hb ((hf.rp _).trans_le hs.rp_le) (hf.wp _) ((hf.bitcnt _).trans hs.bitcnt_le)

end

end Ends

/-! ### What leaves the tables -/

namespace Steady

variable {G : Prop}

theorem bind {m : Eng α} {f : α → Eng β} (hm : Steady P G m) (hf : ∀ a, Steady P G (f a)) : Steady P G (m >>= f) :=
  fun p => (hm p).bind fun a => hf a p

theorem pure (a : α) : Steady P G (Pure.pure a : Eng α) := fun _ _ hs => hs

theorem get : Steady P G (MonadState.get : Eng State) := fun _ _ hs => hs

theorem getWork : Steady P G Machine.getWork := fun _ _ hs => hs

theorem raise (e : ErrKind) : Steady P G (Machine.raise e : Eng α) := fun _ => Ends.raise

theorem ite {c : Prop} [Decidable c] {m n : Eng α} (hm : Steady P G m) (hn : Steady P G n) : Steady P G (if c then m else n) :=
  fun p => Ends.ite (fun _ => hm p) fun _ => hn p

theorem changeWork {f : Work → Work} (hf : KeepsCursors f) (htables : ∀ w, (f w).tables = w.tables) :
    Steady P G (Machine.changeWork f) := fun p => Ends.changeWork hf fun w hp hb => by
  rw [htables w]
  exact ⟨hp, hb⟩

theorem phase (x : Phase) : Steady P G (Machine.phase x) :=
  changeWork (f := fun w => { w with phase := x }) {} fun _ => rfl

theorem startBits : Steady P G Machine.startBits :=
  changeWork { bitcnt := fun _ => Nat.zero_le _ } fun _ => rfl

theorem startPayload : Steady P G Machine.startPayload :=
  changeWork {} fun _ => rfl

theorem clearFreq : Steady P G Machine.clearFreq := fun _ _ hs => hs.withFreq _

theorem countInput : Steady P G Machine.countInput := fun _ _ hs => hs.withFreq _

theorem inByte : Steady P G Machine.inByte := fun p => Ends.of_ok_or_error fun s hs => by
  by_cases hlt : s.work.rp < s.inLen.toNat
  · exact .inl ⟨_, _, if_pos hlt, hs.advance hlt⟩
  · exact .inr ⟨_, _, if_neg hlt, hs.work_bounded⟩

theorem inU (n : Nat) : Steady P G (Machine.inU n) := fun p => Ends.of_ok_or_error fun s hs => by
  by_cases hle : s.work.rp + n ≤ s.inLen.toNat
  · exact .inl ⟨_, _, if_pos hle, hs.advance hle⟩
  · exact .inr ⟨_, _, if_neg hle, hs.work_bounded⟩

theorem getBit : Steady P G Machine.getBit := fun p => Ends.of_ok_or_error fun s hs => by
  by_cases hlt : s.work.base + s.work.brp / 8 < s.inLen.toNat
  · exact .inl ⟨_, _, if_pos hlt, hs.withWork hs.tables hs.bounded hs.rp_le rfl hs.bitcnt_le⟩
  · exact .inr ⟨_, _, if_neg hlt, hs.work_bounded⟩

theorem inBytesN : ∀ n, Steady P G (Machine.inBytesN n)
  | 0 => pure _
  | n + 1 => inByte.bind fun _ => (inBytesN n).bind fun _ => pure _

theorem outByte (b : Byte) : Steady P G (Machine.outByte P b) := fun p => Ends.of_ok_or_error fun s hs => by
  by_cases hlt : s.work.wp < P.outCap
  · exact .inl ⟨_, _, if_pos hlt, { hs with wp_le := hlt, out := fun hG => (hs.out hG).write b hlt }⟩
  · exact .inr ⟨_, _, if_neg hlt, hs.work_bounded⟩

theorem outString : ∀ l, Steady P G (Machine.outString P l)
  | [] => pure _
  | b :: l => (outByte b).bind fun _ => outString l

theorem outU (n v : Nat) : Steady P G (Machine.outU P n v) := fun p s hs => by
  unfold Machine.outU
  by_cases hle : s.work.wp + n ≤ P.outCap
  · rw [if_pos hle]
    exact outString _ p s hs
  · rw [if_neg hle]
    exact hs.work_bounded

/-- The eighth bit empties the bit packer again, unless `OUT` is full. -/
theorem putBit (b : Bool) : Steady P G (Machine.putBit P b) := fun p => Ends.of_ok_or_error fun s hs => by
  have hrun : Machine.putBit P b s = (if s.work.bitcnt + 1 = 8
      then Machine.outByte P (s.work.bitbuf ||| (BitVec.ofNat 8 b.toNat <<< (7 - s.work.bitcnt))) >>= fun _ => Machine.startBits
      else Pure.pure () : Eng Unit)
        (s.withBuffer (s.work.bitbuf ||| (BitVec.ofNat 8 b.toNat <<< (7 - s.work.bitcnt))) (s.work.bitcnt + 1)) := rfl
  generalize s.work.bitbuf ||| (BitVec.ofNat 8 b.toNat <<< (7 - s.work.bitcnt)) = buf at hrun
  have hbits := hs.bitcnt_le
  have hbuf : ∀ {t : State} {d n}, Running P G p t → n ≤ 7 → Running P G p (t.withBuffer d n) :=
    fun ht hn => ht.withWork ht.tables ht.bounded ht.rp_le rfl hn
  rw [hrun]
  by_cases h8 : s.work.bitcnt + 1 = 8
  · rw [if_pos h8]
    by_cases hlt : s.work.wp < P.outCap
    · have hout : Running P G p (s.wrote [buf]) := (outByte buf p).ok hs (if_pos hlt)
      have hwritten : Machine.outByte P buf (s.withBuffer buf (s.work.bitcnt + 1)) =
          .ok () ((s.wrote [buf]).withBuffer buf (s.work.bitcnt + 1)) := if_pos hlt
      exact .inl ⟨(), (s.wrote [buf]).withBuffer 0 0, (bind_of_ok hwritten).trans (startBits_run _), hbuf hout (Nat.zero_le 7)⟩
    · exact .inr ⟨_, _, bind_of_error (if_neg hlt),
        Work.bounded_of_tables hs.bounded (hs.rp_le.trans hs.in_cap) hs.wp_le h8.le⟩
  · rw [if_neg h8]
    exact .inl ⟨(), _, rfl, hbuf hs (by omega)⟩

theorem putBits : ∀ c, Steady P G (Machine.putBits P c)
  | [] => pure _
  | b :: c => (putBit b).bind fun _ => putBits c

theorem flushBits : Steady P G (Machine.flushBits P) :=
  getWork.bind fun _ => ite ((outByte _).bind fun _ => startBits) (pure _)

theorem putCodes (t : CodeTable) : ∀ x, Steady P G (Machine.putCodes P t x)
  | [] => pure _
  | _ :: x => (putBits _).bind fun _ => putCodes t x

theorem codedPayload : Steady P G (Machine.codedPayload P) :=
  (phase _).bind fun _ => startBits.bind fun _ => get.bind fun _ => (putCodes _ _).bind fun _ => flushBits

theorem huffHeader : Steady P G (Machine.huffHeader P) :=
  (phase _).bind fun _ => get.bind fun _ => (outU _ _).bind fun _ => outU _ _

theorem huffEntries (t : CodeTable) : ∀ l, Steady P G (Machine.huffEntries P t l)
  | [] => pure _
  | _ :: l => (outByte _).bind fun _ => (outByte _).bind fun _ => (outString _).bind fun _ => huffEntries t l

theorem huffTable : Steady P G (Machine.huffTable P) := (phase _).bind fun _ => get.bind fun _ => huffEntries _ _

theorem sfEntries (t : CodeTable) : ∀ l, Steady P G (Machine.sfEntries P t l)
  | [] => pure _
  | _ :: l => (outByte _).bind fun _ => (outU _ _).bind fun _ => (outString _).bind fun _ => sfEntries t l

theorem sfTable : Steady P G (Machine.sfTable P) :=
  (phase _).bind fun _ => get.bind fun _ => (outU _ _).bind fun _ => sfEntries _ _

theorem sfBitCount : Steady P G (Machine.sfBitCount P) :=
  (phase _).bind fun _ => get.bind fun _ => ite (raise _) (outU _ _)

theorem outTokens : ∀ l, Steady P G (Machine.outTokens P l)
  | [] => pure _
  | _ :: l => (outByte _).bind fun _ => (outByte _).bind fun _ => (outByte _).bind fun _ => outTokens l

theorem outCodes : ∀ l, Steady P G (Machine.outCodes P l)
  | [] => pure _
  | _ :: l => (outU _ _).bind fun _ => outCodes l

theorem copyBack : ∀ n a, Steady P G (Machine.copyBack P n a)
  | 0, _ => pure _
  | n + 1, a => get.bind fun _ => (outByte _).bind fun _ => copyBack n (a + 1)

theorem replayToken : Steady P G (Machine.replayToken P) :=
  inByte.bind fun _ => inByte.bind fun _ => inByte.bind fun _ => getWork.bind fun _ =>
    ite (raise _) ((copyBack _ _).bind fun _ => outByte _)

theorem replayTokens : ∀ n, Steady P G (Machine.replayTokens P n)
  | 0 => pure _
  | n + 1 => replayToken.bind fun _ => replayTokens n

theorem huffWalk : ∀ fuel left v, Steady P G (Machine.huffWalk P fuel left v)
  | _, 0, _ => by
    simp only [Machine.huffWalk]
    exact pure _
  | 0, _ + 1, _ => raise _
  | fuel + 1, left + 1, v => by
    simp only [Machine.huffWalk]
    refine getBit.bind fun d => getWork.bind fun w => ?_
    split
    · exact raise _
    · split
      · exact (outByte _).bind fun _ => huffWalk fuel left 0
      · exact huffWalk fuel (left + 1) _

theorem changeAcc (f : List Byte → List Byte) : Steady P G (Machine.changeWork fun w => { w with sfAcc := f w.sfAcc }) :=
  changeWork {} fun _ => rfl

theorem sfScanBit : Steady P G (Machine.sfScanBit P) := by
  refine getBit.bind fun d => (changeAcc (· ++ [0x30 + BitVec.ofNat 8 d.toNat])).bind fun _ => getWork.bind fun w => ?_
  split
  · exact (outByte _).bind fun _ => changeAcc fun _ => []
  · exact pure _

theorem sfScan : ∀ n, Steady P G (Machine.sfScan P n)
  | 0 => pure _
  | n + 1 => sfScanBit.bind fun _ => sfScan n

end Steady

/-! ### What changes the tables -/

namespace Ends

variable {G : Prop} {p : Work → Prop}

theorem of_steady {α : Type} {m : Eng α} (h : Steady P G m) : Ends P (Running P G p) m fun _ => Running P G fun _ => True :=
  (h p).mono (fun _ hs => hs) fun _ _ ht => ht.mono fun _ => trivial

/-- A change of one table, to another within its bounds. -/
theorem changeTable {f : Work → Work} {q : Work → Prop} (hf : KeepsCursors f) (hq : ∀ w, q (f w).tables)
    (hb : ∀ w, p w.tables → w.tables.Bounded P → (f w).tables.Bounded P) :
    Ends P (Running P G p) (Machine.changeWork f) fun _ => Running P G q :=
  changeWork hf fun w hp hw => ⟨hq w, hb w hp hw⟩

end Ends

/-! ### The Huffman arenas (R31, R34) -/

/-- The merge loop never empties the queue (R134). -/
theorem huffMerge_queue_pos : ∀ (fuel : Nat) {nodes : List HuffNode} {q : List Nat}, 0 < q.length →
    0 < (huffMerge fuel nodes q).2.length
  | 0, _, _, h => h
  | _ + 1, _, [], h => h
  | _ + 1, _, [_], h => h
  | fuel + 1, _, _ :: _ :: _, _ => huffMerge_queue_pos fuel (by
      rw [(enqueue_perm _ _ _).length_eq]
      exact Nat.succ_pos _)

theorem huffBuild_sizes (f : FreqTable) : (huffBuild f).1.length ≤ 511 ∧ (huffBuild f).2.length ≤ 256 := by
  have hstate := huffBuild_mergeState f
  have hsize := hstate.size
  have hleaves := hstate.leaves
  have hn : (present f).length ≤ 256 := present_length_le f
  have hpos : 0 < (present f).length → 0 < (huffBuild f).2.length := fun h => huffMerge_queue_pos _ (by
    rwa [(huffQueue_perm _ _).length_eq, List.length_range, huffLeaves_length])
  omega

/-- The phases `BUILD` and `CODEGEN` leave an arena, a queue and a code table within their bounds (R31 to R33, R138). -/
theorem Ends.huffTables {G : Prop} {p : Work → Prop} {m : Eng Unit} (hm : Steady P G m) :
    Ends P (Running P G p) (huffBuildPhase >>= fun _ => huffCodegenPhase >>= fun _ => m) fun _ => Running P G fun _ => True := by
  intro s hs
  obtain ⟨hnodes, hqueue⟩ := huffBuild_sizes s.freq
  rw [bind_of_ok (huffBuildPhase_run s), bind_of_ok (huffCodegenPhase_run rfl)]
  have hcodes : ∀ c, (codeOf (huffCodes s.freq) c).length ≤ 255 := huffCodes_length_le s.freq
  exact hm _ _ (hs.withWork trivial { hs.bounded with nodes_le := hnodes, queue_le := hqueue, code_le := hcodes } hs.rp_le rfl
    hs.bitcnt_le)

/-- The work list, the work stack and the codes of the phases `SORT` and `BISECT` are within their bounds (R35, R199 a). -/
theorem Ends.sfTables {G : Prop} {p : Work → Prop} {m : Eng Unit} (hm : Steady P G m) :
    Ends P (Running P G p) (sfSortPhase >>= fun _ => sfBisectPhase P >>= fun _ => m) fun _ => Running P G fun _ => True := by
  intro s hs
  have hsort : sfSortPhase s = .ok () { s with work := { s.work with phase := .sort, sfList := sfSorted s.freq } } := rfl
  have hlist : (sfSorted s.freq).length ≤ 256 := (sfSorted_length s.freq).trans_le (present_length_le s.freq)
  rw [bind_of_ok hsort, bind_of_ok (sfBisectPhase_run P (f := s.freq) rfl)]
  have hcodes : ∀ c, (codeOf (sfCodes P s.freq) c).length ≤ 255 := sfCodes_length_le P s.freq
  exact hm _ _ (hs.withWork trivial { hs.bounded with sfList_le := hlist, sfStack_le := Nat.zero_le _, code_le := hcodes }
    hs.rp_le rfl hs.bitcnt_le)

theorem setChild_length (tree : List DecNode) (v : Nat) (d : Bool) (w : Nat) : (setChild tree v d w).length = tree.length := by
  unfold setChild
  split
  · rw [List.length_set]
  · rfl

/-- R166: an insertion makes at most one node a bit. -/
theorem insertPath_length_le (sym : Byte) : ∀ (c : Bits) {tree t : List DecNode} {v : Nat}, insertPath tree sym v c = some t →
    t.length ≤ tree.length + c.length
  | [], _, _, _, h => by
    cases h
    exact le_rfl
  | [d], tree, t, v, h => by
    rw [insertPath] at h
    split at h
    · cases h
    · cases h
      rw [setChild_length, List.length_append]
      exact le_rfl
  | d :: e :: c, tree, t, v, h => by
    rw [insertPath] at h
    split at h
    · have hle := insertPath_length_le sym (e :: c) h
      rw [setChild_length, List.length_append, List.length_singleton] at hle
      rw [List.length_cons]
      omega
    · split at h
      · cases h
      · have hle := insertPath_length_le sym (e :: c) h
        rw [List.length_cons]
        omega

namespace Ends

variable {G : Prop} {k : Nat}

/-- One table entry of `HUFF.DEC` makes at most 255 nodes (R34, R163). -/
theorem huffReadEntry (hroom : k + 255 ≤ 1 + P.hdecTableMax * 255) :
    Ends P (Running P G fun w => w.tree.length ≤ k) Machine.huffReadEntry
      fun _ => Running P G fun w => w.tree.length ≤ k + 255 := by
  refine (Steady.inByte _).bind fun sym => (Steady.inByte _).bind fun len => ?_
  refine ite (fun _ => raise) fun _ => ?_
  refine (Steady.inBytesN _ _).bind fun bytes => getWork_bind fun w hw => ?_
  have hcode : (unpack len.toNat bytes).length ≤ 255 := (unpack_length _ _).trans_le (Nat.le_of_lt_succ len.isLt)
  split
  · next t ht =>
    have hle : t.length ≤ k + 255 := (insertPath_length_le sym _ ht).trans (Nat.add_le_add hw hcode)
    exact changeTable {} (fun _ => hle)
      fun _ _ hb => { hb with tree_le := hle.trans hroom }
  · exact raise

theorem huffReadTable : ∀ (n : Nat) {k : Nat}, k + 255 * n ≤ 1 + P.hdecTableMax * 255 →
    Ends P (Running P G fun w => w.tree.length ≤ k) (Machine.huffReadTable n) fun _ => Running P G fun _ => True
  | 0, _, _ => of_steady (Steady.pure ())
  | n + 1, k, hroom => by
    rw [Nat.mul_succ, Nat.add_comm (255 * n), ← Nat.add_assoc] at hroom
    exact (huffReadEntry ((Nat.le_add_right _ _).trans hroom)).bind fun _ => huffReadTable n hroom

end Ends

/-! ### The reverse map (R36) -/

/-- A key put into the map adds at most one entry. -/
theorem mapPut_length_le (key : List Byte) (sym : Byte) : ∀ m : List (List Byte × Byte),
    (mapPut key sym m).length ≤ m.length + 1
  | [] => le_rfl
  | (k, v) :: m => by
    unfold mapPut
    split
    · exact Nat.le_succ _
    · exact Nat.succ_le_succ (mapPut_length_le key sym m)

theorem mem_mapPut {key : List Byte} {sym : Byte} {e : List Byte × Byte} : ∀ {m : List (List Byte × Byte)},
    e ∈ mapPut key sym m → e.1 = key ∨ e ∈ m
  | [], h => .inl (congrArg Prod.fst (List.mem_singleton.mp h))
  | (k, v) :: m, h => by
    unfold mapPut at h
    split at h
    · exact (List.mem_cons.mp h).imp (congrArg Prod.fst) (List.mem_cons_of_mem _)
    · rcases List.mem_cons.mp h with rfl | h
      · exact .inr List.mem_cons_self
      · exact (mem_mapPut h).imp_right (List.mem_cons_of_mem _)

namespace Ends

variable {G : Prop} {k : Nat}

/-- The bytes read are as many as asked for. -/
theorem inBytesN {p : Work → Prop} : ∀ n, Ends P (Running P G p) (Machine.inBytesN n)
    fun l s => l.length = n ∧ Running P G p s
  | 0 => fun _ hs => ⟨rfl, hs⟩
  | n + 1 => (Steady.inByte p).bind fun _ => (inBytesN n).bind fun _ _ hs => ⟨congrArg (· + 1) hs.1, hs.2⟩

/-- One table entry of `SF.DEC` adds at most one key, of legal length (R36, R223). -/
theorem sfReadEntry (hroom : k + 1 ≤ P.sfdecTableMax) :
    Ends P (Running P G fun w => w.sfMap.length ≤ k) (Machine.sfReadEntry P)
      fun _ => Running P G fun w => w.sfMap.length ≤ k + 1 := by
  refine (Steady.inByte _).bind fun sym => (Steady.inU 2 _).bind fun len => ?_
  refine ite (fun _ => raise) fun hlen => (inBytesN len).bind fun str s hs => ?_
  obtain ⟨hstr, hs⟩ := hs
  refine changeWork (f := fun w => { w with sfMap := mapPut str sym w.sfMap }) (p := fun w => w.sfMap.length ≤ k) {}
    (fun w hw hb => ?_) s hs
  have hle : (mapPut str sym w.sfMap).length ≤ k + 1 := (mapPut_length_le str sym w.sfMap).trans (Nat.succ_le_succ hw)
  refine ⟨hle, { hb with sfMap_le := hle.trans hroom, sfKey_le := fun e he => ?_ }⟩
  rcases mem_mapPut he with h | h
  · rw [h, hstr]
    exact Nat.le_of_not_lt hlen
  · exact hb.sfKey_le e h

theorem sfReadTable : ∀ (n : Nat) {k : Nat}, k + n ≤ P.sfdecTableMax →
    Ends P (Running P G fun w => w.sfMap.length ≤ k) (Machine.sfReadTable P n) fun _ => Running P G fun _ => True
  | 0, _, _ => of_steady (Steady.pure ())
  | n + 1, _, hroom => (sfReadEntry (by omega)).bind fun _ => sfReadTable n (by omega)

end Ends

/-! ### The LZW dictionary (R37) -/

/-- An entry of at least 256 strings before it is of at most `4096 - 255` bytes (R37). -/
theorem LzwDict.bounded {w : Work} {d : List (List Byte)} (h : LzwDict d) (hb : w.Bounded P) :
    ({ w with dict := d } : Work).Bounded P :=
  { hb with
    dict_le := h.size.2
    dict_string := fun e he => by
      have hlen := h.length_of_mem he
      have hsize := h.size
      omega }

/-- Between two codes of `LZW.DEC`: the string before is shorter than the next entry may be (R283, R284). -/
structure LzwBetween (prev : List Byte) (d : List (List Byte)) : Prop where
  dict : LzwDict d
  pos : 1 ≤ prev.length
  le : d.length < 4096 → prev.length + 255 ≤ d.length

theorem lzwBetween_seed (b : Byte) : LzwBetween [b] lzwSeed := by
  refine ⟨lzwDict_seed, le_rfl, fun _ => ?_⟩
  rw [lzwSeed_length]
  exact le_rfl

/-- R284 to R286: the string of a code is an entry, or one byte longer than the string before. -/
theorem LzwBetween.next {prev cur : List Byte} {d : List (List Byte)} {c : Nat} (h : LzwBetween prev d)
    (hcur : lzwString d prev c = some cur) : LzwBetween cur (lzwAdd d (prev ++ cur.take 1)) := by
  obtain ⟨hdict, hpos, hle⟩ := h
  have hadd : LzwDict (lzwAdd d (prev ++ cur.take 1)) := hdict.add (by rw [List.length_append]; omega) fun hroom => by
    have htake := List.length_take_le 1 cur
    have := hle hroom
    rw [List.length_append]
    omega
  have hlen := lzwAdd_length (prev ++ cur.take 1) hdict.size.2
  rw [lzwString] at hcur
  split at hcur
  · have hmem := hdict.length_of_mem (List.mem_of_getElem? hcur)
    exact ⟨hadd, hmem.1, fun _ => by omega⟩
  · split at hcur
    · cases hcur
      have htake := List.length_take_le 1 prev
      refine ⟨hadd, by rw [List.length_append]; omega, fun hroom => ?_⟩
      have := hle (by omega)
      rw [List.length_append]
      omega
    · cases hcur

theorem Ends.lzwReplay {G : Prop} : ∀ (n : Nat) (prev : List Byte),
    Ends P (Running P G fun w => LzwBetween prev w.dict) (Machine.lzwReplay P n prev) fun _ => Running P G fun _ => True
  | 0, _ => of_steady (Steady.pure ())
  | n + 1, prev => by
    refine (Steady.inU 2 _).bind fun c => getWork_bind fun w hw => ?_
    split
    · exact raise
    · next cur hcur =>
      refine (Steady.outString cur _).bind fun _ => bind (changeWork (q := fun w => LzwBetween cur w.dict)
        {} fun w' hw' hb => ?_) fun _ => Ends.lzwReplay n cur
      have hdict : w'.tables.dict = w.tables.dict := congrArg Work.dict hw'
      have hnext : LzwBetween cur (lzwAdd w'.dict (prev ++ cur.take 1)) :=
        (show w'.dict = w.dict from hdict) ▸ LzwBetween.next hw hcur
      exact ⟨hnext, hnext.dict.bounded hb⟩

/-! ### The nine operations -/

/-- `OUT` before an operation, if `G` (R25). -/
def OutSound (P : Params) (G : Prop) (s : State) : Prop := G → s.outMem.wf = true ∧ s.outMem.below P.outCap = true

/-- Right after the initialisation of the working state (R22, R30). -/
structure Fresh (P : Params) (G : Prop) (s : State) : Prop where
  tables : s.work.tables = Work.init
  rp : s.work.rp = 0
  wp : s.work.wp = 0
  bitcnt : s.work.bitcnt = 0
  out : OutSound P G s

theorem Fresh.running {G : Prop} {s : State} (h : Fresh P G s) (hcap : s.inLen.toNat ≤ P.inCap) :
    Running P G (· = Work.init) s := by
  obtain ⟨htables, hrp, hwp, hbits, hout⟩ := h
  refine ⟨htables, htables ▸ Work.init_bounded P, hcap, by omega, by omega, by omega, fun hG => ?_⟩
  obtain ⟨hwf, hbelow⟩ := hout hG
  exact ⟨hwf, hbelow, fun a ha => by omega⟩

theorem Fresh.work_bounded {G : Prop} {s : State} (h : Fresh P G s) : s.work.Bounded P := by
  obtain ⟨htables, hrp, hwp, hbits, -⟩ := h
  exact Work.bounded_of_tables (htables ▸ Work.init_bounded P) (by omega) (by omega) (by omega)

namespace Ends

variable {G : Prop}

theorem beginOp : Ends P (OutSound P G) Machine.beginOp fun _ => Fresh P G := fun _ hs => ⟨rfl, rfl, rfl, rfl, hs⟩

theorem phase_fresh (x : Phase) : Ends P (Fresh P G) (Machine.phase x) fun _ => Fresh P G := fun _ hs => { hs with }

theorem checkRange : Ends P (Fresh P G) (Machine.checkRange P) fun _ => Running P G (· = Work.init) :=
  of_ok_or_error fun s hs => by
    by_cases hcap : s.inLen.toNat ≤ P.inCap
    · exact .inl ⟨(), s, (checkRange_run P s).1 hcap, hs.running hcap⟩
    · exact .inr ⟨_, s, (checkRange_run P s).2 (Nat.lt_of_not_le hcap), hs.work_bounded⟩

/-- How six of the operations begin: a phase, and the check of `IN_LEN` (R306). -/
theorem start {m : Eng Unit} {Q : Unit → State → Prop} (x : Phase) (hm : Ends P (Running P G (· = Work.init)) m Q) :
    Ends P (OutSound P G) (do Machine.beginOp; Machine.phase x; Machine.checkRange P; m) Q :=
  beginOp.bind fun _ => (phase_fresh _).bind fun _ => checkRange.bind fun _ => hm

theorem freqCount : Ends P (OutSound P G) (Machine.freqCount P) fun _ => Running P G fun _ => True :=
  beginOp.bind fun _ => checkRange.bind fun _ => of_steady <|
    (Steady.phase _).bind fun _ => Steady.clearFreq.bind fun _ => (Steady.phase _).bind fun _ => Steady.countInput

theorem huffEnc : Ends P (OutSound P G) (Machine.huffEnc P) fun _ => Running P G fun _ => True := by
  have hcheck : Ends P (Fresh P G) (huffCheck P) fun _ => Running P G (· = Work.init) :=
    (phase_fresh _).bind fun _ => checkRange.bind fun _ =>
      (Steady.clearFreq.bind fun _ => Steady.get.bind fun _ => Steady.ite (Steady.raise _) (Steady.pure _)) _
  exact beginOp.bind fun _ => hcheck.bind fun _ => (Steady.phase _ _).bind fun _ => (Steady.countInput _).bind fun _ =>
    huffTables (Steady.huffHeader.bind fun _ => Steady.huffTable.bind fun _ => Steady.codedPayload)

theorem huffDec : Ends P (OutSound P G) (Machine.huffDec P) fun _ => Running P G fun _ => True := by
  refine start _ ((Steady.inU 8 _).bind fun len => (Steady.inU 4 _).bind fun ts => ?_)
  refine ite (fun _ => raise) fun _ => ite (fun _ => raise) fun hts => ?_
  refine (Steady.phase _ _).bind fun _ => (changeTable (f := fun w => { w with tree := [.inner none none] })
    (q := fun w => w.tree.length ≤ 1) {} (fun _ => le_rfl)
    fun _ _ hb => { hb with tree_le := Nat.le_add_right _ _ }).bind fun _ => ?_
  refine (huffReadTable ts ?_).bind fun _ => of_steady <|
    (Steady.phase _).bind fun _ => Steady.startPayload.bind fun _ => Steady.get.bind fun _ => Steady.huffWalk _ _ _
  have := Nat.mul_le_mul_left 255 (Nat.le_of_not_lt hts)
  omega

theorem sfEnc : Ends P (OutSound P G) (Machine.sfEnc P) fun _ => Running P G fun _ => True := by
  have hcheck : Ends P (Fresh P G) (sfCheck P) fun _ => Running P G (· = Work.init) :=
    (phase_fresh _).bind fun _ => checkRange
  exact beginOp.bind fun _ => hcheck.bind fun _ => (Steady.phase _ _).bind fun _ => (Steady.clearFreq _).bind fun _ =>
    (Steady.countInput _).bind fun _ =>
    sfTables (Steady.sfTable.bind fun _ => Steady.sfBitCount.bind fun _ => Steady.codedPayload)

theorem sfDec : Ends P (OutSound P G) (Machine.sfDec P) fun _ => Running P G fun _ => True := by
  refine start _ ((Steady.inU 4 _).bind fun ts => ?_)
  refine ite (fun _ => of_steady (Steady.pure ())) fun _ => ite (fun _ => raise) fun hts => ?_
  have hempty : ∀ w : Work, w.Bounded P → ({ w with sfMap := [] } : Work).Bounded P := fun _ hb =>
    { hb with sfMap_le := Nat.zero_le _, sfKey_le := fun _ he => absurd he List.not_mem_nil }
  refine (Steady.phase _ _).bind fun _ => (changeTable (f := fun w => { w with sfMap := [] })
    (q := fun w => w.sfMap.length ≤ 0) {} (fun _ => le_rfl)
    fun w _ hb => hempty w.tables hb).bind fun _ => ?_
  refine (sfReadTable ts (by omega)).bind fun _ => of_steady <|
    (Steady.phase _).bind fun _ => (Steady.inU 4).bind fun _ => (Steady.phase _).bind fun _ => Steady.startPayload.bind fun _ =>
    (Steady.changeAcc fun _ => []).bind fun _ => Steady.sfScan _

theorem lz77Enc : Ends P (OutSound P G) (Machine.lz77Enc P) fun _ => Running P G fun _ => True :=
  start _ <| of_steady <| (Steady.phase _).bind fun _ => Steady.get.bind fun _ => (Steady.phase _).bind fun _ =>
    (Steady.outU _ _).bind fun _ => Steady.outTokens _

theorem lz77Dec : Ends P (OutSound P G) (Machine.lz77Dec P) fun _ => Running P G fun _ => True :=
  start _ <| of_steady <| (Steady.inU 4).bind fun _ => Steady.ite (Steady.raise _) <|
    (Steady.phase _).bind fun _ => Steady.replayTokens _

/-- The phase `SEED` (R271, R282). -/
theorem seed {p : Work → Prop} : Ends P (Running P G p) (Machine.changeWork fun w => { w with dict := lzwSeed })
    fun _ => Running P G fun w => w.dict = lzwSeed :=
  changeTable {} (fun _ => rfl) fun w _ hb => lzwDict_seed.bounded (w := w.tables) hb

theorem lzwEnc : Ends P (OutSound P G) (Machine.lzwEnc P) fun _ => Running P G fun _ => True := by
  refine start _ ((Steady.phase _ _).bind fun _ => seed.bind fun _ => (Steady.phase _ _).bind fun _ => get_bind fun s hs => ?_)
  have hdict : LzwDict (lzwScan s.inBytes s.work.dict []).2.1 := by
    rw [show s.work.dict = lzwSeed from hs]
    exact lzwScan_seed_dict s.inBytes
  exact (changeTable (f := fun w => { w with dict := (lzwScan s.inBytes s.work.dict []).2.1 }) (q := fun _ => True) {}
    (fun _ => trivial) fun w _ hb => hdict.bounded (w := w.tables) hb).bind fun _ => of_steady <|
      (Steady.phase _).bind fun _ => (Steady.phase _).bind fun _ => (Steady.outU _ _).bind fun _ => Steady.outCodes _

theorem lzwDec : Ends P (OutSound P G) (Machine.lzwDec P) fun _ => Running P G fun _ => True := by
  refine start _ ((Steady.inU 4 _).bind fun cc => ite (fun _ => raise) fun _ => ?_)
  refine (Steady.phase _ _).bind fun _ => seed.bind fun _ => (Steady.phase _ _).bind fun _ => (Steady.inU 2 _).bind fun c => ?_
  refine ite (fun _ => raise) fun _ => ?_
  refine (Steady.outString _ _).bind fun _ => (Steady.phase _ _).bind fun _ => ?_
  refine (lzwReplay (cc - 1) [BitVec.ofNat 8 c]).mono (fun s hs => hs.mono fun hdict => ?_) fun _ _ ht => ht
  rw [hdict]
  exact lzwBetween_seed _

/-- Every operation keeps the working state within its bounds, whether it goes on to its last phase or raises. -/
theorem phases (i : Instr) : Ends P (OutSound P G) (Machine.phases P i) fun _ => Running P G fun _ => True := by
  cases i
  · exact freqCount
  · exact huffEnc
  · exact huffDec
  · exact sfEnc
  · exact sfDec
  · exact lz77Enc
  · exact lz77Dec
  · exact lzwEnc
  · exact lzwDec

end Ends

end

/-! ### The ends of an operation (R302, R304) -/

theorem params_outCap_lt : params.outCap < 2 ^ 64 := by decide

/-- R302: the write cursor is the length of the output. -/
theorem lastPhase_outLen {i : Instr} (hi : i ≠ .freqCount) {u : State} (hwp : u.work.wp ≤ params.outCap) :
    (lastPhase i u).outLen.toNat = (lastPhase i u).work.wp := by
  have hcoded : ∀ k, (u.finishCoded k).outLen.toNat = (u.finishCoded k).work.wp := fun k => by
    rw [State.finishCoded_outLen, State.finishCoded_work, BitVec.toNat_ofNat, Nat.mod_eq_of_lt (hwp.trans_lt params_outCap_lt)]
  cases i with
  | freqCount => exact absurd rfl hi
  | huffEnc | sfEnc => exact hcoded true
  | huffDec | sfDec | lz77Enc | lz77Dec | lzwEnc | lzwDec => exact hcoded false

/-- Settles O15: the write cursor is within `OUT_CAP`, so `OUT_LEN` holds it. -/
theorem successfulEndRegisters : Obligations.SuccessfulEndRegisters := by
  unfold Obligations.SuccessfulEndRegisters
  intro i s t h hdone
  rw [exec_eq] at h
  obtain ⟨u, hu, rfl⟩ | ⟨e, u, hu, rfl⟩ := runOp_cases h
  · have hend := (Ends.phases (G := False) i).ok (fun hG => hG.elim) hu
    refine ⟨lastPhase_err i u, fun hi => ?_, fun hi => lastPhase_outLen hi hend.wp_le⟩
    subst hi
    rfl
  · rw [State.raiseError_status] at hdone
    exact absurd hdone (by decide)

/-! ### Every step (R22, R31 to R37) -/

theorem Work.Bounded.withPhase {P : Params} {w : Work} (h : w.Bounded P) (x : Phase) : ({ w with phase := x } : Work).Bounded P :=
  { h with }

theorem lastPhase_work_bounded {P : Params} (i : Instr) {u : State} (h : u.work.Bounded P) : (lastPhase i u).work.Bounded P := by
  cases i <;> exact h.withPhase .finish

theorem exec_work_bounded {i : Instr} {s t : State} (h : exec i s = .next t) : t.work.Bounded params := by
  have hends := Ends.phases (P := params) (G := False) i
  rw [exec_eq] at h
  obtain ⟨u, hu, rfl⟩ | ⟨e, u, hu, rfl⟩ := runOp_cases h
  · exact lastPhase_work_bounded i (hends.ok (fun hG => hG.elim) hu).work_bounded
  · rw [State.raiseError_work]
    exact hends.error (fun hG => hG.elim) hu

theorem State.drawnResult_work (P : Params) (s : State) : (s.drawnResult P).work = s.work := by
  simp only [State.drawnResult]
  split <;> rfl

theorem State.hostReads_work (n : Nat) (v : BitVec 64) (s : State) : (s.hostReads n v).work = s.work := by
  unfold State.hostReads
  split <;> rfl

theorem State.writeIn_work (a : Nat) (b : Byte) (s : State) : (s.writeIn a b).work = s.work := by
  unfold State.writeIn
  split <;> rfl

theorem State.writeInLen_work (v : Len) (s : State) : (s.writeInLen v).work = s.work := by
  unfold State.writeInLen
  split <;> rfl

theorem State.writeCmd_work_bounded {P : Params} {s : State} (w : Word) (h : s.work.Bounded P) : (s.writeCmd w).work.Bounded P := by
  unfold State.writeCmd
  split
  · exact h
  · split
    · exact { h with rp_cap := Nat.zero_le _, wp_cap := Nat.zero_le _ }
    · exact h

theorem hostMove_work_bounded {P Q : Params} {x : HostTxn} {s t : State} (hs : s.work.Bounded Q) (h : hostMove P x s = .next t) :
    t.work.Bounded Q := by
  obtain ⟨a, b, -, -, rfl⟩ | ⟨v, -, rfl⟩ | ⟨w, -, rfl⟩ | ⟨-, ⟨v, rfl⟩ | ⟨n, v, rfl⟩⟩ := hostMove_cases h
  · rwa [State.writeIn_work]
  · rwa [State.writeInLen_work]
  · exact s.writeCmd_work_bounded w hs
  · exact hs
  · rwa [State.hostReads_work]

/-- Settles O21: only an operation's phases, a start and a reset touch the working state. -/
theorem workBoundsKeptByStep : Obligations.WorkBoundsKeptByStep := by
  unfold Obligations.WorkBoundsKeptByStep
  intro s t hs h
  have hpopped : s.popped.work.Bounded params := hs
  obtain ⟨-, hmove⟩ | ⟨x, rest, -, hmove⟩ | ⟨rest, -, rfl⟩ := step_cases h
  · obtain ⟨-, rfl⟩ | ⟨-, -, rfl⟩ | ⟨-, -, i, -, hexec⟩ | ⟨-, -, -, rfl⟩ := engineMove_cases hmove
    · exact hpopped
    · rwa [State.drawnResult_work]
    · exact exec_work_bounded hexec
    · exact hpopped
  · exact hostMove_work_bounded hpopped hmove
  · exact Work.init_bounded params

end Sys2Proof.Machine
end

section
/-! PROOFS. The invariant of the architectural state, after a reset (O19) and after every step (O20). A step ends in one of four
kinds of state, by `STATUS`; for each of them the invariant is stated by what the step has to show. -/

namespace Sys2Proof.Machine

/-! ### The memories (R24, R25) -/

/-- What the invariant says of the two memories and the number of draws. -/
structure MemsSound (i o : Mem) (draws : Nat) : Prop where
  in_wf : i.wf = true
  out_wf : o.wf = true
  in_cap : i.below params.inCap = true
  out_cap : o.below params.outCap = true
  in_fresh : i.epoch < draws
  out_fresh : o.epoch < draws

theorem State.Inv.mems {s : State} (h : s.Inv) : MemsSound s.inMem s.outMem s.draws := { h with }

namespace MemsSound

variable {i o : Mem} {d : Nat}

theorem mono (h : MemsSound i o d) {e : Nat} (hle : d ≤ e) : MemsSound i o e :=
  { h with in_fresh := h.in_fresh.trans_le hle, out_fresh := h.out_fresh.trans_le hle }

theorem writeIn (h : MemsSound i o d) {a : Nat} (b : Byte) (ha : a < params.inCap) : MemsSound (i.write a b) o d :=
  { h with in_wf := Mem.wf_write a b h.in_wf, in_cap := Mem.below_write b h.in_cap ha, in_fresh := h.in_fresh }

/-- Cells of `OUT` become unspecified, by the next draw; which of its cells were listed before does not matter. -/
theorem forgetOut (h : MemsSound i o d) {o' : Mem} (hwf : o'.wf = true) (hbelow : o'.below params.outCap = true) (n : Nat) :
    MemsSound i (o'.forgetFrom n d) (d + 1) :=
  ⟨h.in_wf, Mem.wf_forgetFrom n d hwf, h.in_cap, Mem.below_forgetFrom n d hbelow, h.in_fresh.trans (Nat.lt_succ_self d),
    Nat.lt_succ_self d⟩

theorem forgetAll (h : MemsSound i o d) (o' : Mem) : MemsSound i (o'.forgetFrom 0 d) (d + 1) := by
  have hempty : o'.forgetFrom 0 d = { cells := [], epoch := d } := by simp [Mem.forgetFrom]
  rw [hempty]
  exact ⟨h.in_wf, Mem.wf_empty d, h.in_cap, Mem.below_empty d _, h.in_fresh.trans (Nat.lt_succ_self d), Nat.lt_succ_self d⟩

end MemsSound

/-! ### The four states of the life cycle (R42, R43, R45) -/

theorem errWord_ne_errNone (e : ErrKind) : errWord e ≠ errNone := by cases e <;> decide

section

variable {s : State} (hmems : MemsSound s.inMem s.outMem s.draws)
include hmems

theorem State.inv_of_idle (hstatus : s.status = statusWord .idle) (herr : s.err = errNone) (hop : s.op = 0) (hlen : s.outLen = 0) :
    s.Inv :=
  { hmems with
    status_legal := ⟨.idle, hstatus⟩
    err_legal := .inl herr
    err_iff := ⟨fun h => absurd (hstatus.symm.trans h) (by decide), fun h => absurd herr h⟩
    busy_legal := fun h => absurd (hstatus.symm.trans h) (by decide)
    idle_clear := fun _ => ⟨hop, hlen⟩
    error_len := fun _ _ => hlen
    len_cap := hlen ▸ Nat.zero_le _
    done_known := fun h => absurd (hstatus.symm.trans h) (by decide) }

theorem State.inv_of_busy (hstatus : s.status = statusWord .busy) (herr : s.err = errNone) (hop : legalOp s.op = true)
    (hlen : s.outLen = 0) : s.Inv :=
  { hmems with
    status_legal := ⟨.busy, hstatus⟩
    err_legal := .inl herr
    err_iff := ⟨fun h => absurd (hstatus.symm.trans h) (by decide), fun h => absurd herr h⟩
    busy_legal := fun _ => ⟨hop, hlen⟩
    idle_clear := fun h => absurd (hstatus.symm.trans h) (by decide)
    error_len := fun _ _ => hlen
    len_cap := hlen ▸ Nat.zero_le _
    done_known := fun h => absurd (hstatus.symm.trans h) (by decide) }

theorem State.inv_of_done (hstatus : s.status = statusWord .done) (herr : s.err = errNone)
    (hcap : s.outLen.toNat ≤ params.outCap)
    (hknown : s.disturbed = false → ∀ a < s.outLen.toNat, s.outMem.listed a) : s.Inv :=
  { hmems with
    status_legal := ⟨.done, hstatus⟩
    err_legal := .inl herr
    err_iff := ⟨fun h => absurd (hstatus.symm.trans h) (by decide), fun h => absurd herr h⟩
    busy_legal := fun h => absurd (hstatus.symm.trans h) (by decide)
    idle_clear := fun h => absurd (hstatus.symm.trans h) (by decide)
    error_len := fun h => absurd (hstatus.symm.trans h) (by decide)
    len_cap := hcap
    done_known := fun _ => hknown }

theorem State.inv_of_error {e : ErrKind} (hstatus : s.status = statusWord .error) (herr : s.err = errWord e)
    (hcap : s.outLen.toNat ≤ params.outCap) (hlen : s.disturbed = false → s.outLen = 0) : s.Inv :=
  { hmems with
    status_legal := ⟨.error, hstatus⟩
    err_legal := .inr ⟨e, herr⟩
    err_iff := ⟨fun _ => herr ▸ errWord_ne_errNone e, fun _ => hstatus⟩
    busy_legal := fun h => absurd (hstatus.symm.trans h) (by decide)
    idle_clear := fun h => absurd (hstatus.symm.trans h) (by decide)
    error_len := fun _ => hlen
    len_cap := hcap
    done_known := fun h => absurd (hstatus.symm.trans h) (by decide) }

end

theorem State.inv_resetMove (s : State) : s.resetMove.Inv :=
  State.inv_of_idle ⟨Mem.wf_empty _, Mem.wf_empty _, Mem.below_empty _ _, Mem.below_empty _ _, by simp, by simp⟩ rfl rfl rfl rfl

/-- Settles O19: after a reset the machine is idle, and the working state empty. -/
theorem invariantsHoldAtReset : Obligations.InvariantsHoldAtReset := by
  unfold Obligations.InvariantsHoldAtReset
  have hmems : MemsSound State.reset.inMem State.reset.outMem State.reset.draws :=
    ⟨Mem.wf_empty _, Mem.wf_empty _, Mem.below_empty _ _, Mem.below_empty _ _, by decide, by decide⟩
  exact ⟨State.inv_of_idle hmems rfl rfl rfl rfl, Work.init_bounded params⟩

theorem State.drawnResult_memories (P : Params) (s : State) :
    (s.drawnResult P).inMem = s.inMem ∧ (s.drawnResult P).outMem = s.outMem.forgetFrom 0 (s.draws + 1) ∧
      (s.drawnResult P).draws = s.draws + 3 ∧ (s.drawnResult P).disturbed = s.disturbed := by
  simp only [State.drawnResult]
  split <;> exact ⟨rfl, rfl, rfl, rfl⟩

/-! ### The moves -/

namespace State.Inv

variable {s t : State}

theorem popped (h : s.Inv) : s.popped.Inv := { h with }

theorem badCommand (h : s.Inv) : s.badCommand.Inv := State.inv_of_error h.mems rfl rfl (Nat.zero_le _) fun _ => rfl

theorem start (h : s.Inv) {op : BitVec 4} (hop : legalOp op = true) : (s.start op).Inv :=
  State.inv_of_busy h.mems rfl rfl hop rfl

/-- More draws, another value that the host has read. -/
theorem withDraws (h : s.Inv) {d : Nat} (hd : s.draws ≤ d) (v : BitVec 64) : ({ s with draws := d, hostData := v } : State).Inv :=
  { h.mems.mono hd, h with }

theorem hostReads (h : s.Inv) (n : Nat) (v : BitVec 64) : (s.hostReads n v).Inv := by
  cases hb : s.isBusy with
  | true =>
    rw [State.hostReads_of_busy n v hb]
    exact h.withDraws (Nat.le_succ _) _
  | false =>
    rw [State.hostReads_of_not_busy n v hb]
    exact h.withDraws le_rfl v

theorem writeCmd (h : s.Inv) (w : Word) : (s.writeCmd w).Inv := by
  cases hb : s.isBusy with
  | true =>
    rw [State.writeCmd_of_busy w hb]
    exact h
  | false =>
    rw [State.writeCmd_of_not_busy w hb]
    split
    · next hw =>
      simp only [legalCommand, Bool.and_eq_true] at hw
      exact h.start hw.2
    · exact h.badCommand

theorem writeInLen (h : s.Inv) (v : Len) : (s.writeInLen v).Inv := by
  unfold State.writeInLen
  split
  · exact h
  · exact { h with }

/-- A write of `IN` while `BUSY` marks the input, and the clauses that R350 suspends do not speak of `BUSY`. -/
theorem writeIn (h : s.Inv) {a : Nat} (b : Byte) (ha : a < params.inCap) : (s.writeIn a b).Inv := by
  cases hb : s.isBusy with
  | true =>
    rw [State.writeIn_of_busy a b hb]
    have hmems := (h.mems.writeIn (Config.freeByte s.draws a) ha).mono (Nat.le_succ _)
    exact { hmems, h with error_len := fun _ hd => (Bool.noConfusion hd), done_known := fun _ hd => (Bool.noConfusion hd) }
  | false =>
    rw [State.writeIn_of_not_busy a b hb]
    exact { h.mems.writeIn b ha, h with }

theorem hostMove {x : HostTxn} (h : s.Inv) (hx : Machine.hostMove params x s = .next t) : t.Inv := by
  obtain ⟨a, b, -, ha, rfl⟩ | ⟨v, -, rfl⟩ | ⟨w, -, rfl⟩ | ⟨-, ⟨v, rfl⟩ | ⟨n, v, rfl⟩⟩ := hostMove_cases hx
  · exact h.writeIn b ha
  · exact h.writeInLen v
  · exact h.writeCmd w
  · exact h.withDraws le_rfl v
  · exact h.hostReads n v

/-- R350: the drawn result of a disturbed operation. -/
theorem drawnResult (h : s.Inv) (hd : s.disturbed = true) : (s.drawnResult params).Inv := by
  have hmems : MemsSound s.inMem (s.outMem.forgetFrom 0 (s.draws + 1)) (s.draws + 3) :=
    ((h.mems.mono (Nat.le_succ _)).forgetAll s.outMem).mono (Nat.le_succ _)
  obtain ⟨hend, hlen⟩ := State.drawnResult_registers params s
  obtain ⟨hin, hout, hdraws, hdist⟩ := State.drawnResult_memories params s
  rw [← hin, ← hout, ← hdraws] at hmems
  have hmarked : (s.drawnResult params).disturbed ≠ false := by rw [hdist, hd]; decide
  rcases hend with ⟨hstatus, herr⟩ | ⟨hstatus, e, herr⟩
  · exact State.inv_of_done hmems hstatus herr hlen fun hf => absurd hf hmarked
  · exact State.inv_of_error hmems hstatus herr hlen fun hf => absurd hf hmarked

/-- R302: the last phase of an operation, on what its phases have written. -/
theorem lastPhase (h : s.Inv) (i : Instr) {u : State} (hsame : SameOutside s u)
    (hrun : Running params True (fun _ => True) u) : (Machine.lastPhase i u).Inv := by
  obtain ⟨hwf, hbelow, hlisted⟩ := hrun.out trivial
  have hmems : MemsSound u.inMem s.outMem u.draws := by
    rw [hsame.inMem, hsame.draws]
    exact h.mems
  have hcoded : ∀ k, (u.finishCoded k).Inv := fun k => by
    have hlen : (u.finishCoded k).outLen.toNat = u.work.wp := by
      rw [State.finishCoded_outLen, BitVec.toNat_ofNat, Nat.mod_eq_of_lt (hrun.wp_le.trans_lt params_outCap_lt)]
    refine State.inv_of_done ?_ (u.finishCoded_status k) (u.finishCoded_err k) (hlen.trans_le hrun.wp_le) fun _ a ha => ?_
    · rw [State.finishCoded_inMem, State.finishCoded_outMem]
      refine (hmems.forgetOut hwf hbelow u.work.wp).mono ?_
      rw [State.finishCoded_draws]
      split <;> omega
    · rw [hlen] at ha
      rw [State.finishCoded_outMem, Mem.listed_forgetFrom]
      exact ⟨ha, hlisted a ha⟩
  cases i with
  | freqCount =>
    exact State.inv_of_done (hmems.forgetAll u.outMem) rfl rfl (Nat.zero_le _) fun _ a ha => absurd ha (Nat.not_lt_zero a)
  | huffEnc | sfEnc => exact hcoded true
  | huffDec | sfDec | lz77Enc | lz77Dec | lzwEnc | lzwDec => exact hcoded false

/-- R304: `raise`, whatever the phases have written. -/
theorem raiseError (h : s.Inv) {u : State} (hsame : SameOutside s u) (e : ErrKind) : (u.raiseError e).Inv := by
  have hmems : MemsSound u.inMem s.outMem u.draws := by
    rw [hsame.inMem, hsame.draws]
    exact h.mems
  refine State.inv_of_error ?_ (u.raiseError_status e) (u.raiseError_err e) ?_ fun _ => u.raiseError_outLen e
  · rw [State.raiseError_inMem, State.raiseError_outMem]
    refine (hmems.forgetAll u.outMem).mono ?_
    rw [State.raiseError_draws]
    split <;> omega
  · rw [State.raiseError_outLen]
    exact Nat.zero_le _

theorem exec (h : s.Inv) {i : Instr} (hexec : Machine.exec i s = .next t) : t.Inv := by
  have hcarry := phases_carries (sameOutside_outside s) params i
  have hends := Ends.phases (P := params) (G := True) i
  rw [exec_eq] at hexec
  obtain ⟨u, hu, rfl⟩ | ⟨e, u, hu, rfl⟩ := runOp_cases hexec
  · exact h.lastPhase i (hcarry.ok (SameOutside.refl s) hu) (hends.ok (fun _ => ⟨h.out_wf, h.out_cap⟩) hu)
  · exact h.raiseError (hcarry.error (SameOutside.refl s) hu).2 e

theorem engineMove (h : s.Inv) (hmove : Machine.engineMove s = .next t) : t.Inv := by
  obtain ⟨-, rfl⟩ | ⟨-, hd, rfl⟩ | ⟨-, -, i, -, hexec⟩ | ⟨-, -, -, rfl⟩ := engineMove_cases hmove
  · exact h
  · exact h.drawnResult hd
  · exact h.exec hexec
  · exact h.badCommand

end State.Inv

/-- Settles O20: each of the moves keeps the invariant. -/
theorem invKeptByStep : Obligations.InvKeptByStep := by
  unfold Obligations.InvKeptByStep
  intro s t hs h
  obtain ⟨-, hmove⟩ | ⟨x, rest, -, hmove⟩ | ⟨rest, -, rfl⟩ := step_cases h
  · exact hs.popped.engineMove hmove
  · exact hs.popped.hostMove hmove
  · exact s.popped.inv_resetMove

end Sys2Proof.Machine
end
